-- ==== Sys2Proof/Word.lean ====
section
/-! DEFINITION. The words of the engine: bytes, 64-bit registers, 16-bit checksum words, command words, 16-byte blocks (spec/00_scope.md R5, R6). -/

namespace Sys2Proof

/-- One byte of host memory (spec/20_memory.md R40). -/
abbrev Byte := BitVec 8

/-- A register of `XLEN` = 64 bits (spec/00_scope.md R6). -/
abbrev Word := BitVec 64

/-- A checksum word of `CSUM_BITS` = 16 bits (spec/00_scope.md R5). -/
abbrev CsumWord := BitVec 16

/-- A 32-bit command word (spec/30_encoding.md R60). -/
abbrev CmdWord := BitVec 32

/-- One counter block or keystream block of `BLOCK_BYTES` = 16 bytes (spec/00_scope.md R5). -/
abbrev Block := Vector Byte 16

/-- The 8-byte IV as the bytes in memory (spec/00_scope.md R5, `SEQ_BYTES`). -/
abbrev IvBytes := Vector Byte 8

end Sys2Proof
end

