-- ==== Sys2Proof/Syntax.lean ====
section
/-! DEFINITION. The twelve commands, one constructor per row of spec/opcode_table.json (spec/30_encoding.md R64). -/

namespace Sys2Proof

/-- A command with its operands from the command word: `c` the context slot or `s` the registry index of `SEL`,
`acc` the accumulator number of `ACC` (R61, R63: "taken as an unsigned number"). -/
inductive Instr where
  /-- `ENCRYPT c, k`: transform, `DIR` = 0 (R91). -/
  | encrypt (c : Nat) (acc : Fin 16)
  /-- `DECRYPT c, k`: transform, `DIR` = 1 (R92). -/
  | decrypt (c : Nat) (acc : Fin 16)
  /-- `INIT c` (R101). -/
  | init (c : Nat)
  /-- `SETKEY c` (R102). -/
  | setkey (c : Nat)
  /-- `SETKEYS c` (R103). -/
  | setkeys (c : Nat)
  /-- `FINISH c` (R104). -/
  | finish (c : Nat)
  /-- `MAC c` (R124). -/
  | mac (c : Nat)
  /-- `ACKTAG c` (R125). -/
  | acktag (c : Nat)
  /-- `LOOKUP` (R140). -/
  | lookup
  /-- `GETDESC s` (R141). -/
  | getdesc (s : Nat)
  /-- `GETTYPE s` (R143). -/
  | gettype (s : Nat)
  /-- `NEXTIV s` (R144). -/
  | nextiv (s : Nat)
  deriving DecidableEq, Repr

/-- The number in the `SEL` field: 0 for the format without a selector (R61). -/
def Instr.sel : Instr → Nat
  | .encrypt c _ | .decrypt c _ | .init c | .setkey c | .setkeys c | .finish c | .mac c | .acktag c => c
  | .lookup => 0
  | .getdesc s | .gettype s | .nextiv s => s

/-- The number in the `ACC` field: 0 outside format X (R61). -/
def Instr.acc : Instr → Fin 16
  | .encrypt _ k | .decrypt _ k => k
  | .init _ | .setkey _ | .setkeys _ | .finish _ | .mac _ | .acktag _ => 0
  | .lookup | .getdesc _ | .gettype _ | .nextiv _ => 0

end Sys2Proof
end

