-- ==== Sys2Proof/WellFormed.lean ====
section
/-! DEFINITION. Which commands a command word can hold (spec/30_encoding.md R61, R63). -/

namespace Sys2Proof

/-- `SEL` is a field of eight bits (R61): a selector a word can hold is below 256. `ACC`, a field of four bits, is
bounded by its type. -/
def Instr.wf (i : Instr) : Bool := decide (i.sel < 256)

end Sys2Proof
end

