-- ==== Sys2Proof/Decode.lean ====
section
/-! DEFINITION. The decoder and the encoder (spec/30_encoding.md R60 to R65, spec/opcode_table.json). -/

namespace Sys2Proof

/-- Why a word selects no row (R65). Every one of them raises `ILLEGAL_CMD`. -/
inductive Illegal where
  /-- The `OPC` field holds none of the eleven values of R64. -/
  | unassignedOpc (opc : BitVec 8)
  /-- The `OPC` field is assigned, and a bit that must be zero (or the fixed `SEL` of format N) is not. -/
  | mustBeZero (opc : BitVec 8)
  deriving DecidableEq, Repr

/-- `OPC`, bits 7:0 (R61). -/
def opcField (w : CmdWord) : BitVec 8 := w.extractLsb' 0 8
/-- `SEL`, bits 15:8, as an unsigned number (R61, R63). -/
def selField (w : CmdWord) : Nat := (w.extractLsb' 8 8).toNat
/-- `ACC`, bits 23:20, as an unsigned number (R61, R63). -/
def accField (w : CmdWord) : Fin 16 := (w.extractLsb' 20 4).toFin

/-- A row of the opcode map: "a word `w` encodes the row when `w AND mask = match`" (R64). -/
structure Row where
  mtch  : CmdWord
  mask  : CmdWord
  build : CmdWord → Instr

/-- `w AND mask = match` (R64). -/
def Row.selects (r : Row) (w : CmdWord) : Bool := decide (w &&& r.mask = r.mtch)

/-- Mask of format X: bits 31:24, 19:16 and 7:0 (R62). -/
def maskX : CmdWord := 0xFF0F00FF#32
/-- Mask of formats C and S: all but `SEL` (R62). -/
def maskC : CmdWord := 0xFFFF00FF#32
/-- Mask of format N: every bit (R62). -/
def maskN : CmdWord := 0xFFFFFFFF#32

/-- The opcode map of R64, in its order. -/
def rows : List Row :=
  [{ mtch := 0x00000010#32, mask := maskX, build := fun w => .encrypt (selField w) (accField w) },
   { mtch := 0x00010010#32, mask := maskX, build := fun w => .decrypt (selField w) (accField w) },
   { mtch := 0x00000020#32, mask := maskC, build := fun w => .init (selField w) },
   { mtch := 0x00000021#32, mask := maskC, build := fun w => .setkey (selField w) },
   { mtch := 0x00000022#32, mask := maskC, build := fun w => .setkeys (selField w) },
   { mtch := 0x00000023#32, mask := maskC, build := fun w => .finish (selField w) },
   { mtch := 0x00000030#32, mask := maskC, build := fun w => .mac (selField w) },
   { mtch := 0x00000031#32, mask := maskC, build := fun w => .acktag (selField w) },
   { mtch := 0x00000040#32, mask := maskN, build := fun _ => .lookup },
   { mtch := 0x00000041#32, mask := maskC, build := fun w => .getdesc (selField w) },
   { mtch := 0x00000042#32, mask := maskC, build := fun w => .gettype (selField w) },
   { mtch := 0x00000043#32, mask := maskC, build := fun w => .nextiv (selField w) }]

/-- The reason a word that selects no row is illegal. -/
def illegalReason (w : CmdWord) : Illegal :=
  if rows.any (fun r => decide (opcField r.mtch = opcField w)) then .mustBeZero (opcField w)
  else .unassignedOpc (opcField w)

/-- "A decoder is total: every 32-bit word either selects exactly one row or is illegal." (R65) -/
def decode (w : CmdWord) : Except Illegal Instr :=
  match rows.find? (fun r => r.selects w) with
  | some r => .ok (r.build w)
  | none => .error (illegalReason w)

/-- The `match` word of a command's row (R64). -/
def Instr.matchWord : Instr → CmdWord
  | .encrypt _ _ => 0x00000010#32
  | .decrypt _ _ => 0x00010010#32
  | .init _ => 0x00000020#32
  | .setkey _ => 0x00000021#32
  | .setkeys _ => 0x00000022#32
  | .finish _ => 0x00000023#32
  | .mac _ => 0x00000030#32
  | .acktag _ => 0x00000031#32
  | .lookup => 0x00000040#32
  | .getdesc _ => 0x00000041#32
  | .gettype _ => 0x00000042#32
  | .nextiv _ => 0x00000043#32

/-- "The word a command line encodes is `match OR (SEL << 8) OR (ACC << 20)`" (R68). -/
def encode (i : Instr) : CmdWord :=
  i.matchWord ||| (BitVec.ofNat 32 i.sel <<< 8) ||| (BitVec.ofNat 32 i.acc.val <<< 20)

/-- The instruction the decoder reads from the `nbits` bits of `w`, numbered as spec/opcode_table.json numbers them:
the command is one 32-bit word (R60), so bit 0 is bit 0 of the word, and the bits above `nbits` are 0. -/
def decodeTableWord (nbits w : Nat) : Option Instr :=
  match decode (BitVec.ofNat 32 (w % 2 ^ nbits)) with
  | .ok i => some i
  | .error _ => none

end Sys2Proof
end

