-- ==== Sys2Proof/Config.lean ====
section
/-! DEFINITION. What a configuration of the engine fixes: constants (spec/00_scope.md R5), parameters (R6), the shape of
the registry (spec/10_state.md R21), the map of host memory (spec/20_memory.md R40, R44), and the OPEN functions as
constants without a body. -/

namespace Sys2Proof

/-! ### Constants the source fixes (spec/00_scope.md R5) -/

namespace Config

/-- `BLOCK_BYTES`. -/
abbrev blockBytes : Nat := 16
/-- `SEQ_BYTES`. -/
abbrev seqBytes : Nat := 8
/-- `TAG_BYTES`. -/
abbrev tagBytes : Nat := 20
/-- `KEY_MIN_BYTES`. -/
abbrev keyMinBytes : Nat := 16
/-- One past the last host-memory address, `2^ADDR_BITS` (R6). -/
abbrev addrTop : Nat := 2 ^ 64

end Config

/-! ### Keyed states -/

/-- `KS`, the bulk keyed state (spec/10_state.md R17). Opaque to the engine; held as the bytes an implementation keeps
for it. DESIGN CHOICE, safe (log 3). -/
structure BulkKey where
  bytes : List Byte
  deriving DecidableEq, Repr

/-- `AckState`, the ack-authentication keyed state (R17). DESIGN CHOICE, safe (log 3). -/
structure AckState where
  bytes : List Byte
  deriving DecidableEq, Repr

/-- `MacKey`, the keyed state of the MAC algorithm (R17). DESIGN CHOICE, safe (log 3). -/
structure MacKey where
  bytes : List Byte
  deriving DecidableEq, Repr

/-! ### The registry (spec/10_state.md R21) -/

/-- The cipher family tag: "symmetric bulk cipher vs MAC-only". -/
inductive Family where
  | sym
  | mac
  deriving DecidableEq, Repr

/-- The five capabilities (spec/44_registry.md R139). -/
inductive Cap where
  | xform
  | mac
  | acktag
  | setkey
  | setkeys
  deriving DecidableEq, Repr

/-- A set of capabilities, one bit each. -/
structure Caps where
  xform   : Bool
  mac     : Bool
  acktag  : Bool
  setkey  : Bool
  setkeys : Bool
  deriving DecidableEq, Repr

/-- Which implementation of the OPEN functions an entry uses. `ext n` is the external dependency number `n`, about
which nothing is known; `refToy` and `refAes` are the test instantiations of spec/92_eei_decisions.md D15 to D17
(spec/00_scope.md R7: for tests only); `refFail` is the model's own test stub, `refToy` failing on every string that
ends in 0xFF, so that the failure of each primitive can be shown. DESIGN CHOICE, safe (log 4). -/
inductive Impl where
  | ext (n : Nat)
  | refToy
  | refAes
  | refFail
  deriving DecidableEq, Repr

/-- One registry entry (R21). The function fields of R21 are found through `impl`. -/
structure Suite where
  id           : BitVec 32
  family       : Family
  caps         : Caps
  macSuite     : Option Nat
  impl         : Impl
  macNativeLen : Nat
  deriving DecidableEq, Repr

/-! ### Parameters (spec/00_scope.md R6) -/

/-- `CTR_STRIDE`: "1 (the only other legal value is 16)". -/
inductive Stride where
  | one
  | sixteen
  deriving DecidableEq, Repr

/-- The number added to the counter from one block to the next. -/
def Stride.toNat : Stride → Nat
  | .one => 1
  | .sixteen => 16

/-- The named parameters of R6 that are neither the registry nor the memory map. -/
structure Params where
  ctrStride      : Stride
  seqSentinel    : Word
  macKeyMinBytes : Nat
  deriving DecidableEq, Repr

/-- A stretch of host memory that exists: `size` bytes from `base` (log 5). -/
structure Region where
  base : Nat
  size : Nat
  deriving DecidableEq, Repr

/-! ### The OPEN functions (spec/00_scope.md R6, spec/10_state.md R21)

No body: nothing is known of them but their types. The first argument is the number of the external implementation.
The native length of a MAC is an argument of `macFn`, so that every string it returns has that length
(spec/44_registry.md R137 (d)). -/

namespace Config

/-- `bc_keysched`; `none` is the primitive refusing the key. -/
opaque bcKeysched : Nat → List Byte → Option BulkKey
/-- `bc_enc`; `none` is the primitive failing. -/
opaque bcEnc : Nat → BulkKey → Block → Option Block
/-- `ack_keysched`. -/
opaque ackKeysched : Nat → List Byte → Option AckState
/-- `ack_stream`: the tag and the next keyed state. -/
opaque ackStream : Nat → AckState → List Byte → Option (List Byte × AckState)
/-- `mac_keysched`. -/
opaque macKeysched : Nat → List Byte → Option MacKey
/-- `mac_fn`, a string of `len` = `mac_native_len` bytes. -/
opaque macFn : Nat → (len : Nat) → MacKey → IvBytes → List Byte → Option (Vector Byte len)

/-- Key byte `i` of REF-TOY's MAC under an empty key. A free value: `k[i mod |k|]` (spec/92_eei_decisions.md D16) is not
defined for `|k| = 0`. DESIGN CHOICE, safe (log 19). -/
opaque toyEmptyKeyByte : Nat → Byte

/-- What RET gets from a tag of `len` bytes when `len` does not fit in 64 bits. A free value: "RET <- |tag|"
(spec/43_mac_acktag.md R125) gives no 64-bit result there. DESIGN CHOICE, safe (log 18). -/
opaque tagLengthTooLong : Nat → Word

/-! ### Defaults -/

/-- The defaults of R6: stride 1, sentinel −1, MAC key minimum 16. -/
def defaultParams : Params :=
  { ctrStride := .one, seqSentinel := BitVec.allOnes 64, macKeyMinBytes := 16 }

/-- `N_CTX` = 16 (R6). -/
abbrev defaultNCtx : Nat := 16

/-- The two entries of spec/44_registry.md R136 with given identifiers and implementations. -/
def twoSuites (id0 id1 : BitVec 32) (impl0 impl1 : Impl) (nativeLen : Nat) : List Suite :=
  [{ id := id0, family := .sym, macSuite := some 1, impl := impl0, macNativeLen := 0,
     caps := { xform := true, mac := true, acktag := true, setkey := true, setkeys := true } },
   { id := id1, family := .mac, macSuite := none, impl := impl1, macNativeLen := nativeLen,
     caps := { xform := false, mac := true, acktag := false, setkey := true, setkeys := false } }]

/-- The default registry (R136) over external primitives 0 and 1, with the example identifiers of
spec/95_test_vectors.md and a native MAC length of 20. DESIGN CHOICE, unsafe for a claim that rests on the
identifiers or that length (log 7). -/
def defaultReg : List Suite :=
  twoSuites 0x00000100#32 0x00000200#32 (.ext 0) (.ext 1) 20

/-- The host memory that exists in the default configuration: addresses below 0x10000
(spec/95_test_vectors.md). DESIGN CHOICE, unsafe for a claim that rests on it (log 5). -/
def defaultMap : List Region := [{ base := 0, size := 0x10000 }]

end Config

/-! ### Well-formed configurations -/

/-- The members of a capability set. -/
def Caps.has (k : Caps) : Cap → Bool
  | .xform => k.xform
  | .mac => k.mac
  | .acktag => k.acktag
  | .setkey => k.setkey
  | .setkeys => k.setkeys

/-- Conditions (b), (c), (d), (f) of spec/44_registry.md R137 for one entry of `reg`; a reference entry's MAC has the
native length of its definition, 32 (spec/92_eei_decisions.md D16). -/
def Suite.wf (reg : List Suite) (S : Suite) : Bool :=
  (match S.family with
   | .sym =>
     (match S.macSuite with
      | none => false
      | some m =>
        match reg[m]? with
        | none => false
        | some M => decide (M.family = .mac) && M.caps.mac && M.caps.setkey)
     && (!S.caps.xform || S.caps.setkey || S.caps.setkeys)
     && (!S.caps.acktag || S.caps.setkeys)
     && (!S.caps.mac || S.caps.setkeys)
   | .mac =>
     decide (S.macSuite = none) && !S.caps.xform && !S.caps.acktag && !S.caps.setkeys
     && (!S.caps.mac ||
         (decide (Config.tagBytes ≤ S.macNativeLen) &&
          (match S.impl with
           | .ext _ => true
           | .refToy => decide (S.macNativeLen = 32)
           | .refAes => decide (S.macNativeLen = 32)
           | .refFail => decide (S.macNativeLen = 32)))))

/-- R137 (a), "no two entries have the same id", and the conditions on every entry; `N_SUITES` is 1 to 256 (R6).
Condition (e) holds by the types of the OPEN functions. -/
def regWf (reg : List Suite) : Bool :=
  decide ((reg.map Suite.id).Nodup) && reg.all (Suite.wf reg)
  && decide (1 ≤ reg.length) && decide (reg.length ≤ 256)

/-- "any negative 64-bit value" for the sentinel (spec/93_implementation_defined.md section 1). -/
def Params.wf (p : Params) : Bool := p.seqSentinel.msb

end Sys2Proof
end

