-- ==== Sys2Proof/Machine/State.lean ====
section
/-! DEFINITION. The state of the machine (spec/10_state.md), its reasons to stop, and reset (R28). -/

namespace Sys2Proof.Machine

/-! ### Fault codes of the engine (spec/60_exceptions.md R156) -/

/-- The thirteen values of `FAULT.CODE` (R156); "Codes 13 to 255 are reserved and never appear". An engine fault is a
next state of the machine, not a stop of the model. -/
inductive FaultCode where
  | none
  | illegalCmd
  | badSel
  | zeroLen
  | invalidKeyLength
  | notKeyed
  | badState
  | ivlenProtocol
  | primitiveFail
  | sizing
  | capAbsent
  | bus
  | unknownAlg
  deriving DecidableEq, Repr

/-! ### The context table (spec/10_state.md R17, R18) -/

/-- The five values of `st` (R18). -/
inductive CtxState where
  | absent
  | uninit
  | keyed
  | active
  | finished
  deriving DecidableEq, Repr

/-- The fields a context and its nested Sub-Authenticator have in common (R17). -/
structure CtxCore where
  st    : CtxState
  suite : Nat
  bulk  : Option BulkKey
  ack   : Option AckState
  mac   : Option MacKey
  deriving DecidableEq, Repr

/-- A context slot (R17): "the nested Ctx has sub = none", so the nested record is a `CtxCore`. -/
structure Ctx extends CtxCore where
  sub : Option CtxCore
  deriving DecidableEq, Repr

/-- A slot that has never held a context. Its `suite` is "unspecified, never read while st = ABSENT" (R28): 0 is a
DESIGN CHOICE, unsafe for a claim that rests on it (log 9). -/
def Ctx.absent : Ctx :=
  { st := .absent, suite := 0, bulk := .none, ack := .none, mac := .none, sub := .none }

/-! ### The host (spec/10_state.md R10, spec/30_encoding.md R68) -/

/-- One action of the host: the script lines of R68. A register access carries the width it is made with, since a
narrower one is outside the spec (R27). -/
inductive HostAction where
  /-- `wr`, and every command line: the host writes `value` at byte offset `off` of the register block. -/
  | regWrite (off width : Nat) (value : Word)
  /-- `rd`: the host reads the register at byte offset `off`. -/
  | regRead (off width : Nat)
  /-- `mw`: the host stores bytes in host memory. -/
  | memWrite (addr : Nat) (bytes : List Byte)
  /-- `mr`: the host loads `n` bytes from host memory. -/
  | memRead (addr n : Nat)
  /-- `reset`: the host asserts reset (R185). -/
  | reset
  deriving DecidableEq, Repr

/-! ### The state -/

/-- Everything the spec gives the machine (R11 to R23, R26, R40), the configuration that no step changes, and the host
agent with its pending actions (log 1, log 2). -/
structure State where
  /-- `CMD` (R14). -/
  cmd         : CmdWord
  /-- `STATUS.HALT` (R15). -/
  halt        : Bool
  /-- `RET` (R13). -/
  ret         : Word
  /-- `FAULT`: the code, from which the class follows by the table of R156 (log 13). -/
  fault       : FaultCode
  /-- `FAULT_CMD` (R15). -/
  faultCmd    : CmdWord
  /-- `FAULT_INFO` (R15). -/
  faultInfo   : Word
  /-- `A0` to `A7` (R11). -/
  a           : Vector Word 8
  /-- `CSUM[0]` to `CSUM[15]` (R16). -/
  csum        : Vector CsumWord 16
  /-- `CTX`, `N_CTX` slots (R17). -/
  ctx         : List Ctx
  /-- `NETCONV_DONE` (R23). -/
  netconvDone : Bool
  /-- `REG`, `N_SUITES` entries, read-only (R21, R22). -/
  reg         : List Suite
  /-- The other parameters of spec/00_scope.md R6, read-only (log 8). -/
  params      : Params
  /-- `MEM_VALID` as the regions that exist, read-only (spec/20_memory.md R40, R44; log 5). -/
  memMap      : List Region
  /-- Host memory (R40): bytes that differ from 0, by rising address (log 6). -/
  mem         : List Host.Cell
  /-- The host's pending actions, first one next: the model's own field (log 1). -/
  host        : List HostAction
  /-- What the host's last register read returned: the model's own field (log 2). -/
  hostReg     : Word
  /-- What the host's last memory read returned: the model's own field (log 2). -/
  hostMem     : List Byte
  deriving DecidableEq, Repr

/-! ### Reasons to stop -/

/-- A fault of the MODEL (an engine fault is a next state). -/
inductive Fault where
  /-- Raised by `hostStore` and `hostLoad`: the host touches memory that does not exist (spec/20_memory.md R40). The
  spec gives no effect. Safe (log 10). -/
  | hostNoMemory (addr : Nat)
  deriving DecidableEq, Repr

/-- What the model refuses. -/
inductive Refusal where
  /-- Raised by an arm of `exec` that has no meaning yet. Safe. No arm does. -/
  | notModelled (mnemonic : String)
  /-- Raised by `regStore` and `regLoad`: "An access at an offset that is not a multiple of 8 ... is outside this spec: a
  model refuses it" (R27). Safe (log 11). -/
  | misalignedRegister (off : Nat)
  /-- Raised by `regStore` and `regLoad`: an access that is not 64 bits wide (R27). Safe (log 11). -/
  | narrowRegister (width : Nat)
  /-- Raised by `step` for a configuration that is not well formed (spec/44_registry.md R137: "refuses the configuration
  otherwise"), and by a command that meets a context whose suite or Sub-Authenticator is missing, which R18 and R137
  rule out. Safe (log 15). -/
  | illFormedConfig
  deriving DecidableEq, Repr

/-! ### Reset -/

/-- The engine right after reset (R28), over any configuration, any host memory and any pending host actions. -/
def State.resetWith (nCtx : Nat) (reg : List Suite) (params : Params) (memMap : List Region)
    (mem : List Host.Cell) (host : List HostAction) : State :=
  { cmd := 0, halt := false, ret := 0, fault := .none, faultCmd := 0, faultInfo := 0,
    a := Vector.replicate 8 0, csum := Vector.replicate 16 0,
    ctx := List.replicate nCtx Ctx.absent, netconvDone := false,
    reg := reg, params := params, memMap := memMap, mem := mem,
    host := host, hostReg := 0, hostMem := [] }

/-- The machine right after reset in the default configuration (spec/00_scope.md R6, spec/44_registry.md R136), with
nothing in memory and no pending host action (logs 1, 5, 6, 7). -/
def State.reset : State :=
  State.resetWith Config.defaultNCtx Config.defaultReg Config.defaultParams Config.defaultMap [] []

end Sys2Proof.Machine
end

