-- ==== Sys2Proof/Machine/Operands.lean ====
section
/-! DEFINITION. Operand assembly and byte order (spec/00_scope.md R8, spec/20_memory.md R41, spec/30_encoding.md R63). -/

namespace Sys2Proof.Machine

/-- `BE_n(b)`: byte 0 is the most significant (R8). -/
def beNat (b : List Byte) : Nat := b.foldl (fun acc x => acc * 256 + x.toNat) 0

/-- `BEbytes_n(v)`: the `n` bytes of `v`, most significant first (R8). -/
def beBytes : Nat → Nat → List Byte
  | 0, _ => []
  | n + 1, v => BitVec.ofNat 8 (v / 256 ^ n) :: beBytes n v

/-- `signed_64(v)`: the two's-complement reading (R8). -/
def signed64 (v : Word) : Int := v.toInt

/-- Byte `i` of a big-endian 64-bit number, `i` = 0 the most significant (R8). -/
def beByte (v : Word) (i : Nat) : Byte := v.extractLsb' (8 * (7 - i)) 8

/-- The eight bytes from the front of `b` as an IV (`SEQ_BYTES` = 8). -/
def ivOf (b : List Byte) : IvBytes := Vector.ofFn fun i : Fin 8 => b.getD i.val 0

/-- Step 1 of the transform: "counter = seq & ~0xF" (spec/41_transform.md R82). -/
def seqCtr (seq : Word) : Word := seq &&& 0xFFFFFFFFFFFFFFF0#64

/-- Step 1 of the transform: "remainder = seq & 0xF" (R82). -/
def seqRem (seq : Word) : Nat := (seq &&& 0xF#64).toNat

/-- Step 2: `nblk = ceil16(rem + len)` (R83), on naturals. -/
def blockCount (rem len : Nat) : Nat := (rem + len + 15) / 16

/-- `val_i = (ctr + CTR_STRIDE * i) mod 2^64` (R84). -/
def counterValue (stride : Stride) (ctr : Word) (i : Nat) : Word :=
  ctr + BitVec.ofNat 64 (stride.toNat * i)

/-- `cb_i = 0x00^8 ++ BEbytes_8(val_i)` (R84, spec/20_memory.md R41 (b)). -/
def counterBlock (val : Word) : Block :=
  Vector.ofFn fun j : Fin 16 => if j.val < 8 then 0 else beByte val (j.val - 8)

end Sys2Proof.Machine
end

