-- ==== Sys2Proof/Machine/Flags.lean ====
section
/-! DEFINITION. The numbers of the fault registers (spec/60_exceptions.md R156) and the checksum fold
(spec/41_transform.md R88, R89). The engine has no condition codes (spec/10_state.md R15). -/

namespace Sys2Proof.Machine

/-- `CODE` (R156). -/
def FaultCode.code : FaultCode → BitVec 8
  | .none => 0
  | .illegalCmd => 1
  | .badSel => 2
  | .zeroLen => 3
  | .invalidKeyLength => 4
  | .notKeyed => 5
  | .badState => 6
  | .ivlenProtocol => 7
  | .primitiveFail => 8
  | .sizing => 9
  | .capAbsent => 10
  | .bus => 11
  | .unknownAlg => 12

/-- `CLASS`: 0 none, 1 precondition violation, 2 primitive-operation failure, 3 interface fault (R155, R156). -/
def FaultCode.cls : FaultCode → BitVec 2
  | .none => 0
  | .illegalCmd => 3
  | .badSel => 3
  | .zeroLen => 1
  | .invalidKeyLength => 1
  | .notKeyed => 1
  | .badState => 1
  | .ivlenProtocol => 1
  | .primitiveFail => 2
  | .sizing => 1
  | .capAbsent => 3
  | .bus => 3
  | .unknownAlg => 3

/-- The `FAULT` register: `CODE` in bits 7:0, `CLASS` in bits 9:8 (spec/10_state.md R15). -/
def FaultCode.word (f : FaultCode) : Word := (f.cls ++ f.code).setWidth 64

/-- The numeric codes of `st` (spec/10_state.md R18), "used only in FAULT_INFO". -/
def CtxState.code : CtxState → Word
  | .absent => 0
  | .uninit => 1
  | .keyed => 2
  | .active => 3
  | .finished => 4

/-- The number of a capability (spec/44_registry.md R139). -/
def capNumber : Cap → Word
  | .xform => 0
  | .mac => 1
  | .acktag => 2
  | .setkey => 3
  | .setkeys => 4

/-- The number of a family tag, `FAM_SYM` and `FAM_MAC` (spec/00_scope.md R6). -/
def famNumber : Family → Word
  | .sym => 0
  | .mac => 1

/-- `oc_add(s, w)`: 16-bit addition with the carry out of bit 15 added back in at bit 0 (R89). -/
def ocAdd (s w : CsumWord) : CsumWord :=
  BitVec.ofNat 16 ((s.toNat + w.toNat) % 0x10000 + (s.toNat + w.toNat) / 0x10000)

/-- A 16-bit word whose low byte is `lo`: "first byte of the pair is the LOW byte" (R88). -/
def csumPair (lo hi : Byte) : CsumWord := hi ++ lo

/-- Step 6 of the transform: fold the plaintext, pairs from the start of the span, a trailing odd byte as the low byte
of a word padded with 0 (R88). -/
def csumFold : CsumWord → List Byte → CsumWord
  | s, [] => s
  | s, [b] => ocAdd s (csumPair b 0)
  | s, lo :: hi :: rest => csumFold (ocAdd s (csumPair lo hi)) rest

end Sys2Proof.Machine
end

