-- ==== Sys2Proof/Machine/Ops.lean ====
section
/-! DEFINITION. The named operations over memory, registers and contexts (spec/20_memory.md R40 to R44,
spec/10_state.md R26, R27), and taking a fault (spec/60_exceptions.md R160). -/

namespace Sys2Proof.Machine

/-! ### Host memory -/

/-- What an address that is not listed reads as. DESIGN CHOICE, unsafe (log 6). -/
def memDefault : Byte := 0

/-- The byte at one address. -/
def memGet : List Host.Cell → Nat → Byte
  | [], _ => memDefault
  | (k, v) :: m, a => if k = a then v else memGet m a

/-- Store one byte, keeping addresses strictly rising and no entry equal to `memDefault`. -/
def memSet : List Host.Cell → Nat → Byte → List Host.Cell
  | [], a, b => if b = memDefault then [] else [(a, b)]
  | (k, v) :: m, a, b =>
    if a < k then (if b = memDefault then (k, v) :: m else (a, b) :: (k, v) :: m)
    else if a = k then (if b = memDefault then m else (a, b) :: m)
    else (k, v) :: memSet m a b

/-- Every listed address is above `lo`, the addresses rise strictly, and no entry holds `memDefault`. -/
def memWfFrom : Nat → List Host.Cell → Bool
  | _, [] => true
  | lo, (k, v) :: m => decide (lo ≤ k) && decide (v ≠ memDefault) && memWfFrom (k + 1) m

/-- The canonical form of host memory. -/
def Memory.wf (m : List Host.Cell) : Bool := memWfFrom 0 m

/-- `MemRead(addr, n)`: byte `j` of the result is the byte at `addr + j` (R8). -/
def memRead (m : List Host.Cell) (addr n : Nat) : List Byte :=
  (List.range n).map fun j => memGet m (addr + j)

/-- `MemWrite(addr, n, b)`: byte accesses at increasing addresses (R8, R43). -/
def memWrite : List Host.Cell → Nat → List Byte → List Host.Cell
  | m, _, [] => m
  | m, addr, b :: bs => memWrite (memSet m addr b) (addr + 1) bs

/-- `MEM_VALID(a)` (R40): some region holds `a`. -/
def memValid (map : List Region) (a : Nat) : Bool :=
  map.any fun r => decide (r.base ≤ a) && decide (a < r.base + r.size)

/-- Every address of `[lo, hi)` lies in some region: what a region leaves uncovered on either side is covered by the
others. -/
def covered : List Region → Nat → Nat → Bool
  | [], lo, hi => decide (hi ≤ lo)
  | r :: rs, lo, hi =>
    decide (hi ≤ lo) || (covered rs lo (min hi r.base) && covered rs (max lo (r.base + r.size)) hi)

/-- A range `(addr, n)` is valid when `addr + n <= 2^64` on naturals and every byte of it exists (R44). -/
def rangeValid (map : List Region) (addr n : Nat) : Bool :=
  decide (addr + n ≤ Config.addrTop) && covered map addr (addr + n)

/-! ### Updates of the state, one per kind of state a command writes -/

/-- `A[i] <- v`. -/
def State.setA (s : State) (i : Fin 8) (v : Word) : State := { s with a := s.a.set i v }

/-- `RET <- v`. -/
def State.setRet (s : State) (v : Word) : State := { s with ret := v }

/-- `CSUM[k] <- v`. -/
def State.setCsum (s : State) (k : Fin 16) (v : CsumWord) : State := { s with csum := s.csum.set k v }

/-- `CTX[c] <- x`. -/
def State.setCtx (s : State) (c : Nat) (x : Ctx) : State := { s with ctx := s.ctx.set c x }

/-- `MemWrite` on host memory. -/
def State.store (s : State) (addr : Nat) (b : List Byte) : State := { s with mem := memWrite s.mem addr b }

/-- `NETCONV_DONE <- 1` (spec/44_registry.md R142). -/
def State.setNetconv (s : State) : State := { s with netconvDone := true }

/-- `A[i]` as an unsigned number (spec/30_encoding.md R63). -/
def State.aNat (s : State) (i : Fin 8) : Nat := s.a[i].toNat

/-! ### Taking a fault, and the way out of it -/

/-- Fault entry (spec/60_exceptions.md R160): exactly the four fault registers; "Nothing else is saved, no mode changes,
no stack is used and control goes nowhere". `FAULT_CMD` gets the word in `CMD`. -/
def raise (code : FaultCode) (info : Word) (s : State) : State :=
  { s with fault := code, faultCmd := s.cmd, faultInfo := info, halt := true }

/-- Reset, "the only way out of the halted state" (R163; spec/70_reset_and_hazards.md R185): every engine register and
context at its reset value, keyed state erased; the registry, the parameters and host memory untouched. The host agent
keeps its own fields (log 16). -/
def engineReset (s : State) : State :=
  { State.resetWith s.ctx.length s.reg s.params s.memMap s.mem s.host with
    hostReg := s.hostReg, hostMem := s.hostMem }

/-! ### Checks of a command, in the pseudocode's order -/

/-- Why a command ends early: a fault of the engine, or a configuration the spec gives no meaning to. -/
inductive Stop where
  | trap (code : FaultCode) (info : Word)
  | refuse (r : Refusal)
  deriving DecidableEq, Repr

/-- `if p: raise code(info)`. -/
def raiseIf (p : Prop) [Decidable p] (code : FaultCode) (info : Word) : Except Stop Unit :=
  if p then .error (.trap code info) else .ok ()

/-- `x = some v`, or `raise code(info)`. -/
def orRaise {α : Type} (x : Option α) (code : FaultCode) (info : Word) : Except Stop α :=
  match x with
  | none => .error (.trap code info)
  | some v => .ok v

/-- `x = some v`, which the rules of well-formedness guarantee; otherwise the configuration is refused (log 15). -/
def orRefuse {α : Type} (x : Option α) : Except Stop α :=
  match x with
  | none => .error (.refuse .illFormedConfig)
  | some v => .ok v

/-- `if range (addr, n) not valid: raise BUS(addr)` (spec/20_memory.md R44). -/
def checkRange (s : State) (addr n : Nat) : Except Stop Unit :=
  raiseIf (rangeValid s.memMap addr n = false) .bus (BitVec.ofNat 64 addr)

/-- `if c >= N_CTX: raise BAD_SEL(c)`; the slot (spec/30_encoding.md R63). -/
def slotAt (s : State) (c : Nat) : Except Stop Ctx := orRaise s.ctx[c]? .badSel (BitVec.ofNat 64 c)

/-- `if s >= N_SUITES: raise BAD_SEL(s)`; the registry entry (R63). -/
def suiteAt (s : State) (n : Nat) : Except Stop Suite := orRaise s.reg[n]? .badSel (BitVec.ofNat 64 n)

/-- A context exists unless its slot is `ABSENT` or `FINISHED` (spec/60_exceptions.md R159 step 4). -/
def CtxState.live : CtxState → Bool
  | .absent => false
  | .uninit => true
  | .keyed => true
  | .active => true
  | .finished => false

/-- The selector and existence checks of formats X and C (R159 steps 3 and 4). -/
def liveSlot (s : State) (c : Nat) : Except Stop Ctx := do
  let x ← slotAt s c
  raiseIf (x.st.live = false) .badState x.st.code
  return x

/-- The entry a context runs, and the dispatcher's test of the capability the command needs
(spec/44_registry.md R138; R159 step 5). -/
def suiteFor (s : State) (x : Ctx) (k : Cap) : Except Stop Suite := do
  let S ← orRefuse s.reg[x.suite]?
  raiseIf (S.caps.has k = false) .capAbsent (capNumber k)
  return S

/-- What a command's work comes to: nothing while halted (R159 step 1, R162), its new state, or the fault entry with
nothing of the work done (R161). -/
def runCommand (s : State) (work : Except Stop State) : Host.Outcome State Fault Refusal :=
  if s.halt then .next s
  else match work with
    | .ok t => .next t
    | .error (.trap code info) => .next (raise code info s)
    | .error (.refuse r) => .refused r

/-- The first registry index with `zext_64(REG[s].id) = v` (spec/42_lifecycle.md R101, spec/44_registry.md R140). -/
def findSuite (reg : List Suite) (v : Word) : Option Nat :=
  reg.findIdx? fun S => decide (S.id.setWidth 64 = v)

end Sys2Proof.Machine
end

