-- ==== Sys2Proof/Machine/Primitives.lean ====
section
/-! DEFINITION. The OPEN functions of a registry entry (spec/10_state.md R21): an external implementation's are the
constants of Config; the reference instantiations are those of spec/92_eei_decisions.md D15 to D17, for tests only
(spec/00_scope.md R7). -/

namespace Sys2Proof.Machine

/-! ### REF-TOY (D15, D16, D17)

A bulk or ack keyed state of REF-TOY or REF-AES has 16 bytes, since no key schedule gets fewer (R102, R103). In a state
no run reaches, where it is shorter, the missing key bytes read as 0. DESIGN CHOICE, unsafe for a claim about those
states (log 19). -/

/-- `bc_enc(K, B)[i] = B[i] XOR K[i] XOR ((0x11 * i) mod 256)` (D15). -/
def toyEnc (k : List Byte) (b : Block) : Block :=
  Vector.ofFn fun i : Fin 16 => b[i] ^^^ k.getD i.val 0 ^^^ BitVec.ofNat 8 (0x11 * i.val)

/-- `t[j] = d[j] XOR K[j mod 16] XOR 0xA5` (D17). -/
def toyStream (k d : List Byte) : List Byte :=
  d.mapIdx fun j x => x ^^^ k.getD (j % 16) 0 ^^^ 0xA5#8

/-- `X_i`, the XOR of all `msg[j]` with `j ≡ i (mod 32)` (D16). -/
def toyColumn (i : Nat) (msg : List Byte) : Byte :=
  (msg.mapIdx fun j x => if j % 32 = i % 32 then x else 0).foldl (· ^^^ ·) 0

/-- `k[i mod |k|]` (D16), a key byte of the MAC. With an empty key, which a MAC key minimum of 0 lets through, D16 gives
no byte and it is a free value. DESIGN CHOICE, safe (log 19). -/
def toyMacKeyByte (k : List Byte) (i : Nat) : Byte :=
  match k with
  | [] => Config.toyEmptyKeyByte i
  | b :: bs => (b :: bs).getD (i % (bs.length + 1)) 0

/-- `full[i] = k[i mod |k|] XOR iv[i mod 8] XOR X_i XOR (|msg| mod 256)` (D16); D16's native length is 32. -/
def toyMac (len : Nat) (k : List Byte) (iv : IvBytes) (msg : List Byte) : Vector Byte len :=
  Vector.ofFn fun i : Fin len =>
    toyMacKeyByte k i.val ^^^ iv.toList.getD (i.val % 8) 0 ^^^ toyColumn i.val msg ^^^ BitVec.ofNat 8 msg.length

/-! ### REF-AES (D15): AES-128 on the first 16 bytes of the key

PRESUMED: AES-128 is "from general knowledge, not in source" (R7); the two known answers of
spec/95_test_vectors.md V1b and spec/93_implementation_defined.md section 3 are tested (log 4). -/

/-- The 256 entries of the AES S-box, entry `x` in bits `8x + 7 : 8x`. -/
def aesSboxTable : Nat :=
  0x16bb54b00f2d99416842e6bf0d89a18cdf2855cee9871e9b948ed9691198f8e19e1dc186b95735610ef6034866b53e708a8bbd4b1f74dde8c6b4a61c2e2578ba08ae7a65eaf4566ca94ed58d6d37c8e779e4959162acd3c25c2406490a3a32e0db0b5ede14b8ee4688902a22dc4f816073195d643d7ea7c41744975fec130ccdd2f3ff1021dab6bcf5389d928f40a351a89f3c507f02f94585334d43fbaaefd0cf584c4a39becb6a5bb1fc20ed00d153842fe329b3d63b52a05a6e1b1a2c830975b227ebe28012079a059618c323c7041531d871f1e5a534ccf73f362693fdb7c072a49cafa2d4adf04759fa7dc982ca76abd7fe2b670130c56f6bf27b777c63

/-- The AES S-box. -/
def aesSub (x : Byte) : Byte := BitVec.ofNat 8 (aesSboxTable >>> (8 * x.toNat))

/-- Multiplication by 2 in the AES field. -/
def aesDouble (x : Byte) : Byte := (x <<< 1) ^^^ (if x.msb then 0x1B#8 else 0)

/-- The next four words of the AES-128 key schedule from four, with round constant `rc`. -/
def aesNextKey (rc : Byte) (k : List Byte) : List Byte :=
  let g := fun i => k.getD i 0
  let w0 := [g 0 ^^^ aesSub (g 13) ^^^ rc, g 1 ^^^ aesSub (g 14), g 2 ^^^ aesSub (g 15), g 3 ^^^ aesSub (g 12)]
  let w1 := List.zipWith (· ^^^ ·) w0 [g 4, g 5, g 6, g 7]
  let w2 := List.zipWith (· ^^^ ·) w1 [g 8, g 9, g 10, g 11]
  let w3 := List.zipWith (· ^^^ ·) w2 [g 12, g 13, g 14, g 15]
  w0 ++ w1 ++ w2 ++ w3

/-- SubBytes then ShiftRows: byte `i` of the result comes from byte `5 i mod 16`. -/
def aesSubShift (b : List Byte) : List Byte :=
  (List.range 16).map fun i => aesSub (b.getD (5 * i % 16) 0)

/-- MixColumns on the columns of four bytes. -/
def aesMix : List Byte → List Byte
  | a :: b :: c :: d :: rest =>
    (aesDouble a ^^^ aesDouble b ^^^ b ^^^ c ^^^ d) :: (a ^^^ aesDouble b ^^^ aesDouble c ^^^ c ^^^ d) ::
    (a ^^^ b ^^^ aesDouble c ^^^ aesDouble d ^^^ d) :: (aesDouble a ^^^ a ^^^ b ^^^ c ^^^ aesDouble d) :: aesMix rest
  | _ => []

/-- The rounds with the round constants still to come; the last one has no MixColumns. -/
def aesRounds : List Byte → List Byte → List Byte → List Byte
  | [], _, b => b
  | [rc], k, b => List.zipWith (· ^^^ ·) (aesSubShift b) (aesNextKey rc k)
  | rc :: rcs, k, b =>
    aesRounds rcs (aesNextKey rc k) (List.zipWith (· ^^^ ·) (aesMix (aesSubShift b)) (aesNextKey rc k))

/-- AES-128 encryption of one block. -/
def aesEnc (k : List Byte) (b : Block) : Block :=
  let out := aesRounds [0x01, 0x02, 0x04, 0x08, 0x10, 0x20, 0x40, 0x80, 0x1B, 0x36] k
    (List.zipWith (· ^^^ ·) b.toList k)
  Vector.ofFn fun i : Fin 16 => out.getD i.val 0

/-! ### The failing stub (log 4) -/

/-- The strings on which a primitive of `refFail` fails. -/
def endsInFF (b : List Byte) : Bool := decide (b.getLast? = some 0xFF#8)

/-! ### The functions of an entry (R21) -/

/-- `bc_keysched` of an entry. -/
def bcKeysched (impl : Impl) (key : List Byte) : Option BulkKey :=
  match impl with
  | .ext n => Config.bcKeysched n key
  | .refToy => some ⟨key.take 16⟩
  | .refAes => some ⟨key.take 16⟩
  | .refFail => if endsInFF key then none else some ⟨key.take 16⟩

/-- `bc_enc` of an entry. -/
def bcEnc (impl : Impl) (k : BulkKey) (b : Block) : Option Block :=
  match impl with
  | .ext n => Config.bcEnc n k b
  | .refToy => some (toyEnc k.bytes b)
  | .refAes => some (aesEnc k.bytes b)
  | .refFail => if endsInFF b.toList then none else some (toyEnc k.bytes b)

/-- `ack_keysched` of an entry. -/
def ackKeysched (impl : Impl) (key : List Byte) : Option AckState :=
  match impl with
  | .ext n => Config.ackKeysched n key
  | .refToy => some ⟨key.take 16⟩
  | .refAes => some ⟨key.take 16⟩
  | .refFail => if endsInFF key then none else some ⟨key.take 16⟩

/-- `ack_stream` of an entry: the tag and the next ack keyed state. -/
def ackStream (impl : Impl) (k : AckState) (d : List Byte) : Option (List Byte × AckState) :=
  match impl with
  | .ext n => Config.ackStream n k d
  | .refToy => some (toyStream k.bytes d, k)
  | .refAes => some (toyStream k.bytes d, k)
  | .refFail => if endsInFF d then none else some (toyStream k.bytes d, k)

/-- `mac_keysched` of an entry. -/
def macKeysched (impl : Impl) (key : List Byte) : Option MacKey :=
  match impl with
  | .ext n => Config.macKeysched n key
  | .refToy => some ⟨key⟩
  | .refAes => some ⟨key⟩
  | .refFail => if endsInFF key then none else some ⟨key⟩

/-- `mac_fn` of an entry, a string of its native length. -/
def macFn (impl : Impl) (len : Nat) (k : MacKey) (iv : IvBytes) (msg : List Byte) : Option (Vector Byte len) :=
  match impl with
  | .ext n => Config.macFn n len k iv msg
  | .refToy => some (toyMac len k.bytes iv msg)
  | .refAes => some (toyMac len k.bytes iv msg)
  | .refFail => if endsInFF msg then none else some (toyMac len k.bytes iv msg)

end Sys2Proof.Machine
end

