-- ==== Sys2Proof/Machine/Authentication.lean ====
section
/-! DEFINITION. MAC and ACKTAG (spec/43_mac_acktag.md R120 to R126). -/

namespace Sys2Proof.Machine

/-- Entry `i` of the segment list at `segp`: pointer and length, two big-endian 64-bit numbers (R122). -/
def segmentEntry (m : List Host.Cell) (segp i : Nat) : Nat × Nat :=
  (beNat (memRead m (segp + 16 * i) 8), beNat (memRead m (segp + 16 * i + 8) 8))

/-- The segment list of `nseg` entries (R122). -/
def segmentList (m : List Host.Cell) (segp nseg : Nat) : List (Nat × Nat) :=
  (List.range nseg).map (segmentEntry m segp)

/-- Check the ranges of the segments "in order" (R124). -/
def checkSegments (s : State) : List (Nat × Nat) → Except Stop Unit
  | [] => .ok ()
  | (ptr, len) :: rest => do
    checkRange s ptr len
    checkSegments s rest

/-- "the concatenation of the given segments" (R122). -/
def segmentsMessage (m : List Host.Cell) (segs : List (Nat × Nat)) : List Byte :=
  segs.flatMap fun p => memRead m p.1 p.2

/-- The core that holds the MAC keyed state and runs the MAC: the context itself for family MAC, its Sub-Authenticator
for family SYM (R123). -/
def macOwner (x : Ctx) (S : Suite) : Option CtxCore :=
  match S.family with
  | .sym => x.sub
  | .mac => some x.toCtxCore

/-- "truncates/formats the result to a fixed 20-byte tag": its first 20 bytes (R123). -/
def macTag (full : List Byte) : List Byte := full.take Config.tagBytes

/-- `MAC c` (R124), with the capacity probe of R121. -/
def macWork (c : Nat) (s : State) : Except Stop State := do
  let x ← liveSlot s c
  let S ← suiteFor s x .mac
  if signed64 s.a[4] < 20 then
    return s.setA 4 20
  else
    let owner ← orRefuse (macOwner x S)
    let M ← orRefuse s.reg[owner.suite]?
    let mk ← orRaise owner.mac .notKeyed 1
    checkRange s (s.aNat 0) (16 * s.aNat 1)
    let segs := segmentList s.mem (s.aNat 0) (s.aNat 1)
    checkSegments s segs
    checkRange s (s.aNat 2) 8
    let full ← orRaise
      (macFn M.impl M.macNativeLen mk (ivOf (memRead s.mem (s.aNat 2) 8)) (segmentsMessage s.mem segs))
      .primitiveFail 4
    checkRange s (s.aNat 3) 20
    return (s.store (s.aNat 3) (macTag full.toList)).setA 4 20

/-- The command `MAC` (R124). -/
def execMac (c : Nat) (s : State) : Host.Outcome State Fault Refusal :=
  runCommand s (macWork c s)

/-- `RET <- |tag|` (R125): the length of the tag, which fits unless the tag has exactly 2^64 bytes; there RET gets a
free value. DESIGN CHOICE, safe (log 18). -/
def tagLengthWord (len : Nat) : Word := if len < 2 ^ 64 then BitVec.ofNat 64 len else Config.tagLengthTooLong len

/-- `ACKTAG c` (R125): the ack keyed state and the data alone enter the pass (R126). -/
def acktagWork (c : Nat) (s : State) : Except Stop State := do
  let x ← liveSlot s c
  let S ← suiteFor s x .acktag
  let a ← orRaise x.ack .notKeyed 2
  checkRange s (s.aNat 0) (s.aNat 1)
  let r ← orRaise (ackStream S.impl a (memRead s.mem (s.aNat 0) (s.aNat 1))) .primitiveFail 5
  checkRange s (s.aNat 2) r.1.length
  return ((s.store (s.aNat 2) r.1).setCtx c { x with ack := some r.2 }).setRet (tagLengthWord r.1.length)

/-- The command `ACKTAG` (R125). -/
def execAcktag (c : Nat) (s : State) : Host.Outcome State Fault Refusal :=
  runCommand s (acktagWork c s)

end Sys2Proof.Machine
end

