-- ==== Sys2Proof/Machine/Lifecycle.lean ====
section
/-! DEFINITION. INIT, SETKEY, SETKEYS, FINISH (spec/42_lifecycle.md R100 to R109). -/

namespace Sys2Proof.Machine

/-- `fresh(t)` of R101 without the `sub` field. -/
def freshCore (suite : Nat) : CtxCore :=
  { st := .uninit, suite := suite, bulk := none, ack := none, mac := none }

/-- The context INIT makes: a fresh one, with a fresh Sub-Authenticator when the suite names one (R101). -/
def freshCtx (n : Nat) (S : Suite) : Ctx :=
  { freshCore n with sub := S.macSuite.map freshCore }

/-- `INIT c` (R101). -/
def initWork (c : Nat) (s : State) : Except Stop State := do
  let x ← slotAt s c
  raiseIf (x.st.live = true) .badState x.st.code
  let n ← orRaise (findSuite s.reg s.a[0]) .unknownAlg s.a[0]
  let S ← orRefuse s.reg[n]?
  return s.setCtx c (freshCtx n S)

/-- The command `INIT` (R101). -/
def execInit (c : Nat) (s : State) : Host.Outcome State Fault Refusal :=
  runCommand s (initWork c s)

/-- The one key of SETKEY: read when it is long enough and exists (R102, R106). -/
def readKey (s : State) (addr len minLen : Nat) (which : Word) : Except Stop (List Byte) := do
  raiseIf (len < minLen) .invalidKeyLength which
  checkRange s addr len
  return memRead s.mem addr len

/-- `SETKEY c` (R102): the bulk key of a SYM context, the MAC key of a MAC context. -/
def setkeyWork (c : Nat) (s : State) : Except Stop State := do
  let x ← liveSlot s c
  let S ← suiteFor s x .setkey
  raiseIf (x.st ≠ .uninit) .badState x.st.code
  match S.family with
  | .sym =>
    let key ← readKey s (s.aNat 0) (s.aNat 1) Config.keyMinBytes 0
    let k ← orRaise (bcKeysched S.impl key) .primitiveFail 0
    return s.setCtx c { x with st := .keyed, bulk := some k }
  | .mac =>
    let key ← readKey s (s.aNat 0) (s.aNat 1) s.params.macKeyMinBytes 1
    let k ← orRaise (macKeysched S.impl key) .primitiveFail 1
    return s.setCtx c { x with st := .keyed, mac := some k }

/-- The command `SETKEY` (R102). -/
def execSetkey (c : Nat) (s : State) : Host.Outcome State Fault Refusal :=
  runCommand s (setkeyWork c s)

/-- `SETKEYS c` (R103): all lengths, then all ranges, then all key schedules, then all three keys at once. -/
def setkeysWork (c : Nat) (s : State) : Except Stop State := do
  let x ← liveSlot s c
  let S ← suiteFor s x .setkeys
  raiseIf (x.st = .active) .badState x.st.code
  let sub ← orRefuse x.sub
  let M ← orRefuse s.reg[sub.suite]?
  raiseIf (s.aNat 1 < Config.keyMinBytes) .invalidKeyLength 0
  raiseIf (s.aNat 3 < s.params.macKeyMinBytes) .invalidKeyLength 1
  raiseIf (s.aNat 5 < Config.keyMinBytes) .invalidKeyLength 2
  checkRange s (s.aNat 0) (s.aNat 1)
  checkRange s (s.aNat 2) (s.aNat 3)
  checkRange s (s.aNat 4) (s.aNat 5)
  let bk ← orRaise (bcKeysched S.impl (memRead s.mem (s.aNat 0) (s.aNat 1))) .primitiveFail 0
  let mk ← orRaise (macKeysched M.impl (memRead s.mem (s.aNat 2) (s.aNat 3))) .primitiveFail 1
  let ak ← orRaise (ackKeysched S.impl (memRead s.mem (s.aNat 4) (s.aNat 5))) .primitiveFail 2
  return s.setCtx c { x with
    st := .active, bulk := some bk, ack := some ak,
    sub := some { sub with st := .keyed, mac := some mk } }

/-- The command `SETKEYS` (R103). -/
def execSetkeys (c : Nat) (s : State) : Host.Outcome State Fault Refusal :=
  runCommand s (setkeysWork c s)

/-- A context after FINISH: every keyed state erased and the Sub-Authenticator, itself finished, released (R104). R104
does not write `suite`, and spec/93_implementation_defined.md section 1 lets it be any value while the slot is
`FINISHED`: that it keeps the old index is a DESIGN CHOICE, unsafe for a claim about that field (log 9). -/
def finishedCtx (x : Ctx) : Ctx :=
  { st := .finished, suite := x.suite, bulk := none, ack := none, mac := none, sub := none }

/-- `FINISH c` (R104): "no-op, not an error" on an absent or finished slot. -/
def finishWork (c : Nat) (s : State) : Except Stop State := do
  let x ← slotAt s c
  if x.st.live then return s.setCtx c (finishedCtx x) else return s

/-- The command `FINISH` (R104). -/
def execFinish (c : Nat) (s : State) : Host.Outcome State Fault Refusal :=
  runCommand s (finishWork c s)

end Sys2Proof.Machine
end

