-- ==== Sys2Proof/Machine/Registry.lean ====
section
/-! DEFINITION. LOOKUP, GETDESC, GETTYPE, NEXTIV (spec/44_registry.md R140 to R144). -/

namespace Sys2Proof.Machine

/-- `LOOKUP` (R140): the index, or all ones: "not found; not a fault". -/
def lookupWork (s : State) : Except Stop State :=
  match findSuite s.reg s.a[0] with
  | some n => .ok (s.setRet (BitVec.ofNat 64 n))
  | none => .ok (s.setRet (BitVec.allOnes 64))

/-- The command `LOOKUP` (R140). -/
def execLookup (s : State) : Host.Outcome State Fault Refusal :=
  runCommand s (lookupWork s)

/-- `GETDESC s` (R141): the identifier in network byte order, most significant byte first (PRESUMED by the spec
itself, log 14), and the hidden flag (R142). -/
def getdescWork (n : Nat) (s : State) : Except Stop State := do
  let S ← suiteAt s n
  checkRange s (s.aNat 0) 4
  return (s.store (s.aNat 0) (beBytes 4 S.id.toNat)).setNetconv

/-- The command `GETDESC` (R141). -/
def execGetdesc (n : Nat) (s : State) : Host.Outcome State Fault Refusal :=
  runCommand s (getdescWork n s)

/-- `GETTYPE s` (R143): 0 for SYM, 1 for MAC. -/
def gettypeWork (n : Nat) (s : State) : Except Stop State := do
  let S ← suiteAt s n
  return s.setRet (famNumber S.family)

/-- The command `GETTYPE` (R143). -/
def execGettype (n : Nat) (s : State) : Host.Outcome State Fault Refusal :=
  runCommand s (gettypeWork n s)

/-- `NEXTIV s` (R144): `A1` must be zero, and gets the negative sentinel. -/
def nextivWork (n : Nat) (s : State) : Except Stop State := do
  let _ ← suiteAt s n
  raiseIf (s.a[1] ≠ 0) .ivlenProtocol s.a[1]
  return s.setA 1 s.params.seqSentinel

/-- The command `NEXTIV` (R144). -/
def execNextiv (n : Nat) (s : State) : Host.Outcome State Fault Refusal :=
  runCommand s (nextivWork n s)

end Sys2Proof.Machine
end

