-- ==== Sys2Proof/Machine/Transform.lean ====
section
/-! DEFINITION. ENCRYPT and DECRYPT (spec/41_transform.md R80 to R92). -/

namespace Sys2Proof.Machine

/-- The direction flag of a transform (spec/30_encoding.md R61). -/
inductive Dir where
  | enc
  | dec
  deriving DecidableEq, Repr

/-- The keystream blocks `i`, `i + 1`, … of `n` blocks, concatenated; `none` as soon as the primitive fails (R84, R85). -/
def keystreamFrom (impl : Impl) (k : BulkKey) (stride : Stride) (ctr : Word) : Nat → Nat → Option (List Byte)
  | _, 0 => some []
  | i, n + 1 =>
    match bcEnc impl k (counterBlock (counterValue stride ctr i)) with
    | none => none
    | some kb =>
      match keystreamFrom impl k stride ctr (i + 1) n with
      | none => none
      | some rest => some (kb.toList ++ rest)

/-- XOR the keystream, from byte `rem` of the scratch buffer, into the span (R86). -/
def xorSpan (ks : List Byte) (rem : Nat) (span : List Byte) : List Byte :=
  List.zipWith (· ^^^ ·) span (ks.drop rem)

/-- The plaintext side of the XOR (R87). -/
def plainSide (dir : Dir) (old new : List Byte) : List Byte :=
  match dir with
  | .enc => old
  | .dec => new

/-- The sequence value at `addr` (R82; spec/20_memory.md R41 (a)). -/
def seqAt (s : State) (addr : Nat) : Word := BitVec.ofNat 64 (beNat (memRead s.mem addr 8))

/-- What ENCRYPT and DECRYPT share: the checks of R81 in order, then R82 to R88. -/
def transform (dir : Dir) (c : Nat) (acc : Fin 16) (s : State) : Except Stop State := do
  let x ← liveSlot s c
  let S ← suiteFor s x .xform
  let k ← orRaise x.bulk .notKeyed 0
  let ivp := s.aNat 0
  let dp := s.aNat 1
  let len := s.aNat 2
  raiseIf (len = 0) .zeroLen 0
  checkRange s ivp 8
  checkRange s dp len
  let seq := seqAt s ivp
  let rem := seqRem seq
  let nblk := blockCount rem len
  let ks ← orRaise (keystreamFrom S.impl k s.params.ctrStride (seqCtr seq) 0 nblk) .primitiveFail 3
  raiseIf (¬ (rem + len ≤ 16 * nblk ∧ 16 * nblk - (rem + len) < 16)) .sizing 0
  let old := memRead s.mem dp len
  let new := xorSpan ks rem old
  return (s.store dp new).setCsum acc (csumFold s.csum[acc] (plainSide dir old new))

/-- `ENCRYPT c, k` (R91): writes the span and `CSUM[k]`, nothing else. -/
def execEncrypt (c : Nat) (acc : Fin 16) (s : State) : Host.Outcome State Fault Refusal :=
  runCommand s (transform .enc c acc s)

/-- `DECRYPT c, k` (R92): as ENCRYPT, and `RET <- len`. -/
def decryptWork (c : Nat) (acc : Fin 16) (s : State) : Except Stop State := do
  let t ← transform .dec c acc s
  return t.setRet s.a[2]

/-- The command `DECRYPT` (R92). -/
def execDecrypt (c : Nat) (acc : Fin 16) (s : State) : Host.Outcome State Fault Refusal :=
  runCommand s (decryptWork c acc s)

end Sys2Proof.Machine
end

