-- ==== Sys2Proof/Machine/Dispatch.lean ====
section
/-! DEFINITION. The dispatcher: one arm per command (spec/30_encoding.md R64). -/

namespace Sys2Proof.Machine

def exec (i : Instr) (s : State) : Host.Outcome State Fault Refusal :=
  match i with
  -- transform (spec/41_transform.md)
  | .encrypt c acc => Sys2Proof.Machine.execEncrypt c acc s
  | .decrypt c acc => Sys2Proof.Machine.execDecrypt c acc s
  -- lifecycle (spec/42_lifecycle.md)
  | .init c => Sys2Proof.Machine.execInit c s
  | .setkey c => Sys2Proof.Machine.execSetkey c s
  | .setkeys c => Sys2Proof.Machine.execSetkeys c s
  | .finish c => Sys2Proof.Machine.execFinish c s
  -- authentication (spec/43_mac_acktag.md)
  | .mac c => Sys2Proof.Machine.execMac c s
  | .acktag c => Sys2Proof.Machine.execAcktag c s
  -- registry (spec/44_registry.md)
  | .lookup => Sys2Proof.Machine.execLookup s
  | .getdesc n => Sys2Proof.Machine.execGetdesc n s
  | .gettype n => Sys2Proof.Machine.execGettype n s
  | .nextiv n => Sys2Proof.Machine.execNextiv n s

end Sys2Proof.Machine
end

