-- ==== Sys2Proof/Machine/HostPort.lean ====
section
/-! DEFINITION. The host's side: the register block (spec/10_state.md R14, R15, R26, R27), host memory
(spec/20_memory.md R40), reset, and the pseudo-commands (spec/30_encoding.md R69). -/

namespace Sys2Proof.Machine

/-- The registers of the register block (R26). -/
inductive RegName where
  | cmd
  | status
  | ret
  | fault
  | faultCmd
  | faultInfo
  | a (i : Fin 8)
  | csum (i : Fin 16)
  | reserved
  deriving DecidableEq, Repr

/-- The register at a byte offset that is a multiple of 8 (R26). -/
def regAt (off : Nat) : RegName :=
  if off = 0x000 then .cmd
  else if off = 0x008 then .status
  else if off = 0x010 then .ret
  else if off = 0x018 then .fault
  else if off = 0x020 then .faultCmd
  else if off = 0x028 then .faultInfo
  else if off < 0x040 then .reserved
  else if off < 0x080 then .a (Fin.ofNat 8 ((off - 0x040) / 8))
  else if off < 0x100 then .csum (Fin.ofNat 16 ((off - 0x080) / 8))
  else .reserved

/-- What a host read of a register returns: "Bits of the read value above a register's width are 0" (R27). -/
def regValue (s : State) : RegName → Word
  | .cmd => s.cmd.setWidth 64
  | .status => if s.halt then 1 else 0
  | .ret => s.ret
  | .fault => s.fault.word
  | .faultCmd => s.faultCmd.setWidth 64
  | .faultInfo => s.faultInfo
  | .a i => s.a[i]
  | .csum i => s.csum[i].setWidth 64
  | .reserved => 0

/-- The command a write to CMD starts (R14): the word is stored, then decoded and run; a word that selects no row
raises `ILLEGAL_CMD` (spec/30_encoding.md R65). -/
def issue (w : CmdWord) (s : State) : Host.Outcome State Fault Refusal :=
  match decode w with
  | .ok i => exec i { s with cmd := w }
  | .error _ => .next (raise .illegalCmd 0 { s with cmd := w })

/-- A host write of `v` to a register: ignored while halted (R27, R162); bits above the register's width are ignored;
a write to a read-only or reserved register is ignored (R15, R26). -/
def regStore (r : RegName) (v : Word) (s : State) : Host.Outcome State Fault Refusal :=
  if s.halt then .next s
  else match r with
    | .cmd => issue (v.setWidth 32) s
    | .a i => .next (s.setA i v)
    | .csum i => .next (s.setCsum i (v.setWidth 16))
    | .status => .next s
    | .ret => .next s
    | .fault => .next s
    | .faultCmd => .next s
    | .faultInfo => .next s
    | .reserved => .next s

/-- "one whole 64-bit register at an offset that is a multiple of 8"; a model refuses any other access (R27). -/
def wholeRegister (off width : Nat) (k : RegName → Host.Outcome State Fault Refusal) : Host.Outcome State Fault Refusal :=
  if off % 8 ≠ 0 then .refused (.misalignedRegister off)
  else if width ≠ 8 then .refused (.narrowRegister width)
  else k (regAt off)

/-- The host stores bytes in host memory (R40); memory that does not exist stops the model (log 10). -/
def hostStore (addr : Nat) (b : List Byte) (s : State) : Host.Outcome State Fault Refusal :=
  if rangeValid s.memMap addr b.length then .next (s.store addr b) else .fault (.hostNoMemory addr)

/-- The host loads bytes from host memory (R40). -/
def hostLoad (addr n : Nat) (s : State) : Host.Outcome State Fault Refusal :=
  if rangeValid s.memMap addr n then .next { s with hostMem := memRead s.mem addr n }
  else .fault (.hostNoMemory addr)

/-- One action of the host. -/
def hostAct (act : HostAction) (s : State) : Host.Outcome State Fault Refusal :=
  match act with
  | .regWrite off width v => wholeRegister off width fun r => regStore r v s
  | .regRead off width => wholeRegister off width fun r => .next { s with hostReg := regValue s r }
  | .memWrite addr b => hostStore addr b s
  | .memRead addr n => hostLoad addr n s
  | .reset => .next (engineReset s)

/-- A configuration the spec gives meaning to (spec/44_registry.md R137; spec/00_scope.md R6: `N_CTX` is 1 to 256). -/
def configWf (s : State) : Bool :=
  regWf s.reg && s.params.wf && decide (1 ≤ s.ctx.length) && decide (s.ctx.length ≤ 256)

/-- One step of the machine: the host's next action, or nothing when it has none (spec/60_exceptions.md R177: "Between
commands it is idle and keeps all its state"); a configuration that is not well formed is refused (log 15). -/
def stepHost (s : State) : Host.Outcome State Fault Refusal :=
  if configWf s then
    match s.host with
    | [] => .next s
    | act :: rest => hostAct act { s with host := rest }
  else .refused .illFormedConfig

/-! ### Host scripts (spec/30_encoding.md R68, R69) -/

/-- `wr A<i>, v`. -/
def wrA (i : Fin 8) (v : Word) : HostAction := .regWrite (0x040 + 8 * i.val) 8 v

/-- `wr CSUM<i>, v`. -/
def wrCsum (i : Fin 16) (v : Word) : HostAction := .regWrite (0x080 + 8 * i.val) 8 v

/-- A command line: the host writes the command's word to CMD. -/
def command (i : Instr) : HostAction := .regWrite 0 8 ((encode i).setWidth 64)

/-- The script line of a command, in the syntax of R68. -/
def scriptLine : Instr → String
  | .encrypt c k => "encrypt c" ++ toString c ++ ", k" ++ toString k.val
  | .decrypt c k => "decrypt c" ++ toString c ++ ", k" ++ toString k.val
  | .init c => "init c" ++ toString c
  | .setkey c => "setkey c" ++ toString c
  | .setkeys c => "setkeys c" ++ toString c
  | .finish c => "finish c" ++ toString c
  | .mac c => "mac c" ++ toString c
  | .acktag c => "acktag c" ++ toString c
  | .lookup => "lookup"
  | .getdesc n => "getdesc s" ++ toString n
  | .gettype n => "gettype s" ++ toString n
  | .nextiv n => "nextiv s" ++ toString n

/-- `call.encrypt c, k, ivp, dp, len`. -/
def callEncrypt (c : Nat) (k : Fin 16) (ivp dp len : Word) : List HostAction :=
  [wrA 0 ivp, wrA 1 dp, wrA 2 len, command (.encrypt c k)]

/-- `call.decrypt c, k, ivp, dp, len`. -/
def callDecrypt (c : Nat) (k : Fin 16) (ivp dp len : Word) : List HostAction :=
  [wrA 0 ivp, wrA 1 dp, wrA 2 len, command (.decrypt c k)]

/-- `call.init c, id`. -/
def callInit (c : Nat) (id : Word) : List HostAction := [wrA 0 id, command (.init c)]

/-- `call.setkey c, kp, klen`. -/
def callSetkey (c : Nat) (kp klen : Word) : List HostAction := [wrA 0 kp, wrA 1 klen, command (.setkey c)]

/-- `call.setkeys c, bp, blen, mp, mlen, ap, alen`. -/
def callSetkeys (c : Nat) (bp blen mp mlen ap alen : Word) : List HostAction :=
  [wrA 0 bp, wrA 1 blen, wrA 2 mp, wrA 3 mlen, wrA 4 ap, wrA 5 alen, command (.setkeys c)]

/-- `call.mac c, segp, nseg, ivp, outp, cap`. -/
def callMac (c : Nat) (segp nseg ivp outp cap : Word) : List HostAction :=
  [wrA 0 segp, wrA 1 nseg, wrA 2 ivp, wrA 3 outp, wrA 4 cap, command (.mac c)]

/-- `call.acktag c, dp, dlen, outp`. -/
def callAcktag (c : Nat) (dp dlen outp : Word) : List HostAction :=
  [wrA 0 dp, wrA 1 dlen, wrA 2 outp, command (.acktag c)]

/-- `call.lookup id`. -/
def callLookup (id : Word) : List HostAction := [wrA 0 id, command .lookup]

/-- `call.getdesc s, outp`. -/
def callGetdesc (n : Nat) (outp : Word) : List HostAction := [wrA 0 outp, command (.getdesc n)]

/-- `call.nextiv s, outp`: the zero of `A1` is written each time (spec/70_reset_and_hazards.md R197). -/
def callNextiv (n : Nat) (outp : Word) : List HostAction := [wrA 0 outp, wrA 1 0, command (.nextiv n)]

end Sys2Proof.Machine
end

