-- ==== Sys2Proof/Machine/Step.lean ====
section
/-! DEFINITION. One step of the machine, and how a command word comes to be the next thing it runs. -/

namespace Sys2Proof.Machine

/-- One host action (spec/10_state.md R10, R12: "The order of commands is the order in which the host writes CMD"). -/
def step (s : State) : Host.Outcome State Fault Refusal := stepHost s

/-- `s` with a host write of the command word as its next action: there is no fetch (spec/20_memory.md R51), "the
command word comes from the data of the host's write to CMD" (log 1). -/
def State.withFetchWord (s : State) (nbits w : Nat) : State :=
  { s with host := .regWrite 0 8 (BitVec.ofNat 64 (w % 2 ^ nbits)) :: s.host }

end Sys2Proof.Machine
end

