-- ==== Sys2Proof/Safety.lean ====
section
/-! DEFINITION. What holds in every state a run reaches (spec/10_state.md R18), and what a good state is
(spec/60_exceptions.md R162). -/

namespace Sys2Proof.Machine

/-- The Sub-Authenticator of a SYM context (R18, R20): of the suite the parent's suite names, without bulk and ack
state, keyed exactly when the parent is Active. -/
def subWf (S : Suite) (keyed : Bool) (t : CtxCore) : Bool :=
  decide (S.macSuite = some t.suite) && t.bulk.isNone && t.ack.isNone &&
  (if keyed then decide (t.st = .keyed) && t.mac.isSome else decide (t.st = .uninit) && t.mac.isNone)

/-- The invariants of R18 for a live context of a SYM suite. -/
def symCtxWf (S : Suite) (x : Ctx) : Bool :=
  x.mac.isNone &&
  (match x.sub with
   | none => false
   | some t => subWf S (decide (x.st = .active)) t) &&
  decide (x.bulk.isSome = decide (x.st ≠ .uninit)) &&
  decide (x.ack.isSome = decide (x.st = .active))

/-- The invariants of R18 for a live context of a MAC suite. -/
def macCtxWf (x : Ctx) : Bool :=
  x.bulk.isNone && x.ack.isNone && x.sub.isNone && decide (x.st ≠ .active) &&
  decide (x.mac.isSome = decide (x.st = .keyed))

/-- No keyed state at all: what R18 says of `ABSENT` and `FINISHED`. -/
def noKeys (x : Ctx) : Bool := x.bulk.isNone && x.ack.isNone && x.mac.isNone && x.sub.isNone

/-- The invariants of R18 for one slot. -/
def ctxWf (reg : List Suite) (x : Ctx) : Bool :=
  if x.st.live then
    match reg[x.suite]? with
    | none => false
    | some S =>
      match S.family with
      | .sym => symCtxWf S x
      | .mac => macCtxWf x
  else noKeys x

/-- The invariant every step keeps. -/
structure State.Inv (s : State) : Prop where
  /-- The configuration is one the spec gives meaning to (R137). -/
  config : configWf s = true
  /-- Host memory is in canonical form. -/
  memCanonical : Memory.wf s.mem = true
  /-- Nothing is stored where no memory exists (R44). -/
  memExists : ∀ p ∈ s.mem, p.1 < Config.addrTop ∧ memValid s.memMap p.1 = true
  /-- Every context slot is as R18 says. -/
  contexts : ∀ x ∈ s.ctx, ctxWf s.reg x = true
  /-- `HALT` is set exactly when a fault is recorded (R15, R160). -/
  haltFault : s.halt = true ↔ s.fault ≠ .none
  /-- The fault registers are 0 until a fault happens (R28, R156: code 0 has `FAULT_INFO` 0). -/
  noFault : s.fault = .none → s.faultCmd = 0 ∧ s.faultInfo = 0
  /-- `SIZING` "is never raised" (spec/41_transform.md R90). -/
  noSizing : s.fault ≠ .sizing

/-- "a model treats HALT = 1 as gone wrong" (R162): the states a claim about a successful run ends in. -/
def State.good (s : State) : Bool := !s.halt

/-- The parts of the state that no step changes: the registry (R22), the parameters, the memory map, and the number
of context slots. -/
def State.sameConfig (s t : State) : Prop :=
  t.reg = s.reg ∧ t.params = s.params ∧ t.memMap = s.memMap ∧ t.ctx.length = s.ctx.length

end Sys2Proof.Machine
end

