-- ==== Sys2Proof/Certificates/Slice0/Obligations.lean ====
section
/-! DEFINITION. The statements for the provers: what the rules of spec/ say the commands, the register block and the
machine do. -/

namespace Sys2Proof.Machine

/-! ### Words used in the statements -/

/-- Fault entry written out (spec/60_exceptions.md R160): the four fault registers and nothing else. -/
def haltedWith (s : State) (code : FaultCode) (info : Word) : State :=
  { s with halt := true, fault := code, faultCmd := s.cmd, faultInfo := info }

/-- The table of spec/60_exceptions.md R156 as the value of the `FAULT` register, `CLASS` above `CODE`. -/
def faultTable : FaultCode → Nat
  | .none => 0x000
  | .illegalCmd => 0x301
  | .badSel => 0x302
  | .zeroLen => 0x103
  | .invalidKeyLength => 0x104
  | .notKeyed => 0x105
  | .badState => 0x106
  | .ivlenProtocol => 0x107
  | .primitiveFail => 0x208
  | .sizing => 0x109
  | .capAbsent => 0x30A
  | .bus => 0x30B
  | .unknownAlg => 0x30C

/-- Byte `j` of the span meets keystream byte `rem + j`: byte `(rem + j) mod 16` of block `(rem + j) div 16`
(spec/41_transform.md R86). -/
def spanKey (kb : Nat → Block) (rem j : Nat) : Byte := (kb ((rem + j) / 16)).toList.getD ((rem + j) % 16) 0

/-- Word `k` of a plaintext of `len` bytes: `p[2k] + 256 * p[2k+1]`, a trailing odd byte with a zero high byte (R88). -/
def csumWordAt (p : Nat → Byte) (len k : Nat) : CsumWord :=
  BitVec.ofNat 16 ((p (2 * k)).toNat + 256 * (if 2 * k + 1 < len then (p (2 * k + 1)).toNat else 0))

/-- The fold of R88 as its loop over word numbers. -/
def csumLoop (s : CsumWord) (p : Nat → Byte) (len : Nat) : CsumWord :=
  (List.range ((len + 1) / 2)).foldl (fun acc k => ocAdd acc (csumWordAt p len k)) s

/-- The sequence value of a transform: the IV at `A0`, most significant byte first (spec/20_memory.md R41 (a)). -/
def seqOf (s : State) : Nat := beNat (memRead s.mem s.a[0].toNat 8)

/-- The conditions under which a transform runs (R81), with the keyed state `k` of the context and the keystream blocks
`kb` the primitive gives for the counter values of R84. -/
def TransformReady (s : State) (c : Nat) (S : Suite) (k : BulkKey) (kb : Nat → Block) : Prop :=
  s.halt = false ∧ Memory.wf s.mem = true ∧
  (∃ x, s.ctx[c]? = some x ∧ (x.st = .keyed ∨ x.st = .active) ∧ s.reg[x.suite]? = some S ∧ x.bulk = some k) ∧
  S.caps.xform = true ∧ s.a[2] ≠ 0 ∧
  rangeValid s.memMap s.a[0].toNat 8 = true ∧ rangeValid s.memMap s.a[1].toNat s.a[2].toNat = true ∧
  ∀ n, n < (seqOf s % 16 + s.a[2].toNat + 15) / 16 →
    bcEnc S.impl k (counterBlock (BitVec.ofNat 64 (seqOf s / 16 * 16 + s.params.ctrStride.toNat * n))) = some (kb n)

/-- The codes the table of spec/60_exceptions.md R157 allows a command. -/
def faultsOf : Instr → List FaultCode
  | .encrypt _ _ | .decrypt _ _ => [.badSel, .badState, .capAbsent, .notKeyed, .zeroLen, .bus, .primitiveFail]
  | .init _ => [.badSel, .badState, .unknownAlg]
  | .setkey _ | .setkeys _ => [.badSel, .badState, .capAbsent, .invalidKeyLength, .bus, .primitiveFail]
  | .finish _ => [.badSel]
  | .mac _ | .acktag _ => [.badSel, .badState, .capAbsent, .notKeyed, .bus, .primitiveFail]
  | .lookup => []
  | .getdesc _ => [.badSel, .bus]
  | .gettype _ => [.badSel]
  | .nextiv _ => [.badSel, .ivlenProtocol]

/-- `|tag|` of an ACKTAG on slot `c` (spec/43_mac_acktag.md R125): the length of what the streaming pass gives, 0 where
there is no ack keyed state or the pass fails. -/
def ackTagLength (s : State) (c : Nat) : Nat :=
  match s.ctx[c]? with
  | none => 0
  | some x =>
    match s.reg[x.suite]?, x.ack with
    | some S, some a =>
      match ackStream S.impl a (memRead s.mem s.a[0].toNat s.a[1].toNat) with
      | none => 0
      | some r => r.1.length
    | _, _ => 0

/-- The range of host memory a command writes when it completes (spec/20_memory.md R53): base and length. -/
def writtenRange (s : State) : Instr → Nat × Nat
  | .encrypt _ _ | .decrypt _ _ => (s.a[1].toNat, s.a[2].toNat)
  | .mac _ => (s.a[3].toNat, 20)
  | .acktag c => (s.a[2].toNat, ackTagLength s c)
  | .getdesc _ => (s.a[0].toNat, 4)
  | .init _ | .setkey _ | .setkeys _ | .finish _ | .lookup | .gettype _ | .nextiv _ => (0, 0)

/-- The commands of formats X and C, which name a context slot. -/
def namesContext : Instr → Bool
  | .encrypt _ _ | .decrypt _ _ | .init _ | .setkey _ | .setkeys _ | .finish _ | .mac _ | .acktag _ => true
  | .lookup | .getdesc _ | .gettype _ | .nextiv _ => false

end Sys2Proof.Machine

open Sys2Proof Sys2Proof.Machine

/-! ### Encoding (spec/30_encoding.md) -/

/-- Decoding the word of a well-formed command gives the command back, with every operand (R63, R64, R68). -/
def Obligations.DecodeOfEncodeIsTheCommand : Prop :=
  ∀ i : Instr, i.wf = true → decode (encode i) = .ok i

/-- A word that decodes is the word of the command it decodes to: no bit of a legal word is dropped (R64, R65). -/
def Obligations.LegalWordIsReencoded : Prop :=
  ∀ (w : CmdWord) (i : Instr), decode w = .ok i → i.wf = true ∧ encode i = w

/-- Every word selects exactly one row, and decodes by it, or selects none, and is illegal (R64, R65). -/
def Obligations.WordSelectsOneRowOrIsIllegal : Prop :=
  ∀ w : CmdWord,
    (∃ r, rows.filter (fun q => decide (w &&& q.mask = q.mtch)) = [r] ∧ decode w = .ok (r.build w)) ∨
    ((∀ r ∈ rows, w &&& r.mask ≠ r.mtch) ∧ ∃ e, decode w = .error e)

/-- The illegal words in the words of R65: an `OPC` other than the eleven, a nonzero must-be-zero field, `DIR` or `ACC`
outside format X, `SEL` in format N. -/
def Obligations.IllegalWordsByTheirFields : Prop :=
  ∀ w : CmdWord,
    (∃ e, decode w = .error e) ↔
      (w.extractLsb' 0 8 ∉ [0x10#8, 0x20#8, 0x21#8, 0x22#8, 0x23#8, 0x30#8, 0x31#8, 0x40#8, 0x41#8, 0x42#8, 0x43#8] ∨
        w.extractLsb' 17 3 ≠ 0 ∨ w.extractLsb' 24 8 ≠ 0 ∨
        (w.extractLsb' 0 8 ≠ 0x10#8 ∧ (w.extractLsb' 16 1 ≠ 0 ∨ w.extractLsb' 20 4 ≠ 0)) ∨
        (w.extractLsb' 0 8 = 0x40#8 ∧ w.extractLsb' 8 8 ≠ 0))

/-- Words of spec/95_test_vectors.md ("Encoding") and of the match column of R64 decode to their commands. -/
def Obligations.WrittenOutWordsDecode : Prop :=
  decode 0x00200310#32 = .ok (.encrypt 3 2) ∧ decode 0x00210310#32 = .ok (.decrypt 3 2) ∧
  decode 0x00F1FF10#32 = .ok (.decrypt 255 15) ∧ decode 0x00000F20#32 = .ok (.init 15) ∧
  decode 0x00000321#32 = .ok (.setkey 3) ∧ decode 0x00000122#32 = .ok (.setkeys 1) ∧
  decode 0x00000523#32 = .ok (.finish 5) ∧ decode 0x00000030#32 = .ok (.mac 0) ∧
  decode 0x00000431#32 = .ok (.acktag 4) ∧ decode 0x00000040#32 = .ok .lookup ∧
  decode 0x00000141#32 = .ok (.getdesc 1) ∧ decode 0x00000242#32 = .ok (.gettype 2) ∧
  decode 0x00000143#32 = .ok (.nextiv 1)

/-! ### The step and the register block (spec/10_state.md R14, R26, R27; spec/60_exceptions.md R160, R162) -/

/-- When the host's next action writes a word that decodes to `i` to CMD of an engine that is not halted, the step is
`i` on the state with the word in CMD and the action taken (R14); and the state with the word placed by `withFetchWord`
runs it so. That the host is an agent with a list of actions is the model's form (log 1). -/
def Obligations.StepRunsTheDecodedCommand : Prop :=
  (∀ (s : State) (v : Word) (rest : List HostAction) (i : Instr),
    configWf s = true → s.halt = false → s.host = .regWrite 0 8 v :: rest → decode (v.setWidth 32) = .ok i →
    step s = exec i { s with host := rest, cmd := v.setWidth 32 }) ∧
  (∀ (s : State) (w : CmdWord) (i : Instr),
    configWf s = true → s.halt = false → decode w = .ok i →
    step (s.withFetchWord 32 w.toNat) = exec i { s with cmd := w })

/-- A CMD write of an illegal word halts with `ILLEGAL_CMD`, class 3, the word in `FAULT_CMD` and 0 in `FAULT_INFO`, and
does nothing else (R65, R156, R160). That CMD holds the faulting word afterwards is the model's deduction from R14: the
write stores the word before the command starts (log 17). -/
def Obligations.IllegalWordHaltsWithIllegalCmd : Prop :=
  ∀ (s : State) (v : Word) (rest : List HostAction) (e : Illegal),
    configWf s = true → s.halt = false → s.host = .regWrite 0 8 v :: rest → decode (v.setWidth 32) = .error e →
    ∃ t, step s = .next t ∧
      t = { s with host := rest, cmd := v.setWidth 32, halt := true, fault := .illegalCmd,
                   faultCmd := v.setWidth 32, faultInfo := 0 } ∧
      regValue t .fault = 0x301#64

/-- While halted every register write, of CMD too, is ignored, and every read works (R162). -/
def Obligations.HaltedEngineIgnoresWrites : Prop :=
  ∀ (s : State) (off : Nat) (v : Word) (rest : List HostAction),
    configWf s = true → s.halt = true → off % 8 = 0 →
    (s.host = .regWrite off 8 v :: rest → step s = .next { s with host := rest }) ∧
    (s.host = .regRead off 8 :: rest → step s = .next { s with host := rest, hostReg := regValue s (regAt off) })

/-- Halting is sticky: only reset leaves it, and the fault registers keep the first fault (R162, R163). -/
def Obligations.OnlyResetLeavesHalt : Prop :=
  ∀ s t : State, s.halt = true → (∀ rest, s.host ≠ .reset :: rest) → step s = .next t →
    t.halt = true ∧ t.fault = s.fault ∧ t.faultCmd = s.faultCmd ∧ t.faultInfo = s.faultInfo ∧ t.ctx = s.ctx ∧
      t.cmd = s.cmd ∧ t.ret = s.ret ∧ t.a = s.a ∧ t.csum = s.csum ∧ t.netconvDone = s.netconvDone

/-- Host writes to the register block other than CMD, by offset (R11, R15, R16, R26, R27): operand registers take the
whole value, accumulators bits 15:0, everything else ignores the write. -/
def Obligations.RegisterWritesFollowTheMap : Prop :=
  ∀ (s : State) (off : Nat) (v : Word) (rest : List HostAction),
    configWf s = true → s.halt = false → s.host = .regWrite off 8 v :: rest →
    (∀ i : Fin 8, off = 0x040 + 8 * i.val → step s = .next { s with host := rest, a := s.a.set i v }) ∧
    (∀ k : Fin 16, off = 0x080 + 8 * k.val →
      step s = .next { s with host := rest, csum := s.csum.set k (v.setWidth 16) }) ∧
    (off % 8 = 0 → (8 ≤ off ∧ off < 0x040 ∨ 0x100 ≤ off) → step s = .next { s with host := rest })

/-- Host reads of the register block, by offset (R14, R15, R26, R27): the value, zero-extended, and no side effect; FAULT
reads by the table of R156. -/
def Obligations.RegisterReadsFollowTheMap : Prop :=
  ∀ (s : State) (off : Nat) (rest : List HostAction),
    configWf s = true → s.host = .regRead off 8 :: rest → off % 8 = 0 →
    ∃ v, step s = .next { s with host := rest, hostReg := v } ∧
      (off = 0x000 → v.toNat = s.cmd.toNat) ∧
      (off = 0x008 → v.toNat = if s.halt then 1 else 0) ∧
      (off = 0x010 → v = s.ret) ∧
      (off = 0x018 → v.toNat = faultTable s.fault) ∧
      (off = 0x020 → v.toNat = s.faultCmd.toNat) ∧
      (off = 0x028 → v = s.faultInfo) ∧
      (off = 0x030 ∨ off = 0x038 ∨ 0x100 ≤ off → v = 0) ∧
      (∀ i : Fin 8, off = 0x040 + 8 * i.val → v = s.a[i]) ∧
      (∀ k : Fin 16, off = 0x080 + 8 * k.val → v.toNat = s.csum[k].toNat)

/-- An access at an offset that is not a multiple of 8, or not 64 bits wide, is refused. R27 says so of a misaligned and
of a narrower access; that a wider one is refused too, and that all are refused while the engine is halted as well, is
the model's deduction (log 11). -/
def Obligations.PartialRegisterAccessIsRefused : Prop :=
  ∀ (s : State) (off width : Nat) (v : Word) (rest : List HostAction),
    configWf s = true → (off % 8 ≠ 0 ∨ width ≠ 8) →
    (s.host = .regWrite off width v :: rest ∨ s.host = .regRead off width :: rest) →
    ∃ r, step s = .refused r

/-- The host stores and loads bytes of memory that exists, whether or not the engine is halted, and nothing else changes
(spec/20_memory.md R40, R43; that other addresses stop the model is the model's choice, log 10). -/
def Obligations.HostStoresAndLoadsBytes : Prop :=
  ∀ (s : State) (addr : Nat) (rest : List HostAction), configWf s = true → Memory.wf s.mem = true →
    (∀ b : List Byte, s.host = .memWrite addr b :: rest →
      (rangeValid s.memMap addr b.length = true →
        ∃ m, step s = .next { s with host := rest, mem := m } ∧
          ∀ a, memGet m a = if addr ≤ a ∧ a < addr + b.length then b.getD (a - addr) 0 else memGet s.mem a) ∧
      (rangeValid s.memMap addr b.length = false → step s = .fault (.hostNoMemory addr))) ∧
    (∀ n : Nat, s.host = .memRead addr n :: rest →
      (rangeValid s.memMap addr n = true →
        step s = .next { s with host := rest, hostMem := (List.range n).map fun j => memGet s.mem (addr + j) }) ∧
      (rangeValid s.memMap addr n = false → step s = .fault (.hostNoMemory addr)))

/-- Reset (R28, R185): every register 0, every slot ABSENT without keys, the hidden flag 0; the registry, the parameters
and host memory untouched. `suite` of an absent slot is 0 by the model's choice (log 9), and the host agent keeps its
own fields (log 16). -/
def Obligations.ResetClearsTheEngine : Prop :=
  ∀ (s : State) (rest : List HostAction), configWf s = true → s.host = .reset :: rest →
    ∃ t, step s = .next t ∧ t.cmd = 0 ∧ t.halt = false ∧ t.ret = 0 ∧ t.fault = .none ∧ t.faultCmd = 0 ∧
      t.faultInfo = 0 ∧ (∀ i : Fin 8, t.a[i] = 0) ∧ (∀ k : Fin 16, t.csum[k] = 0) ∧ t.netconvDone = false ∧
      t.ctx.length = s.ctx.length ∧ (∀ x ∈ t.ctx, x.st = .absent ∧ noKeys x = true) ∧
      t.reg = s.reg ∧ t.params = s.params ∧ t.memMap = s.memMap ∧ t.mem = s.mem ∧
      t.host = rest ∧ t.hostReg = s.hostReg ∧ t.hostMem = s.hostMem

/-- A host read returns no part of a context: two states that differ only in the context table read alike
(spec/10_state.md R19). -/
def Obligations.HostReadsSeeNoContext : Prop :=
  ∀ (s : State) (table : List Ctx) (off : Nat) (rest : List HostAction) (t t' : State),
    s.host = .regRead off 8 :: rest → step s = .next t → step { s with ctx := table } = .next t' →
    t'.hostReg = t.hostReg

/-! ### Invariants and whole-machine rules -/

/-- Every configuration the spec gives meaning to satisfies the invariant right after reset, with empty memory and any
pending host actions; so does `State.reset` (R18, R28). The empty memory, and the registry and memory map of
`State.reset`, are the model's choices (logs 5, 6, 7). -/
def Obligations.ResetSatisfiesTheInvariant : Prop :=
  State.reset.Inv ∧
  ∀ (nCtx : Nat) (reg : List Suite) (params : Params) (map : List Region) (host : List HostAction),
    regWf reg = true → params.wf = true → 1 ≤ nCtx → nCtx ≤ 256 →
    (State.resetWith nCtx reg params map [] host).Inv

/-- Every step keeps the invariant: the context table stays as R18 says, host memory stays canonical and within the
memory that exists, HALT goes with a recorded fault, SIZING is never recorded (R18, R44, R90, R160). The canonical form is
the model's, since it lists no byte that equals what an unlisted address reads as (log 6). -/
def Obligations.EveryStepKeepsTheInvariant : Prop :=
  ∀ s t : State, s.Inv → step s = .next t → t.Inv

/-- From a state with the invariant every command and every other legal host action answers a next state: no command
hangs and none is refused (R165). -/
def Obligations.LegalActionsAlwaysComplete : Prop :=
  ∀ s : State, s.Inv →
    (∀ off width v rest, s.host = .regWrite off width v :: rest → off % 8 = 0 ∧ width = 8) →
    (∀ off width rest, s.host = .regRead off width :: rest → off % 8 = 0 ∧ width = 8) →
    (∀ addr b rest, s.host = .memWrite addr b :: rest → rangeValid s.memMap addr b.length = true) →
    (∀ addr n rest, s.host = .memRead addr n :: rest → rangeValid s.memMap addr n = true) →
    ∃ t, step s = .next t

/-- No step writes the registry, the parameters, the memory map or the number of slots (R22, R135). -/
def Obligations.NoStepChangesTheConfiguration : Prop :=
  ∀ s t : State, step s = .next t → s.sameConfig t

/-- A configuration that is not well formed is refused. R137 says that a model checks once and refuses; that every step
checks is the model's choice, and that a reference entry's MAC must have native length 32 is the model's deduction from
D16 (log 15). -/
def Obligations.IllFormedConfigurationIsRefused : Prop :=
  ∀ s : State, configWf s = false → step s = .refused .illFormedConfig

/-- A fault is the entry of R160 and nothing else (R161): a command that faults leaves the state it found, but for the
four fault registers, with a code the table of R157 lists for it; and a step that halts the engine is a CMD write that
leaves, but for them, the state with the word in CMD and the action taken. That the faulting word stays in CMD is the
model's deduction from R14 (log 17). -/
def Obligations.FaultingCommandChangesOnlyFaultRegisters : Prop :=
  (∀ (i : Instr) (s t : State), s.halt = false → exec i s = .next t → t.halt = true →
    ∃ code info, code ∈ faultsOf i ∧ t = haltedWith s code info) ∧
  (∀ s t : State, s.halt = false → step s = .next t → t.halt = true →
    ∃ v rest code info, s.host = .regWrite 0 8 v :: rest ∧ code ≠ .none ∧
      t = haltedWith { s with host := rest, cmd := v.setWidth 32 } code info)

/-- A command on a halted engine changes nothing. The spec ignores the write to CMD there (R159 step 1, R162), so no
command starts; that `exec`, a total function, answers the state unchanged is the model's choice (log 17). -/
def Obligations.HaltedEngineRunsNoCommand : Prop :=
  ∀ (i : Instr) (s : State), s.halt = true → exec i s = .next s

/-- What no command writes: CMD, which a host write alone stores (R14), the registry (R22), the parameters
(spec/00_scope.md R6) and the memory map (spec/20_memory.md R40); and the hidden flag is only ever set, by GETDESC (R23,
R142). The host's own fields are the model's, and that no command writes them is its choice (logs 1, 2). -/
def Obligations.CommandsLeaveTheHostSide : Prop :=
  ∀ (i : Instr) (s t : State), exec i s = .next t →
    t.cmd = s.cmd ∧ t.reg = s.reg ∧ t.params = s.params ∧ t.memMap = s.memMap ∧ t.host = s.host ∧
    t.hostReg = s.hostReg ∧ t.hostMem = s.hostMem ∧
    (t.netconvDone ≠ s.netconvDone → t.netconvDone = true ∧ ∃ n, i = .getdesc n)

/-- "the only commands that write an operand register are MAC (writes A4) and NEXTIV (writes A1)" (R11). -/
def Obligations.OnlyMacAndNextivWriteOperands : Prop :=
  ∀ (i : Instr) (s t : State) (j : Fin 8), exec i s = .next t → t.a[j] ≠ s.a[j] →
    ((∃ c, i = .mac c) ∧ j = 4) ∨ ((∃ n, i = .nextiv n) ∧ j = 1)

/-- "the only commands that change an accumulator are ENCRYPT and DECRYPT, which fold plaintext words into the one
accumulator their ACC field names ... and change no other" (R16). -/
def Obligations.OnlyTransformsChangeTheirAccumulator : Prop :=
  ∀ (i : Instr) (s t : State) (k : Fin 16), exec i s = .next t → t.csum[k] ≠ s.csum[k] →
    ∃ c, i = .encrypt c k ∨ i = .decrypt c k

/-- RET "is written only by" DECRYPT, ACKTAG, LOOKUP and GETTYPE (R13). -/
def Obligations.OnlyFourCommandsWriteRet : Prop :=
  ∀ (i : Instr) (s t : State), exec i s = .next t → t.ret ≠ s.ret →
    (∃ c k, i = .decrypt c k) ∨ (∃ c, i = .acktag c) ∨ i = .lookup ∨ (∃ n, i = .gettype n)

/-- Every byte of host memory outside the range the table of R53 gives the command reads as before. -/
def Obligations.CommandsWriteOnlyTheirRange : Prop :=
  ∀ (i : Instr) (s t : State) (a : Nat), Memory.wf s.mem = true → exec i s = .next t →
    (a < (writtenRange s i).1 ∨ (writtenRange s i).1 + (writtenRange s i).2 ≤ a) →
    memGet t.mem a = memGet s.mem a

/-- The lifecycle of a slot (R100): `st` changes only along INIT from ABSENT or FINISHED to UNINIT, SETKEY from UNINIT to
KEYED, SETKEYS from UNINIT or KEYED to ACTIVE, FINISH from a live state to FINISHED, each on the slot the command names;
and only these commands and ACKTAG change the slot at all. -/
def Obligations.SlotsFollowTheLifecycle : Prop :=
  ∀ (i : Instr) (s t : State) (c : Nat) (x y : Ctx), exec i s = .next t → s.ctx[c]? = some x → t.ctx[c]? = some y →
    x ≠ y →
      (i = .init c ∧ (x.st = .absent ∨ x.st = .finished) ∧ y.st = .uninit) ∨
      (i = .setkey c ∧ x.st = .uninit ∧ y.st = .keyed) ∨
      (i = .setkeys c ∧ (x.st = .uninit ∨ x.st = .keyed) ∧ y.st = .active) ∨
      (i = .finish c ∧ (x.st = .uninit ∨ x.st = .keyed ∨ x.st = .active) ∧ y.st = .finished) ∨
      (i = .acktag c ∧ y = { x with ack := y.ack })

/-- "a command on one context never reads another context" (R138): a command gives the same result whatever the other
slots hold, and leaves them as they are; a command that names no context reads none. -/
def Obligations.CommandsReadNoOtherContext : Prop :=
  ∀ (i : Instr) (s t : State) (table : List Ctx),
    table.length = s.ctx.length → (namesContext i = true → table[i.sel]? = s.ctx[i.sel]?) → exec i s = .next t →
    ∃ table', exec i { s with ctx := table } = .next { t with ctx := table' } ∧
      (namesContext i = true → table'[i.sel]? = t.ctx[i.sel]?) ∧
      (∀ j, (namesContext i = true → j ≠ i.sel) → table'[j]? = table[j]? ∧ t.ctx[j]? = s.ctx[j]?)

/-! ### The transform (spec/41_transform.md) -/

/-- ENCRYPT completes: span byte `j` is XORed with keystream byte `rem + j`, the old span is folded into `CSUM[acc]`, and
nothing else changes (R82 to R88, R91). -/
def Obligations.EncryptXorsSpanAndFoldsInput : Prop :=
  ∀ (s : State) (c : Nat) (acc : Fin 16) (S : Suite) (k : BulkKey) (kb : Nat → Block),
    TransformReady s c S k kb →
    ∃ m, exec (.encrypt c acc) s = .next { s with
          mem := m
          csum := s.csum.set acc (csumLoop s.csum[acc] (fun j => memGet s.mem (s.a[1].toNat + j)) s.a[2].toNat) } ∧
      Memory.wf m = true ∧
      (∀ j, j < s.a[2].toNat →
        memGet m (s.a[1].toNat + j) = memGet s.mem (s.a[1].toNat + j) ^^^ spanKey kb (seqOf s % 16) j) ∧
      (∀ a, (a < s.a[1].toNat ∨ s.a[1].toNat + s.a[2].toNat ≤ a) → memGet m a = memGet s.mem a)

/-- DECRYPT completes: as ENCRYPT, with the new span folded and the length in RET (R87, R92). -/
def Obligations.DecryptXorsSpanFoldsOutputReturnsLength : Prop :=
  ∀ (s : State) (c : Nat) (acc : Fin 16) (S : Suite) (k : BulkKey) (kb : Nat → Block),
    TransformReady s c S k kb →
    ∃ m, exec (.decrypt c acc) s = .next { s with
          mem := m
          csum := s.csum.set acc (csumLoop s.csum[acc] (fun j => memGet m (s.a[1].toNat + j)) s.a[2].toNat)
          ret := s.a[2] } ∧
      Memory.wf m = true ∧
      (∀ j, j < s.a[2].toNat →
        memGet m (s.a[1].toNat + j) = memGet s.mem (s.a[1].toNat + j) ^^^ spanKey kb (seqOf s % 16) j) ∧
      (∀ a, (a < s.a[1].toNat ∨ s.a[1].toNat + s.a[2].toNat ≤ a) → memGet m a = memGet s.mem a)

/-- The checks of a transform in their order (R81, R85, R157): the first that fails is the fault reported. -/
def Obligations.TransformChecksInOrder : Prop :=
  ∀ (s : State) (c : Nat) (acc : Fin 16) (i : Instr), s.halt = false → (i = .encrypt c acc ∨ i = .decrypt c acc) →
    (s.ctx[c]? = none → exec i s = .next (haltedWith s .badSel (BitVec.ofNat 64 c))) ∧
    (∀ x, s.ctx[c]? = some x →
      (x.st = .absent → exec i s = .next (haltedWith s .badState 0)) ∧
      (x.st = .finished → exec i s = .next (haltedWith s .badState 4)) ∧
      (∀ S, (x.st = .uninit ∨ x.st = .keyed ∨ x.st = .active) → s.reg[x.suite]? = some S →
        (S.caps.xform = false → exec i s = .next (haltedWith s .capAbsent 0)) ∧
        (S.caps.xform = true → x.bulk = none → exec i s = .next (haltedWith s .notKeyed 0)) ∧
        (∀ k, S.caps.xform = true → x.bulk = some k →
          (s.a[2] = 0 → exec i s = .next (haltedWith s .zeroLen 0)) ∧
          (s.a[2] ≠ 0 → rangeValid s.memMap s.a[0].toNat 8 = false →
            exec i s = .next (haltedWith s .bus s.a[0])) ∧
          (s.a[2] ≠ 0 → rangeValid s.memMap s.a[0].toNat 8 = true →
            rangeValid s.memMap s.a[1].toNat s.a[2].toNat = false → exec i s = .next (haltedWith s .bus s.a[1])) ∧
          (s.a[2] ≠ 0 → rangeValid s.memMap s.a[0].toNat 8 = true →
            rangeValid s.memMap s.a[1].toNat s.a[2].toNat = true →
            (∃ n, n < (seqOf s % 16 + s.a[2].toNat + 15) / 16 ∧
              bcEnc S.impl k (counterBlock (BitVec.ofNat 64 (seqOf s / 16 * 16 + s.params.ctrStride.toNat * n))) =
                none) →
            exec i s = .next (haltedWith s .primitiveFail 3)))))

/-- Round trip (R93): after an ENCRYPT whose IV lies apart from the span, DECRYPT with the same operands restores host
memory and returns the length, whatever accumulators are named; so does a second ENCRYPT, which leaves RET alone. -/
def Obligations.DecryptUndoesEncrypt : Prop :=
  ∀ (s t : State) (c : Nat) (acc acc' : Fin 16), s.halt = false → Memory.wf s.mem = true →
    (s.a[0].toNat + 8 ≤ s.a[1].toNat ∨ s.a[1].toNat + s.a[2].toNat ≤ s.a[0].toNat) →
    exec (.encrypt c acc) s = .next t → t.halt = false →
    (∃ u, exec (.decrypt c acc') t = .next u ∧ u.halt = false ∧ u.mem = s.mem ∧ u.ret = s.a[2]) ∧
    (∃ v, exec (.encrypt c acc') t = .next v ∧ v.halt = false ∧ v.mem = s.mem ∧ v.ret = s.ret)

/-- "independent of direction" (R93): ENCRYPT of a plaintext and DECRYPT of the matching ciphertext fold the same string,
so from equal starting values they leave equal accumulators. -/
def Obligations.BothDirectionsFoldThePlaintext : Prop :=
  ∀ (s t u : State) (c : Nat) (acc acc' : Fin 16), s.halt = false → Memory.wf s.mem = true →
    (s.a[0].toNat + 8 ≤ s.a[1].toNat ∨ s.a[1].toNat + s.a[2].toNat ≤ s.a[0].toNat) →
    exec (.encrypt c acc) s = .next t → t.halt = false → t.csum[acc'] = s.csum[acc] →
    exec (.decrypt c acc') t = .next u →
    u.csum[acc'] = t.csum[acc]

/-- The counter block that covers byte `j` of a span at `seq`, and the one that covers it when the span is cut after `L`
bytes and continued at `seq + L` (R94): always equal under stride 16; under stride 1 equal exactly when the first part
ends inside the block it began in. The byte offsets inside the block agree. -/
def Obligations.CounterBlocksAgreeAcrossCuts : Prop :=
  ∀ (seq : Word) (L j : Nat), L ≤ j → L < 2 ^ 64 →
    (seqRem (seq + BitVec.ofNat 64 L) + (j - L)) % 16 = (seqRem seq + j) % 16 ∧
    counterValue .sixteen (seqCtr (seq + BitVec.ofNat 64 L)) ((seqRem (seq + BitVec.ofNat 64 L) + (j - L)) / 16) =
      counterValue .sixteen (seqCtr seq) ((seqRem seq + j) / 16) ∧
    (counterValue .one (seqCtr (seq + BitVec.ofNat 64 L)) ((seqRem (seq + BitVec.ofNat 64 L) + (j - L)) / 16) =
      counterValue .one (seqCtr seq) ((seqRem seq + j) / 16) ↔ seqRem seq + L < 16)

/-- Chunking on the machine (R94): ENCRYPT of `L1` bytes at `seq` and then of `L2` bytes at `seq + L1` leaves the span as
one ENCRYPT of `L1 + L2` bytes at `seq` does, always under stride 16 and under stride 1 when the first call ends inside
the block it began in. -/
def Obligations.ChunkedEncryptEqualsOneCall : Prop :=
  ∀ (s one first t1 second t2 : State) (c : Nat) (acc : Fin 16) (ivp2 : Word) (L1 L2 : Nat),
    s.halt = false → Memory.wf s.mem = true → 1 ≤ L1 → 1 ≤ L2 → L1 + L2 < 2 ^ 64 →
    (s.params.ctrStride = .sixteen ∨ seqOf s % 16 + L1 < 16) →
    exec (.encrypt c acc) (s.setA 2 (BitVec.ofNat 64 (L1 + L2))) = .next one → one.halt = false →
    first = s.setA 2 (BitVec.ofNat 64 L1) → exec (.encrypt c acc) first = .next t1 → t1.halt = false →
    second = ((t1.setA 0 ivp2).setA 1 (BitVec.ofNat 64 (s.a[1].toNat + L1))).setA 2 (BitVec.ofNat 64 L2) →
    seqOf second = (seqOf s + L1) % 2 ^ 64 →
    exec (.encrypt c acc) second = .next t2 → t2.halt = false →
    t2.mem = one.mem

/-- The sequence value splits into a multiple of 16 and a remainder below 16 (R82), and the block for counter value `i`
is the 16-byte big-endian form of `(ctr + stride * i) mod 2^64`: the high 8 bytes stay zero (R84). -/
def Obligations.CounterBlocksAreBigEndian : Prop :=
  (∀ seq : Word, (seqCtr seq).toNat = seq.toNat / 16 * 16 ∧ seqRem seq = seq.toNat % 16) ∧
  (∀ (stride : Stride) (ctr : Word) (i : Nat),
    beNat (counterBlock (counterValue stride ctr i)).toList = (ctr.toNat + stride.toNat * i) % 2 ^ 64)

/-- `BEbytes_n` and `BE_n` are inverse to each other (spec/00_scope.md R8). -/
def Obligations.BigEndianBytesRoundTrip : Prop :=
  (∀ n v : Nat, v < 256 ^ n → (beBytes n v).length = n ∧ beNat (beBytes n v) = v) ∧
  (∀ b : List Byte, beBytes b.length (beNat b) = b)

/-- The laws of ones'-complement addition (R89). -/
def Obligations.OcAddLaws : Prop :=
  (∀ s w : CsumWord, (ocAdd s w).toNat =
    if s.toNat + w.toNat ≤ 0xFFFF then s.toNat + w.toNat else s.toNat + w.toNat - 0xFFFF) ∧
  (∀ s w : CsumWord, ocAdd s w = ocAdd w s) ∧
  (∀ s w v : CsumWord, ocAdd (ocAdd s w) v = ocAdd s (ocAdd w v)) ∧
  (∀ s : CsumWord, ocAdd s 0 = s) ∧ (∀ w : CsumWord, ocAdd 0 w = w) ∧
  (∀ s w : CsumWord, ocAdd s w = 0 → s = 0 ∧ w = 0) ∧
  (∀ s : CsumWord, s ≠ 0 → ocAdd s 0xFFFF#16 = s) ∧ ocAdd 0 0xFFFF#16 = 0xFFFF#16 ∧
  (∀ s w : CsumWord, (ocAdd s w).toNat % 0xFFFF = (s.toNat + w.toNat) % 0xFFFF)

/-- Folding `P1` then `P2` is folding `P1 ++ P2` when `|P1|` is even (R95), and a span of zeros leaves the accumulator
alone (R91). -/
def Obligations.EvenCutsKeepTheChecksum : Prop :=
  (∀ (s : CsumWord) (p q : List Byte), p.length % 2 = 0 → csumFold s (p ++ q) = csumFold (csumFold s p) q) ∧
  (∀ (s : CsumWord) (n : Nat), csumFold s (List.replicate n 0) = s)

/-- The post-condition of a transform always holds under the block count of R83, so SIZING is never raised (R90). -/
def Obligations.SizingIsUnreachable : Prop :=
  (∀ rem len : Nat, 1 ≤ len →
    1 ≤ blockCount rem len ∧ rem + len ≤ 16 * blockCount rem len ∧ 16 * blockCount rem len - (rem + len) < 16) ∧
  (∀ (i : Instr) (s t : State), exec i s = .next t → t.fault = .sizing → s.fault = .sizing)

/-! ### Lifecycle (spec/42_lifecycle.md) -/

/-- INIT completes (R101): on an absent or finished slot, with the identifier of entry `n`, the slot holds a fresh context
of that suite, with a fresh Sub-Authenticator when the suite names one; nothing else changes. -/
def Obligations.InitMakesAFreshContext : Prop :=
  ∀ (s : State) (c n : Nat) (x : Ctx) (S : Suite), s.halt = false → regWf s.reg = true → s.ctx[c]? = some x →
    (x.st = .absent ∨ x.st = .finished) → s.reg[n]? = some S → s.a[0] = S.id.setWidth 64 →
    exec (.init c) s = .next { s with
      ctx := s.ctx.set c {
        st := .uninit, suite := n, bulk := none, ack := none, mac := none,
        sub := S.macSuite.map fun m => { st := .uninit, suite := m, bulk := none, ack := none, mac := none } } }

/-- The faults of INIT in their order (R101): selector, live slot, unknown identifier. -/
def Obligations.InitChecksInOrder : Prop :=
  ∀ (s : State) (c : Nat), s.halt = false →
    (s.ctx[c]? = none → exec (.init c) s = .next (haltedWith s .badSel (BitVec.ofNat 64 c))) ∧
    (∀ x, s.ctx[c]? = some x →
      (x.st = .uninit → exec (.init c) s = .next (haltedWith s .badState 1)) ∧
      (x.st = .keyed → exec (.init c) s = .next (haltedWith s .badState 2)) ∧
      (x.st = .active → exec (.init c) s = .next (haltedWith s .badState 3)) ∧
      ((x.st = .absent ∨ x.st = .finished) → (∀ S ∈ s.reg, S.id.setWidth 64 ≠ s.a[0]) →
        exec (.init c) s = .next (haltedWith s .unknownAlg s.a[0])))

/-- SETKEY completes (R102): on an uninitialised SYM context the bulk key, on a MAC context the MAC key, made from exactly
the bytes named; the context is KEYED and nothing else changes. -/
def Obligations.SetkeyInstallsOneKey : Prop :=
  ∀ (s : State) (c : Nat) (x : Ctx) (S : Suite), s.halt = false → s.ctx[c]? = some x → x.st = .uninit →
    s.reg[x.suite]? = some S → S.caps.setkey = true → rangeValid s.memMap s.a[0].toNat s.a[1].toNat = true →
    (∀ k, S.family = .sym → 16 ≤ s.a[1].toNat →
      bcKeysched S.impl ((List.range s.a[1].toNat).map fun j => memGet s.mem (s.a[0].toNat + j)) = some k →
      exec (.setkey c) s = .next { s with ctx := s.ctx.set c { x with st := .keyed, bulk := some k } }) ∧
    (∀ k, S.family = .mac → s.params.macKeyMinBytes ≤ s.a[1].toNat →
      macKeysched S.impl ((List.range s.a[1].toNat).map fun j => memGet s.mem (s.a[0].toNat + j)) = some k →
      exec (.setkey c) s = .next { s with ctx := s.ctx.set c { x with st := .keyed, mac := some k } })

/-- The faults of SETKEY in their order (R102, R106, R157). -/
def Obligations.SetkeyChecksInOrder : Prop :=
  ∀ (s : State) (c : Nat), s.halt = false →
    (s.ctx[c]? = none → exec (.setkey c) s = .next (haltedWith s .badSel (BitVec.ofNat 64 c))) ∧
    (∀ x, s.ctx[c]? = some x →
      (x.st = .absent → exec (.setkey c) s = .next (haltedWith s .badState 0)) ∧
      (x.st = .finished → exec (.setkey c) s = .next (haltedWith s .badState 4)) ∧
      (∀ S, (x.st = .uninit ∨ x.st = .keyed ∨ x.st = .active) → s.reg[x.suite]? = some S →
        (S.caps.setkey = false → exec (.setkey c) s = .next (haltedWith s .capAbsent 3)) ∧
        (S.caps.setkey = true →
          (x.st = .keyed → exec (.setkey c) s = .next (haltedWith s .badState 2)) ∧
          (x.st = .active → exec (.setkey c) s = .next (haltedWith s .badState 3)) ∧
          (x.st = .uninit → S.family = .sym → s.a[1].toNat < 16 →
            exec (.setkey c) s = .next (haltedWith s .invalidKeyLength 0)) ∧
          (x.st = .uninit → S.family = .mac → s.a[1].toNat < s.params.macKeyMinBytes →
            exec (.setkey c) s = .next (haltedWith s .invalidKeyLength 1)) ∧
          (x.st = .uninit → (S.family = .sym → 16 ≤ s.a[1].toNat) →
            (S.family = .mac → s.params.macKeyMinBytes ≤ s.a[1].toNat) →
            (rangeValid s.memMap s.a[0].toNat s.a[1].toNat = false →
              exec (.setkey c) s = .next (haltedWith s .bus s.a[0])) ∧
            (rangeValid s.memMap s.a[0].toNat s.a[1].toNat = true →
              (S.family = .sym → bcKeysched S.impl (memRead s.mem s.a[0].toNat s.a[1].toNat) = none →
                exec (.setkey c) s = .next (haltedWith s .primitiveFail 0)) ∧
              (S.family = .mac → macKeysched S.impl (memRead s.mem s.a[0].toNat s.a[1].toNat) = none →
                exec (.setkey c) s = .next (haltedWith s .primitiveFail 1)))))))

/-- SETKEYS completes (R103): from UNINIT or KEYED, with three long enough keys that exist, all three are installed at
once, the MAC key in the Sub-Authenticator; the context is ACTIVE and nothing else changes. -/
def Obligations.SetkeysInstallsThreeKeys : Prop :=
  ∀ (s : State) (c : Nat) (x : Ctx) (sub : CtxCore) (S M : Suite) (bk : BulkKey) (mk : MacKey) (ak : AckState),
    s.halt = false → s.ctx[c]? = some x → (x.st = .uninit ∨ x.st = .keyed) → s.reg[x.suite]? = some S →
    S.caps.setkeys = true → x.sub = some sub → s.reg[sub.suite]? = some M →
    16 ≤ s.a[1].toNat → s.params.macKeyMinBytes ≤ s.a[3].toNat → 16 ≤ s.a[5].toNat →
    rangeValid s.memMap s.a[0].toNat s.a[1].toNat = true → rangeValid s.memMap s.a[2].toNat s.a[3].toNat = true →
    rangeValid s.memMap s.a[4].toNat s.a[5].toNat = true →
    bcKeysched S.impl ((List.range s.a[1].toNat).map fun j => memGet s.mem (s.a[0].toNat + j)) = some bk →
    macKeysched M.impl ((List.range s.a[3].toNat).map fun j => memGet s.mem (s.a[2].toNat + j)) = some mk →
    ackKeysched S.impl ((List.range s.a[5].toNat).map fun j => memGet s.mem (s.a[4].toNat + j)) = some ak →
    exec (.setkeys c) s = .next { s with
      ctx := s.ctx.set c { x with
        st := .active, bulk := some bk, ack := some ak, sub := some { sub with st := .keyed, mac := some mk } } }

/-- The faults of SETKEYS in their order (R103, R105, R106, R157). -/
def Obligations.SetkeysChecksInOrder : Prop :=
  ∀ (s : State) (c : Nat), s.halt = false →
    (s.ctx[c]? = none → exec (.setkeys c) s = .next (haltedWith s .badSel (BitVec.ofNat 64 c))) ∧
    (∀ x, s.ctx[c]? = some x →
      (x.st = .absent → exec (.setkeys c) s = .next (haltedWith s .badState 0)) ∧
      (x.st = .finished → exec (.setkeys c) s = .next (haltedWith s .badState 4)) ∧
      (∀ S, (x.st = .uninit ∨ x.st = .keyed ∨ x.st = .active) → s.reg[x.suite]? = some S →
        (S.caps.setkeys = false → exec (.setkeys c) s = .next (haltedWith s .capAbsent 4)) ∧
        (S.caps.setkeys = true → x.st = .active → exec (.setkeys c) s = .next (haltedWith s .badState 3)) ∧
        (∀ sub M, S.caps.setkeys = true → x.st ≠ .active → x.sub = some sub → s.reg[sub.suite]? = some M →
          (s.a[1].toNat < 16 → exec (.setkeys c) s = .next (haltedWith s .invalidKeyLength 0)) ∧
          (16 ≤ s.a[1].toNat → s.a[3].toNat < s.params.macKeyMinBytes →
            exec (.setkeys c) s = .next (haltedWith s .invalidKeyLength 1)) ∧
          (16 ≤ s.a[1].toNat → s.params.macKeyMinBytes ≤ s.a[3].toNat → s.a[5].toNat < 16 →
            exec (.setkeys c) s = .next (haltedWith s .invalidKeyLength 2)) ∧
          (16 ≤ s.a[1].toNat → s.params.macKeyMinBytes ≤ s.a[3].toNat → 16 ≤ s.a[5].toNat →
            (rangeValid s.memMap s.a[0].toNat s.a[1].toNat = false →
              exec (.setkeys c) s = .next (haltedWith s .bus s.a[0])) ∧
            (rangeValid s.memMap s.a[0].toNat s.a[1].toNat = true →
              rangeValid s.memMap s.a[2].toNat s.a[3].toNat = false →
              exec (.setkeys c) s = .next (haltedWith s .bus s.a[2])) ∧
            (rangeValid s.memMap s.a[0].toNat s.a[1].toNat = true →
              rangeValid s.memMap s.a[2].toNat s.a[3].toNat = true →
              rangeValid s.memMap s.a[4].toNat s.a[5].toNat = false →
              exec (.setkeys c) s = .next (haltedWith s .bus s.a[4])) ∧
            (rangeValid s.memMap s.a[0].toNat s.a[1].toNat = true →
              rangeValid s.memMap s.a[2].toNat s.a[3].toNat = true →
              rangeValid s.memMap s.a[4].toNat s.a[5].toNat = true →
              (bcKeysched S.impl (memRead s.mem s.a[0].toNat s.a[1].toNat) = none →
                exec (.setkeys c) s = .next (haltedWith s .primitiveFail 0)) ∧
              (bcKeysched S.impl (memRead s.mem s.a[0].toNat s.a[1].toNat) ≠ none →
                macKeysched M.impl (memRead s.mem s.a[2].toNat s.a[3].toNat) = none →
                exec (.setkeys c) s = .next (haltedWith s .primitiveFail 1)) ∧
              (bcKeysched S.impl (memRead s.mem s.a[0].toNat s.a[1].toNat) ≠ none →
                macKeysched M.impl (memRead s.mem s.a[2].toNat s.a[3].toNat) ≠ none →
                ackKeysched S.impl (memRead s.mem s.a[4].toNat s.a[5].toNat) = none →
                exec (.setkeys c) s = .next (haltedWith s .primitiveFail 2)))))))

/-- FINISH (R104): a live context is finished and holds no keyed state; an absent or finished slot is left as it is; a
second FINISH changes nothing; the only fault is the selector. That the finished slot keeps its suite index is the model's
choice (log 9). -/
def Obligations.FinishErasesAndIsIdempotent : Prop :=
  ∀ (s : State) (c : Nat), s.halt = false →
    (s.ctx[c]? = none → exec (.finish c) s = .next (haltedWith s .badSel (BitVec.ofNat 64 c))) ∧
    (∀ x, s.ctx[c]? = some x →
      ((x.st = .absent ∨ x.st = .finished) → exec (.finish c) s = .next s) ∧
      ((x.st = .uninit ∨ x.st = .keyed ∨ x.st = .active) →
        exec (.finish c) s = .next { s with
          ctx := s.ctx.set c {
            st := .finished, suite := x.suite, bulk := none, ack := none, mac := none, sub := none } }) ∧
      (∀ t, exec (.finish c) s = .next t → exec (.finish c) t = .next t))

/-- "no key material may outlive this point" (R109): from a state with the invariant, after FINISH the slot it names
holds no keyed state, and after a reset no slot does. -/
def Obligations.NoKeyOutlivesFinishOrReset : Prop :=
  ∀ s : State, s.Inv →
    (∀ (c : Nat) (t : State) (y : Ctx), s.halt = false → exec (.finish c) s = .next t → t.ctx[c]? = some y →
      noKeys y = true) ∧
    (∀ (rest : List HostAction) (t : State), s.host = .reset :: rest → step s = .next t →
      ∀ y ∈ t.ctx, noKeys y = true)

/-! ### Authentication (spec/43_mac_acktag.md) -/

/-- The capacity probe (R121, R158): on a live context whose suite has MAC, a signed capacity below 20 is answered by 20
in `A4`, whatever keys are installed, and nothing else happens. -/
def Obligations.MacProbeAnswersTwenty : Prop :=
  ∀ (s : State) (c : Nat) (x : Ctx) (S : Suite), s.halt = false → s.ctx[c]? = some x →
    (x.st = .uninit ∨ x.st = .keyed ∨ x.st = .active) → s.reg[x.suite]? = some S → S.caps.mac = true →
    s.a[4].toInt < 20 → exec (.mac c) s = .next { s with a := s.a.set 4 20 }

/-- MAC completes (R122 to R124): with capacity at least 20 and a MAC key, the first 20 bytes of the MAC of the
concatenated segments under the IV are written at `A3`, `A4` is 20, and nothing else changes. `owner` is the context
itself for family MAC and its Sub-Authenticator for family SYM. -/
def Obligations.MacWritesTwentyByteTag : Prop :=
  ∀ (s : State) (c : Nat) (x : Ctx) (S M : Suite) (owner : CtxCore) (mk : MacKey) (segs : List (Nat × Nat))
    (iv : IvBytes) (full : Vector Byte M.macNativeLen),
    s.halt = false → Memory.wf s.mem = true → s.ctx[c]? = some x →
    (x.st = .uninit ∨ x.st = .keyed ∨ x.st = .active) → s.reg[x.suite]? = some S → S.caps.mac = true →
    20 ≤ s.a[4].toInt →
    ((S.family = .sym ∧ x.sub = some owner) ∨ (S.family = .mac ∧ owner = x.toCtxCore)) →
    s.reg[owner.suite]? = some M → 20 ≤ M.macNativeLen → owner.mac = some mk →
    rangeValid s.memMap s.a[0].toNat (16 * s.a[1].toNat) = true →
    segs.length = s.a[1].toNat →
    (∀ n, n < s.a[1].toNat → segs[n]? = some (beNat (memRead s.mem (s.a[0].toNat + 16 * n) 8),
      beNat (memRead s.mem (s.a[0].toNat + 16 * n + 8) 8))) →
    (∀ p ∈ segs, rangeValid s.memMap p.1 p.2 = true) →
    rangeValid s.memMap s.a[2].toNat 8 = true →
    (∀ j : Fin 8, iv[j] = memGet s.mem (s.a[2].toNat + j.val)) →
    macFn M.impl M.macNativeLen mk iv (segs.flatMap fun p => memRead s.mem p.1 p.2) = some full →
    rangeValid s.memMap s.a[3].toNat 20 = true →
    ∃ m, exec (.mac c) s = .next { s with mem := m, a := s.a.set 4 20 } ∧ Memory.wf m = true ∧
      (∀ j, j < 20 → memGet m (s.a[3].toNat + j) = full.toList.getD j 0) ∧
      (∀ a, (a < s.a[3].toNat ∨ s.a[3].toNat + 20 ≤ a) → memGet m a = memGet s.mem a)

/-- The faults of MAC in their order, after the probe (R124, R157). -/
def Obligations.MacChecksInOrder : Prop :=
  ∀ (s : State) (c : Nat), s.halt = false →
    (s.ctx[c]? = none → exec (.mac c) s = .next (haltedWith s .badSel (BitVec.ofNat 64 c))) ∧
    (∀ x, s.ctx[c]? = some x →
      (x.st = .absent → exec (.mac c) s = .next (haltedWith s .badState 0)) ∧
      (x.st = .finished → exec (.mac c) s = .next (haltedWith s .badState 4)) ∧
      (∀ S, (x.st = .uninit ∨ x.st = .keyed ∨ x.st = .active) → s.reg[x.suite]? = some S →
        (S.caps.mac = false → exec (.mac c) s = .next (haltedWith s .capAbsent 1)) ∧
        (∀ owner M, S.caps.mac = true → 20 ≤ s.a[4].toInt →
          ((S.family = .sym ∧ x.sub = some owner) ∨ (S.family = .mac ∧ owner = x.toCtxCore)) →
          s.reg[owner.suite]? = some M →
          (owner.mac = none → exec (.mac c) s = .next (haltedWith s .notKeyed 1)) ∧
          (∀ mk, owner.mac = some mk →
            (rangeValid s.memMap s.a[0].toNat (16 * s.a[1].toNat) = false →
              exec (.mac c) s = .next (haltedWith s .bus s.a[0])) ∧
            (∀ n, rangeValid s.memMap s.a[0].toNat (16 * s.a[1].toNat) = true → n < s.a[1].toNat →
              (∀ k, k < n → rangeValid s.memMap (segmentEntry s.mem s.a[0].toNat k).1
                (segmentEntry s.mem s.a[0].toNat k).2 = true) →
              rangeValid s.memMap (segmentEntry s.mem s.a[0].toNat n).1 (segmentEntry s.mem s.a[0].toNat n).2 = false →
              exec (.mac c) s =
                .next (haltedWith s .bus (BitVec.ofNat 64 (segmentEntry s.mem s.a[0].toNat n).1))) ∧
            (rangeValid s.memMap s.a[0].toNat (16 * s.a[1].toNat) = true →
              (∀ k, k < s.a[1].toNat → rangeValid s.memMap (segmentEntry s.mem s.a[0].toNat k).1
                (segmentEntry s.mem s.a[0].toNat k).2 = true) →
              (rangeValid s.memMap s.a[2].toNat 8 = false → exec (.mac c) s = .next (haltedWith s .bus s.a[2])) ∧
              (rangeValid s.memMap s.a[2].toNat 8 = true →
                (macFn M.impl M.macNativeLen mk (ivOf (memRead s.mem s.a[2].toNat 8))
                    (segmentsMessage s.mem (segmentList s.mem s.a[0].toNat s.a[1].toNat)) = none →
                  exec (.mac c) s = .next (haltedWith s .primitiveFail 4)) ∧
                (macFn M.impl M.macNativeLen mk (ivOf (memRead s.mem s.a[2].toNat 8))
                    (segmentsMessage s.mem (segmentList s.mem s.a[0].toNat s.a[1].toNat)) ≠ none →
                  rangeValid s.memMap s.a[3].toNat 20 = false →
                  exec (.mac c) s = .next (haltedWith s .bus s.a[3]))))))))

/-- "the tag depends on msg alone and not on where the cuts between segments fall" (R122): two computations on the same
context with equal IV bytes and equal concatenated segments write equal tags, wherever lists, segments and outputs lie. -/
def Obligations.MacTagIgnoresSegmentation : Prop :=
  ∀ (s s' t t' : State) (c : Nat), s.halt = false → s'.halt = false →
    Memory.wf s.mem = true → Memory.wf s'.mem = true → regWf s.reg = true →
    s'.ctx = s.ctx → s'.reg = s.reg → (∀ x ∈ s.ctx, ctxWf s.reg x = true) →
    20 ≤ s.a[4].toInt → 20 ≤ s'.a[4].toInt →
    memRead s'.mem s'.a[2].toNat 8 = memRead s.mem s.a[2].toNat 8 →
    segmentsMessage s'.mem (segmentList s'.mem s'.a[0].toNat s'.a[1].toNat) =
      segmentsMessage s.mem (segmentList s.mem s.a[0].toNat s.a[1].toNat) →
    exec (.mac c) s = .next t → t.halt = false → exec (.mac c) s' = .next t' → t'.halt = false →
    memRead t'.mem s'.a[3].toNat 20 = memRead t.mem s.a[3].toNat 20

/-- ACKTAG completes (R125): the tag the streaming pass gives for the data under the ack keyed state is written at `A2`,
its length goes to RET, the next keyed state to the context, and nothing else changes. What RET gets from a tag of 2^64
bytes, which does not fit, is a free value and not said (log 18). -/
def Obligations.AcktagWritesStreamTag : Prop :=
  ∀ (s : State) (c : Nat) (x : Ctx) (S : Suite) (a a' : AckState) (tag : List Byte),
    s.halt = false → Memory.wf s.mem = true → s.ctx[c]? = some x →
    (x.st = .uninit ∨ x.st = .keyed ∨ x.st = .active) → s.reg[x.suite]? = some S → S.caps.acktag = true →
    x.ack = some a → rangeValid s.memMap s.a[0].toNat s.a[1].toNat = true →
    ackStream S.impl a ((List.range s.a[1].toNat).map fun j => memGet s.mem (s.a[0].toNat + j)) = some (tag, a') →
    rangeValid s.memMap s.a[2].toNat tag.length = true →
    ∃ m r, exec (.acktag c) s = .next { s with mem := m, ret := r, ctx := s.ctx.set c { x with ack := some a' } } ∧
      (tag.length < 2 ^ 64 → r.toNat = tag.length) ∧ Memory.wf m = true ∧
      (∀ j, j < tag.length → memGet m (s.a[2].toNat + j) = tag.getD j 0) ∧
      (∀ b, (b < s.a[2].toNat ∨ s.a[2].toNat + tag.length ≤ b) → memGet m b = memGet s.mem b)

/-- The faults of ACKTAG in their order (R125, R157). -/
def Obligations.AcktagChecksInOrder : Prop :=
  ∀ (s : State) (c : Nat), s.halt = false →
    (s.ctx[c]? = none → exec (.acktag c) s = .next (haltedWith s .badSel (BitVec.ofNat 64 c))) ∧
    (∀ x, s.ctx[c]? = some x →
      (x.st = .absent → exec (.acktag c) s = .next (haltedWith s .badState 0)) ∧
      (x.st = .finished → exec (.acktag c) s = .next (haltedWith s .badState 4)) ∧
      (∀ S, (x.st = .uninit ∨ x.st = .keyed ∨ x.st = .active) → s.reg[x.suite]? = some S →
        (S.caps.acktag = false → exec (.acktag c) s = .next (haltedWith s .capAbsent 2)) ∧
        (S.caps.acktag = true → x.ack = none → exec (.acktag c) s = .next (haltedWith s .notKeyed 2)) ∧
        (∀ a, S.caps.acktag = true → x.ack = some a →
          (rangeValid s.memMap s.a[0].toNat s.a[1].toNat = false →
            exec (.acktag c) s = .next (haltedWith s .bus s.a[0])) ∧
          (rangeValid s.memMap s.a[0].toNat s.a[1].toNat = true →
            (ackStream S.impl a (memRead s.mem s.a[0].toNat s.a[1].toNat) = none →
              exec (.acktag c) s = .next (haltedWith s .primitiveFail 5)) ∧
            (∀ tag a', ackStream S.impl a (memRead s.mem s.a[0].toNat s.a[1].toNat) = some (tag, a') →
              rangeValid s.memMap s.a[2].toNat tag.length = false →
              exec (.acktag c) s = .next (haltedWith s .bus s.a[2]))))))

/-- "equal data under equal ack keyed state gives equal tags" (R126): what ACKTAG writes and returns depends on the
suite, the ack keyed state and the data alone: no IV, counter, sequence number or other key enters it. For a tag of 2^64
bytes, equal values in RET rest on the model's free value being a function of the length (log 18). -/
def Obligations.AcktagDependsOnKeyAndDataOnly : Prop :=
  ∀ (s s' t t' : State) (c c' : Nat) (x x' : Ctx), s.halt = false → s'.halt = false →
    Memory.wf s.mem = true → Memory.wf s'.mem = true →
    s.ctx[c]? = some x → s'.ctx[c']? = some x' → s'.reg[x'.suite]? = s.reg[x.suite]? → x'.ack = x.ack →
    memRead s'.mem s'.a[0].toNat s'.a[1].toNat = memRead s.mem s.a[0].toNat s.a[1].toNat →
    exec (.acktag c) s = .next t → t.halt = false → exec (.acktag c') s' = .next t' → t'.halt = false →
    t'.ret = t.ret ∧ memRead t'.mem s'.a[2].toNat t'.ret.toNat = memRead t.mem s.a[2].toNat t.ret.toNat

/-! ### Registry (spec/44_registry.md) -/

/-- LOOKUP completes (R140): the index of the entry whose identifier, zero-extended, is `A0`, or all ones; a value above
32 bits matches nothing; only RET changes. -/
def Obligations.LookupReturnsIndexOrAllOnes : Prop :=
  ∀ s : State, s.halt = false → regWf s.reg = true →
    (∀ (n : Nat) (S : Suite), s.reg[n]? = some S → S.id.setWidth 64 = s.a[0] →
      exec .lookup s = .next { s with ret := BitVec.ofNat 64 n }) ∧
    ((∀ S ∈ s.reg, S.id.setWidth 64 ≠ s.a[0]) → exec .lookup s = .next { s with ret := 0xFFFFFFFFFFFFFFFF#64 }) ∧
    (2 ^ 32 ≤ s.a[0].toNat → exec .lookup s = .next { s with ret := 0xFFFFFFFFFFFFFFFF#64 })

/-- GETDESC completes (R141, R142): the four identifier bytes, most significant first, at `A0`, and the hidden flag set;
nothing else changes; its faults are the selector, then the range. R141 writes `BEbytes_4(id)`; that this is network byte
order is PRESUMED, "from general knowledge, not in source" by spec/20_memory.md R41 (c) itself (log 14). -/
def Obligations.GetdescWritesIdentifier : Prop :=
  ∀ (s : State) (n : Nat), s.halt = false → Memory.wf s.mem = true →
    (s.reg[n]? = none → exec (.getdesc n) s = .next (haltedWith s .badSel (BitVec.ofNat 64 n))) ∧
    (∀ S, s.reg[n]? = some S →
      (rangeValid s.memMap s.a[0].toNat 4 = false → exec (.getdesc n) s = .next (haltedWith s .bus s.a[0])) ∧
      (rangeValid s.memMap s.a[0].toNat 4 = true →
        ∃ m, exec (.getdesc n) s = .next { s with mem := m, netconvDone := true } ∧ Memory.wf m = true ∧
          memGet m s.a[0].toNat = S.id.extractLsb' 24 8 ∧ memGet m (s.a[0].toNat + 1) = S.id.extractLsb' 16 8 ∧
          memGet m (s.a[0].toNat + 2) = S.id.extractLsb' 8 8 ∧ memGet m (s.a[0].toNat + 3) = S.id.extractLsb' 0 8 ∧
          (∀ a, (a < s.a[0].toNat ∨ s.a[0].toNat + 4 ≤ a) → memGet m a = memGet s.mem a)))

/-- GETTYPE completes (R143): 0 for family SYM and 1 for family MAC in RET; its only fault is the selector. -/
def Obligations.GettypeReturnsFamily : Prop :=
  ∀ (s : State) (n : Nat), s.halt = false →
    (s.reg[n]? = none → exec (.gettype n) s = .next (haltedWith s .badSel (BitVec.ofNat 64 n))) ∧
    (∀ S, s.reg[n]? = some S →
      (S.family = .sym → exec (.gettype n) s = .next { s with ret := 0 }) ∧
      (S.family = .mac → exec (.gettype n) s = .next { s with ret := 1 }))

/-- NEXTIV completes (R144): with `A1` zero the sentinel, which is negative in every configuration, goes to `A1`; a
nonzero `A1` is the fault `IVLEN_PROTOCOL` with the value found; a second NEXTIV without rewriting `A1` faults. -/
def Obligations.NextivSignalsSequentialMode : Prop :=
  ∀ (s : State) (n : Nat), s.halt = false →
    (s.reg[n]? = none → exec (.nextiv n) s = .next (haltedWith s .badSel (BitVec.ofNat 64 n))) ∧
    (∀ S, s.reg[n]? = some S →
      (s.a[1] ≠ 0 → exec (.nextiv n) s = .next (haltedWith s .ivlenProtocol s.a[1])) ∧
      (s.a[1] = 0 → s.params.wf = true →
        s.params.seqSentinel.toInt < 0 ∧
        exec (.nextiv n) s = .next { s with a := s.a.set 1 s.params.seqSentinel } ∧
        exec (.nextiv n) { s with a := s.a.set 1 s.params.seqSentinel } =
          .next (haltedWith { s with a := s.a.set 1 s.params.seqSentinel } .ivlenProtocol s.params.seqSentinel)))
end

