-- ==== Sys2Proof/Laws/Encoding.lean ====
section
/-! SUPPORT. The fields of an encoded command (spec/30_encoding.md R61, R68). -/

namespace Sys2Proof

set_option maxRecDepth 8000 in
/-- `SEL << 8` holds the selector in bits 15:8, and touches no bit of a mask of R62. -/
theorem selBits (c : Nat) (h : c < 256) :
    (BitVec.ofNat 32 c <<< 8).extractLsb' 8 8 = BitVec.ofNat 8 c ∧ (BitVec.ofNat 32 c <<< 8).extractLsb' 20 4 = 0 ∧
    (BitVec.ofNat 32 c <<< 8) &&& maskX = 0 ∧ (BitVec.ofNat 32 c <<< 8) &&& maskC = 0 := by
  have key : ∀ c : Fin 256, (BitVec.ofNat 32 c.val <<< 8).extractLsb' 8 8 = BitVec.ofNat 8 c.val ∧
      (BitVec.ofNat 32 c.val <<< 8).extractLsb' 20 4 = 0 ∧
      (BitVec.ofNat 32 c.val <<< 8) &&& maskX = 0 ∧ (BitVec.ofNat 32 c.val <<< 8) &&& maskC = 0 := by decide
  exact key ⟨c, h⟩

/-- `ACC << 20` holds the accumulator number in bits 23:20, and touches no bit of the mask of format X. -/
theorem accBits : ∀ k : Fin 16,
    (BitVec.ofNat 32 k.val <<< 20).extractLsb' 20 4 = BitVec.ofNat 4 k.val ∧
    (BitVec.ofNat 32 k.val <<< 20).extractLsb' 8 8 = 0 ∧ (BitVec.ofNat 32 k.val <<< 20) &&& maskX = 0 := by decide

theorem extractLsb'_or3 (a b c : CmdWord) (start len : Nat) :
    (a ||| b ||| c).extractLsb' start len = a.extractLsb' start len ||| b.extractLsb' start len ||| c.extractLsb' start len := by
  ext i hi
  simp

/-- The `SEL` field of an encoded command is its selector. -/
theorem selField_encode (i : Instr) (h : i.wf = true) : selField (encode i) = i.sel := by
  have hs : i.sel < 256 := by simpa [Instr.wf] using h
  have hm : i.matchWord.extractLsb' 8 8 = 0 := by
    cases i <;> (simp only [Instr.matchWord]; decide)
  unfold selField encode
  rw [extractLsb'_or3, hm, (selBits i.sel hs).1, (accBits i.acc).2.1]
  simp [Nat.mod_eq_of_lt hs]

/-- The `ACC` field of an encoded command is its accumulator number. -/
theorem accField_encode (i : Instr) (h : i.wf = true) : accField (encode i) = i.acc := by
  have hs : i.sel < 256 := by simpa [Instr.wf] using h
  have hm : i.matchWord.extractLsb' 20 4 = 0 := by
    cases i <;> (simp only [Instr.matchWord]; decide)
  unfold accField encode
  rw [extractLsb'_or3, hm, (selBits i.sel hs).2.1, (accBits i.acc).1]
  apply Fin.ext
  simp

/-- Under the mask of format X an encoded command is its row's match word under that mask. -/
theorem encode_and_maskX (i : Instr) (h : i.wf = true) : encode i &&& maskX = i.matchWord &&& maskX := by
  have hs : i.sel < 256 := by simpa [Instr.wf] using h
  have e : ∀ a b c m : CmdWord, (a ||| b ||| c) &&& m = (a &&& m) ||| (b &&& m) ||| (c &&& m) := by
    intro a b c m; ext j hj; simp [Bool.and_or_distrib_right]
  unfold encode
  rw [e, (selBits i.sel hs).2.2.1, (accBits i.acc).2.2]
  simp

/-- Under the mask of formats C and S too, for a command without an accumulator number. -/
theorem encode_and_maskC (i : Instr) (h : i.wf = true) (ha : i.acc = 0) : encode i &&& maskC = i.matchWord &&& maskC := by
  have hs : i.sel < 256 := by simpa [Instr.wf] using h
  have e : ∀ a b c m : CmdWord, (a ||| b ||| c) &&& m = (a &&& m) ||| (b &&& m) ||| (c &&& m) := by
    intro a b c m; ext j hj; simp [Bool.and_or_distrib_right]
  unfold encode
  rw [e, (selBits i.sel hs).2.2.2, ha]
  simp

/-! ### A word is its fields -/

/-- Two words are equal when their six fields are (R61). -/
theorem word_ext {w v : CmdWord} (h0 : w.extractLsb' 0 8 = v.extractLsb' 0 8) (h1 : w.extractLsb' 8 8 = v.extractLsb' 8 8)
    (h2 : w.extractLsb' 16 1 = v.extractLsb' 16 1) (h3 : w.extractLsb' 17 3 = v.extractLsb' 17 3)
    (h4 : w.extractLsb' 20 4 = v.extractLsb' 20 4) (h5 : w.extractLsb' 24 8 = v.extractLsb' 24 8) : w = v := by
  apply BitVec.eq_of_getLsbD_eq
  intro i hi
  have g : ∀ s n, w.extractLsb' s n = v.extractLsb' s n → s ≤ i → i < s + n → w.getLsbD i = v.getLsbD i := by
    intro s n h hs hn
    have := congrArg (fun x => x.getLsbD (i - s)) h
    simp only [BitVec.getLsbD_extractLsb', show i - s < n by omega, decide_true, Bool.true_and,
      Nat.add_sub_cancel' hs] at this
    exact this
  rcases (by omega : i < 8 ∨ (8 ≤ i ∧ i < 16) ∨ (16 ≤ i ∧ i < 17) ∨ (17 ≤ i ∧ i < 20) ∨ (20 ≤ i ∧ i < 24) ∨ 24 ≤ i)
    with h | h | h | h | h | h
  · exact g _ _ h0 (by omega) (by omega)
  · exact g _ _ h1 (by omega) (by omega)
  · exact g _ _ h2 (by omega) (by omega)
  · exact g _ _ h3 (by omega) (by omega)
  · exact g _ _ h4 (by omega) (by omega)
  · exact g _ _ h5 (by omega) (by omega)

/-- A mask compares a word field by field (R62, R64). -/
theorem and_eq_iff_fields (w v m : CmdWord) : w &&& m = v ↔
    (w.extractLsb' 0 8 &&& m.extractLsb' 0 8 = v.extractLsb' 0 8 ∧
     w.extractLsb' 8 8 &&& m.extractLsb' 8 8 = v.extractLsb' 8 8 ∧
     w.extractLsb' 16 1 &&& m.extractLsb' 16 1 = v.extractLsb' 16 1 ∧
     w.extractLsb' 17 3 &&& m.extractLsb' 17 3 = v.extractLsb' 17 3 ∧
     w.extractLsb' 20 4 &&& m.extractLsb' 20 4 = v.extractLsb' 20 4 ∧
     w.extractLsb' 24 8 &&& m.extractLsb' 24 8 = v.extractLsb' 24 8) := by
  have e : ∀ (a b : CmdWord) (s n : Nat), (a &&& b).extractLsb' s n = a.extractLsb' s n &&& b.extractLsb' s n := by
    intro a b s n; ext; simp
  constructor
  · rintro rfl; simp only [e, and_self]
  · rintro ⟨h0, h1, h2, h3, h4, h5⟩
    apply word_ext <;> rw [e] <;> assumption

/-- The decoder answers exactly what a row that selects the word builds: no word selects two rows (R64, R65). -/
theorem decode_eq_ok_iff (w : CmdWord) (i : Instr) :
    decode w = .ok i ↔ ∃ r ∈ rows, r.selects w = true ∧ r.build w = i := by
  unfold decode
  split
  · rename_i r hr
    have h1 := List.find?_some (p := fun r => Row.selects r w) hr
    have h2 := List.mem_of_find?_eq_some hr
    constructor
    · intro h; cases h; exact ⟨r, h2, h1, rfl⟩
    · rintro ⟨q, hq, hs, rfl⟩
      congr 1
      simp only [Row.selects, decide_eq_true_eq] at hs h1
      simp only [rows, List.mem_cons, List.not_mem_nil, or_false] at hq h2
      have key : q.mtch &&& r.mask = r.mtch &&& q.mask := by
        rw [← hs, ← h1, BitVec.and_assoc, BitVec.and_assoc, BitVec.and_comm q.mask]
      rcases hq with rfl | rfl | rfl | rfl | rfl | rfl | rfl | rfl | rfl | rfl | rfl | rfl <;>
      rcases h2 with rfl | rfl | rfl | rfl | rfl | rfl | rfl | rfl | rfl | rfl | rfl | rfl <;>
      first | rfl | (exfalso; revert key; decide)
  · rename_i hn
    simp only [List.find?_eq_none] at hn
    constructor
    · intro h; cases h
    · rintro ⟨q, hq, hs, rfl⟩; exact absurd hs (hn q hq)

/-- The decoder rejects exactly the words that no row selects (R65). -/
theorem decode_eq_error_iff (w : CmdWord) : (∃ e, decode w = .error e) ↔ ∀ r ∈ rows, r.selects w = false := by
  unfold decode
  split
  · rename_i r hr
    have h1 := List.find?_some (p := fun r => Row.selects r w) hr
    have h2 := List.mem_of_find?_eq_some hr
    simp only [reduceCtorEq, exists_false, false_iff]
    intro h
    rw [h r h2] at h1
    exact Bool.noConfusion h1
  · rename_i hn
    simpa [List.find?_eq_none] using hn

end Sys2Proof
end

