-- ==== Sys2Proof/Laws/State.lean ====
section
/-! SUPPORT. One lemma per field per update of State, so that no proof unfolds a record update. -/

namespace Sys2Proof.Machine

variable (s : State)

/-! ### `setA` -/

@[simp] theorem State.setA_cmd (i : Fin 8) (v : Word) : (s.setA i v).cmd = s.cmd := rfl
@[simp] theorem State.setA_halt (i : Fin 8) (v : Word) : (s.setA i v).halt = s.halt := rfl
@[simp] theorem State.setA_ret (i : Fin 8) (v : Word) : (s.setA i v).ret = s.ret := rfl
@[simp] theorem State.setA_fault (i : Fin 8) (v : Word) : (s.setA i v).fault = s.fault := rfl
@[simp] theorem State.setA_faultCmd (i : Fin 8) (v : Word) : (s.setA i v).faultCmd = s.faultCmd := rfl
@[simp] theorem State.setA_faultInfo (i : Fin 8) (v : Word) : (s.setA i v).faultInfo = s.faultInfo := rfl
@[simp] theorem State.setA_a (i : Fin 8) (v : Word) : (s.setA i v).a = s.a.set i v := rfl
@[simp] theorem State.setA_csum (i : Fin 8) (v : Word) : (s.setA i v).csum = s.csum := rfl
@[simp] theorem State.setA_ctx (i : Fin 8) (v : Word) : (s.setA i v).ctx = s.ctx := rfl
@[simp] theorem State.setA_netconvDone (i : Fin 8) (v : Word) : (s.setA i v).netconvDone = s.netconvDone := rfl
@[simp] theorem State.setA_reg (i : Fin 8) (v : Word) : (s.setA i v).reg = s.reg := rfl
@[simp] theorem State.setA_params (i : Fin 8) (v : Word) : (s.setA i v).params = s.params := rfl
@[simp] theorem State.setA_memMap (i : Fin 8) (v : Word) : (s.setA i v).memMap = s.memMap := rfl
@[simp] theorem State.setA_mem (i : Fin 8) (v : Word) : (s.setA i v).mem = s.mem := rfl
@[simp] theorem State.setA_host (i : Fin 8) (v : Word) : (s.setA i v).host = s.host := rfl
@[simp] theorem State.setA_hostReg (i : Fin 8) (v : Word) : (s.setA i v).hostReg = s.hostReg := rfl
@[simp] theorem State.setA_hostMem (i : Fin 8) (v : Word) : (s.setA i v).hostMem = s.hostMem := rfl

/-! ### `setRet` -/

@[simp] theorem State.setRet_cmd (v : Word) : (s.setRet v).cmd = s.cmd := rfl
@[simp] theorem State.setRet_halt (v : Word) : (s.setRet v).halt = s.halt := rfl
@[simp] theorem State.setRet_ret (v : Word) : (s.setRet v).ret = v := rfl
@[simp] theorem State.setRet_fault (v : Word) : (s.setRet v).fault = s.fault := rfl
@[simp] theorem State.setRet_faultCmd (v : Word) : (s.setRet v).faultCmd = s.faultCmd := rfl
@[simp] theorem State.setRet_faultInfo (v : Word) : (s.setRet v).faultInfo = s.faultInfo := rfl
@[simp] theorem State.setRet_a (v : Word) : (s.setRet v).a = s.a := rfl
@[simp] theorem State.setRet_csum (v : Word) : (s.setRet v).csum = s.csum := rfl
@[simp] theorem State.setRet_ctx (v : Word) : (s.setRet v).ctx = s.ctx := rfl
@[simp] theorem State.setRet_netconvDone (v : Word) : (s.setRet v).netconvDone = s.netconvDone := rfl
@[simp] theorem State.setRet_reg (v : Word) : (s.setRet v).reg = s.reg := rfl
@[simp] theorem State.setRet_params (v : Word) : (s.setRet v).params = s.params := rfl
@[simp] theorem State.setRet_memMap (v : Word) : (s.setRet v).memMap = s.memMap := rfl
@[simp] theorem State.setRet_mem (v : Word) : (s.setRet v).mem = s.mem := rfl
@[simp] theorem State.setRet_host (v : Word) : (s.setRet v).host = s.host := rfl
@[simp] theorem State.setRet_hostReg (v : Word) : (s.setRet v).hostReg = s.hostReg := rfl
@[simp] theorem State.setRet_hostMem (v : Word) : (s.setRet v).hostMem = s.hostMem := rfl

/-! ### `setCsum` -/

@[simp] theorem State.setCsum_cmd (k : Fin 16) (v : CsumWord) : (s.setCsum k v).cmd = s.cmd := rfl
@[simp] theorem State.setCsum_halt (k : Fin 16) (v : CsumWord) : (s.setCsum k v).halt = s.halt := rfl
@[simp] theorem State.setCsum_ret (k : Fin 16) (v : CsumWord) : (s.setCsum k v).ret = s.ret := rfl
@[simp] theorem State.setCsum_fault (k : Fin 16) (v : CsumWord) : (s.setCsum k v).fault = s.fault := rfl
@[simp] theorem State.setCsum_faultCmd (k : Fin 16) (v : CsumWord) : (s.setCsum k v).faultCmd = s.faultCmd := rfl
@[simp] theorem State.setCsum_faultInfo (k : Fin 16) (v : CsumWord) : (s.setCsum k v).faultInfo = s.faultInfo := rfl
@[simp] theorem State.setCsum_a (k : Fin 16) (v : CsumWord) : (s.setCsum k v).a = s.a := rfl
@[simp] theorem State.setCsum_csum (k : Fin 16) (v : CsumWord) : (s.setCsum k v).csum = s.csum.set k v := rfl
@[simp] theorem State.setCsum_ctx (k : Fin 16) (v : CsumWord) : (s.setCsum k v).ctx = s.ctx := rfl
@[simp] theorem State.setCsum_netconvDone (k : Fin 16) (v : CsumWord) : (s.setCsum k v).netconvDone = s.netconvDone := rfl
@[simp] theorem State.setCsum_reg (k : Fin 16) (v : CsumWord) : (s.setCsum k v).reg = s.reg := rfl
@[simp] theorem State.setCsum_params (k : Fin 16) (v : CsumWord) : (s.setCsum k v).params = s.params := rfl
@[simp] theorem State.setCsum_memMap (k : Fin 16) (v : CsumWord) : (s.setCsum k v).memMap = s.memMap := rfl
@[simp] theorem State.setCsum_mem (k : Fin 16) (v : CsumWord) : (s.setCsum k v).mem = s.mem := rfl
@[simp] theorem State.setCsum_host (k : Fin 16) (v : CsumWord) : (s.setCsum k v).host = s.host := rfl
@[simp] theorem State.setCsum_hostReg (k : Fin 16) (v : CsumWord) : (s.setCsum k v).hostReg = s.hostReg := rfl
@[simp] theorem State.setCsum_hostMem (k : Fin 16) (v : CsumWord) : (s.setCsum k v).hostMem = s.hostMem := rfl

/-! ### `setCtx` -/

@[simp] theorem State.setCtx_cmd (c : Nat) (x : Ctx) : (s.setCtx c x).cmd = s.cmd := rfl
@[simp] theorem State.setCtx_halt (c : Nat) (x : Ctx) : (s.setCtx c x).halt = s.halt := rfl
@[simp] theorem State.setCtx_ret (c : Nat) (x : Ctx) : (s.setCtx c x).ret = s.ret := rfl
@[simp] theorem State.setCtx_fault (c : Nat) (x : Ctx) : (s.setCtx c x).fault = s.fault := rfl
@[simp] theorem State.setCtx_faultCmd (c : Nat) (x : Ctx) : (s.setCtx c x).faultCmd = s.faultCmd := rfl
@[simp] theorem State.setCtx_faultInfo (c : Nat) (x : Ctx) : (s.setCtx c x).faultInfo = s.faultInfo := rfl
@[simp] theorem State.setCtx_a (c : Nat) (x : Ctx) : (s.setCtx c x).a = s.a := rfl
@[simp] theorem State.setCtx_csum (c : Nat) (x : Ctx) : (s.setCtx c x).csum = s.csum := rfl
@[simp] theorem State.setCtx_ctx (c : Nat) (x : Ctx) : (s.setCtx c x).ctx = s.ctx.set c x := rfl
@[simp] theorem State.setCtx_netconvDone (c : Nat) (x : Ctx) : (s.setCtx c x).netconvDone = s.netconvDone := rfl
@[simp] theorem State.setCtx_reg (c : Nat) (x : Ctx) : (s.setCtx c x).reg = s.reg := rfl
@[simp] theorem State.setCtx_params (c : Nat) (x : Ctx) : (s.setCtx c x).params = s.params := rfl
@[simp] theorem State.setCtx_memMap (c : Nat) (x : Ctx) : (s.setCtx c x).memMap = s.memMap := rfl
@[simp] theorem State.setCtx_mem (c : Nat) (x : Ctx) : (s.setCtx c x).mem = s.mem := rfl
@[simp] theorem State.setCtx_host (c : Nat) (x : Ctx) : (s.setCtx c x).host = s.host := rfl
@[simp] theorem State.setCtx_hostReg (c : Nat) (x : Ctx) : (s.setCtx c x).hostReg = s.hostReg := rfl
@[simp] theorem State.setCtx_hostMem (c : Nat) (x : Ctx) : (s.setCtx c x).hostMem = s.hostMem := rfl

/-! ### `store` -/

@[simp] theorem State.store_cmd (addr : Nat) (b : List Byte) : (s.store addr b).cmd = s.cmd := rfl
@[simp] theorem State.store_halt (addr : Nat) (b : List Byte) : (s.store addr b).halt = s.halt := rfl
@[simp] theorem State.store_ret (addr : Nat) (b : List Byte) : (s.store addr b).ret = s.ret := rfl
@[simp] theorem State.store_fault (addr : Nat) (b : List Byte) : (s.store addr b).fault = s.fault := rfl
@[simp] theorem State.store_faultCmd (addr : Nat) (b : List Byte) : (s.store addr b).faultCmd = s.faultCmd := rfl
@[simp] theorem State.store_faultInfo (addr : Nat) (b : List Byte) : (s.store addr b).faultInfo = s.faultInfo := rfl
@[simp] theorem State.store_a (addr : Nat) (b : List Byte) : (s.store addr b).a = s.a := rfl
@[simp] theorem State.store_csum (addr : Nat) (b : List Byte) : (s.store addr b).csum = s.csum := rfl
@[simp] theorem State.store_ctx (addr : Nat) (b : List Byte) : (s.store addr b).ctx = s.ctx := rfl
@[simp] theorem State.store_netconvDone (addr : Nat) (b : List Byte) : (s.store addr b).netconvDone = s.netconvDone := rfl
@[simp] theorem State.store_reg (addr : Nat) (b : List Byte) : (s.store addr b).reg = s.reg := rfl
@[simp] theorem State.store_params (addr : Nat) (b : List Byte) : (s.store addr b).params = s.params := rfl
@[simp] theorem State.store_memMap (addr : Nat) (b : List Byte) : (s.store addr b).memMap = s.memMap := rfl
@[simp] theorem State.store_mem (addr : Nat) (b : List Byte) : (s.store addr b).mem = memWrite s.mem addr b := rfl
@[simp] theorem State.store_host (addr : Nat) (b : List Byte) : (s.store addr b).host = s.host := rfl
@[simp] theorem State.store_hostReg (addr : Nat) (b : List Byte) : (s.store addr b).hostReg = s.hostReg := rfl
@[simp] theorem State.store_hostMem (addr : Nat) (b : List Byte) : (s.store addr b).hostMem = s.hostMem := rfl

/-! ### `setNetconv` -/

@[simp] theorem State.setNetconv_cmd : (s.setNetconv).cmd = s.cmd := rfl
@[simp] theorem State.setNetconv_halt : (s.setNetconv).halt = s.halt := rfl
@[simp] theorem State.setNetconv_ret : (s.setNetconv).ret = s.ret := rfl
@[simp] theorem State.setNetconv_fault : (s.setNetconv).fault = s.fault := rfl
@[simp] theorem State.setNetconv_faultCmd : (s.setNetconv).faultCmd = s.faultCmd := rfl
@[simp] theorem State.setNetconv_faultInfo : (s.setNetconv).faultInfo = s.faultInfo := rfl
@[simp] theorem State.setNetconv_a : (s.setNetconv).a = s.a := rfl
@[simp] theorem State.setNetconv_csum : (s.setNetconv).csum = s.csum := rfl
@[simp] theorem State.setNetconv_ctx : (s.setNetconv).ctx = s.ctx := rfl
@[simp] theorem State.setNetconv_netconvDone : (s.setNetconv).netconvDone = true := rfl
@[simp] theorem State.setNetconv_reg : (s.setNetconv).reg = s.reg := rfl
@[simp] theorem State.setNetconv_params : (s.setNetconv).params = s.params := rfl
@[simp] theorem State.setNetconv_memMap : (s.setNetconv).memMap = s.memMap := rfl
@[simp] theorem State.setNetconv_mem : (s.setNetconv).mem = s.mem := rfl
@[simp] theorem State.setNetconv_host : (s.setNetconv).host = s.host := rfl
@[simp] theorem State.setNetconv_hostReg : (s.setNetconv).hostReg = s.hostReg := rfl
@[simp] theorem State.setNetconv_hostMem : (s.setNetconv).hostMem = s.hostMem := rfl

/-! ### `raise` -/

@[simp] theorem raise_cmd (code : FaultCode) (info : Word) : (raise code info s).cmd = s.cmd := rfl
@[simp] theorem raise_halt (code : FaultCode) (info : Word) : (raise code info s).halt = true := rfl
@[simp] theorem raise_ret (code : FaultCode) (info : Word) : (raise code info s).ret = s.ret := rfl
@[simp] theorem raise_fault (code : FaultCode) (info : Word) : (raise code info s).fault = code := rfl
@[simp] theorem raise_faultCmd (code : FaultCode) (info : Word) : (raise code info s).faultCmd = s.cmd := rfl
@[simp] theorem raise_faultInfo (code : FaultCode) (info : Word) : (raise code info s).faultInfo = info := rfl
@[simp] theorem raise_a (code : FaultCode) (info : Word) : (raise code info s).a = s.a := rfl
@[simp] theorem raise_csum (code : FaultCode) (info : Word) : (raise code info s).csum = s.csum := rfl
@[simp] theorem raise_ctx (code : FaultCode) (info : Word) : (raise code info s).ctx = s.ctx := rfl
@[simp] theorem raise_netconvDone (code : FaultCode) (info : Word) : (raise code info s).netconvDone = s.netconvDone := rfl
@[simp] theorem raise_reg (code : FaultCode) (info : Word) : (raise code info s).reg = s.reg := rfl
@[simp] theorem raise_params (code : FaultCode) (info : Word) : (raise code info s).params = s.params := rfl
@[simp] theorem raise_memMap (code : FaultCode) (info : Word) : (raise code info s).memMap = s.memMap := rfl
@[simp] theorem raise_mem (code : FaultCode) (info : Word) : (raise code info s).mem = s.mem := rfl
@[simp] theorem raise_host (code : FaultCode) (info : Word) : (raise code info s).host = s.host := rfl
@[simp] theorem raise_hostReg (code : FaultCode) (info : Word) : (raise code info s).hostReg = s.hostReg := rfl
@[simp] theorem raise_hostMem (code : FaultCode) (info : Word) : (raise code info s).hostMem = s.hostMem := rfl

/-! ### `engineReset` -/

@[simp] theorem engineReset_cmd : (engineReset s).cmd = 0 := rfl
@[simp] theorem engineReset_halt : (engineReset s).halt = false := rfl
@[simp] theorem engineReset_ret : (engineReset s).ret = 0 := rfl
@[simp] theorem engineReset_fault : (engineReset s).fault = .none := rfl
@[simp] theorem engineReset_faultCmd : (engineReset s).faultCmd = 0 := rfl
@[simp] theorem engineReset_faultInfo : (engineReset s).faultInfo = 0 := rfl
@[simp] theorem engineReset_a : (engineReset s).a = Vector.replicate 8 0 := rfl
@[simp] theorem engineReset_csum : (engineReset s).csum = Vector.replicate 16 0 := rfl
@[simp] theorem engineReset_ctx : (engineReset s).ctx = List.replicate s.ctx.length Ctx.absent := rfl
@[simp] theorem engineReset_netconvDone : (engineReset s).netconvDone = false := rfl
@[simp] theorem engineReset_reg : (engineReset s).reg = s.reg := rfl
@[simp] theorem engineReset_params : (engineReset s).params = s.params := rfl
@[simp] theorem engineReset_memMap : (engineReset s).memMap = s.memMap := rfl
@[simp] theorem engineReset_mem : (engineReset s).mem = s.mem := rfl
@[simp] theorem engineReset_host : (engineReset s).host = s.host := rfl
@[simp] theorem engineReset_hostReg : (engineReset s).hostReg = s.hostReg := rfl
@[simp] theorem engineReset_hostMem : (engineReset s).hostMem = s.hostMem := rfl

end Sys2Proof.Machine
end

