-- ==== Sys2Proof/Laws/Memory.lean ====
section
/-! SUPPORT. The laws of host memory: reads after writes, the canonical form, and the validity of ranges
(spec/20_memory.md R43, R44). -/

namespace Sys2Proof.Machine

/-! ### One byte -/

theorem memGet_of_lt {m : List Host.Cell} {lo a : Nat} (h : memWfFrom lo m = true) (ha : a < lo) :
    memGet m a = memDefault := by
  induction m generalizing lo with
  | nil => rfl
  | cons p m ih =>
    obtain ⟨k, v⟩ := p
    simp only [memWfFrom, Bool.and_eq_true, decide_eq_true_eq] at h
    have hk : k ≠ a := by omega
    simp only [memGet, hk, if_false]
    exact ih h.2 (by omega)

theorem memWfFrom_mono {m : List Host.Cell} {lo lo' : Nat} (h : memWfFrom lo m = true) (hl : lo' ≤ lo) :
    memWfFrom lo' m = true := by
  cases m with
  | nil => rfl
  | cons p m =>
    obtain ⟨k, v⟩ := p
    simp only [memWfFrom, Bool.and_eq_true, decide_eq_true_eq] at h ⊢
    exact ⟨⟨by omega, h.1.2⟩, h.2⟩

theorem memSet_wfFrom {m : List Host.Cell} {lo a : Nat} (b : Byte) (h : memWfFrom lo m = true) (ha : lo ≤ a) :
    memWfFrom lo (memSet m a b) = true := by
  induction m generalizing lo with
  | nil => by_cases hb : b = memDefault <;> simp [memSet, memWfFrom, hb, ha]
  | cons p m ih =>
    obtain ⟨k, v⟩ := p
    have h' := h
    simp only [memWfFrom, Bool.and_eq_true, decide_eq_true_eq] at h
    obtain ⟨⟨hlo, hv⟩, hm⟩ := h
    unfold memSet
    by_cases h1 : a < k
    · by_cases hb : b = memDefault
      · simpa [h1, hb] using h'
      · simp only [h1, hb, if_true, if_false, memWfFrom, Bool.and_eq_true, decide_eq_true_eq]
        exact ⟨⟨ha, hb⟩, ⟨by omega, hv⟩, hm⟩
    · by_cases h2 : a = k
      · by_cases hb : b = memDefault
        · simp only [h2, hb, if_true]
          simpa using memWfFrom_mono hm (by omega)
        · subst h2
          simp only [h1, hb, if_true, if_false, memWfFrom, Bool.and_eq_true, decide_eq_true_eq]
          exact ⟨⟨ha, hb⟩, hm⟩
      · simp only [h1, h2, if_false, memWfFrom, Bool.and_eq_true, decide_eq_true_eq]
        exact ⟨⟨hlo, hv⟩, ih hm (by omega)⟩

/-- Storing a byte keeps the canonical form. -/
theorem memSet_wf {m : List Host.Cell} (a : Nat) (b : Byte) (h : Memory.wf m = true) :
    Memory.wf (memSet m a b) = true :=
  memSet_wfFrom b h (Nat.zero_le a)

theorem memGet_memSet_from {m : List Host.Cell} {lo : Nat} (a a' : Nat) (b : Byte) (h : memWfFrom lo m = true) :
    memGet (memSet m a b) a' = if a' = a then b else memGet m a' := by
  induction m generalizing lo with
  | nil =>
    by_cases hb : b = memDefault <;> by_cases hh : a' = a <;> simp [memSet, memGet, hb, hh]
    intro h; exact absurd h.symm hh
  | cons p m ih =>
    obtain ⟨k, v⟩ := p
    simp only [memWfFrom, Bool.and_eq_true, decide_eq_true_eq] at h
    obtain ⟨⟨hlo, hv⟩, hm⟩ := h
    unfold memSet
    by_cases h1 : a < k
    · have low : memGet ((k, v) :: m) a = memDefault :=
        memGet_of_lt (lo := k) (by simp [memWfFrom, hv, hm]) h1
      by_cases hb : b = memDefault
      · simp only [h1, hb, if_true]
        by_cases hh : a' = a
        · simp [hh, low]
        · simp [hh]
      · simp only [h1, hb, if_true, if_false]
        by_cases hh : a' = a
        · simp [hh, memGet]
        · simp [hh, memGet, Ne.symm hh]
    · by_cases h2 : a = k
      · subst h2
        have low : memGet m a = memDefault := memGet_of_lt hm (by omega)
        by_cases hb : b = memDefault
        · by_cases hh : a' = a
          · simp [hh, hb, low]
          · simp [hh, hb, memGet, Ne.symm hh]
        · by_cases hh : a' = a
          · simp [hh, hb, memGet]
          · simp [hh, hb, memGet, Ne.symm hh]
      · simp only [h1, h2, if_false, memGet]
        rw [ih hm]
        by_cases hk : k = a'
        · have : a' ≠ a := by omega
          simp [hk, this]
        · simp [hk]

/-- A read after a one-byte write (R43: "a write followed by a read of the same address returns the written byte"). -/
theorem memGet_memSet {m : List Host.Cell} (a a' : Nat) (b : Byte) (h : Memory.wf m = true) :
    memGet (memSet m a b) a' = if a' = a then b else memGet m a' :=
  memGet_memSet_from a a' b h

/-! ### Many bytes -/

/-- `memWrite` keeps the canonical form. -/
theorem memWrite_wf {m : List Host.Cell} (addr : Nat) (b : List Byte) (h : Memory.wf m = true) :
    Memory.wf (memWrite m addr b) = true := by
  induction b generalizing m addr with
  | nil => exact h
  | cons x b ih => exact ih _ (memSet_wf addr x h)

/-- What one byte reads as after a write of a string: the string's byte inside the range, the old byte outside. -/
theorem memGet_memWrite {m : List Host.Cell} (addr : Nat) (b : List Byte) (a : Nat) (h : Memory.wf m = true) :
    memGet (memWrite m addr b) a =
      if addr ≤ a ∧ a < addr + b.length then b.getD (a - addr) 0 else memGet m a := by
  induction b generalizing m addr with
  | nil =>
    have : ¬ (addr ≤ a ∧ a < addr + 0) := by omega
    simp [memWrite]
  | cons x b ih =>
    rw [memWrite, ih _ (memSet_wf addr x h), memGet_memSet _ _ _ h]
    by_cases h1 : addr + 1 ≤ a ∧ a < addr + 1 + b.length
    · have h2 : addr ≤ a ∧ a < addr + (x :: b).length := by simp only [List.length_cons]; omega
      have e : a - addr = (a - (addr + 1)) + 1 := by omega
      rw [if_pos h1, if_pos h2, e, List.getD_cons_succ]
    · rw [if_neg h1]
      by_cases h3 : a = addr
      · simp [h3]
      · have h2 : ¬ (addr ≤ a ∧ a < addr + (x :: b).length) := by simp only [List.length_cons]; omega
        rw [if_neg h2, if_neg h3]

/-- A byte outside the written range reads as before. -/
theorem memGet_memWrite_outside {m : List Host.Cell} {addr a : Nat} {b : List Byte} (h : Memory.wf m = true)
    (ho : a < addr ∨ addr + b.length ≤ a) : memGet (memWrite m addr b) a = memGet m a := by
  rw [memGet_memWrite _ _ _ h, if_neg (by omega)]

@[simp] theorem memRead_length (m : List Host.Cell) (addr n : Nat) : (memRead m addr n).length = n := by
  simp [memRead]

@[simp] theorem memRead_getElem (m : List Host.Cell) (addr n j : Nat) (h : j < (memRead m addr n).length) :
    (memRead m addr n)[j] = memGet m (addr + j) := by
  simp [memRead]

/-- Reading back what was written gives it (R43). -/
theorem memRead_memWrite {m : List Host.Cell} (addr : Nat) (b : List Byte) (h : Memory.wf m = true) :
    memRead (memWrite m addr b) addr b.length = b := by
  apply List.ext_getElem (by simp)
  intro j h1 h2
  rw [memRead_getElem, memGet_memWrite _ _ _ h, if_pos (by omega)]
  simp [List.getD_eq_getElem?_getD, h2]

/-- A read from a range apart from the written one is unchanged. -/
theorem memRead_memWrite_apart {m : List Host.Cell} (addr addr' n : Nat) (b : List Byte) (h : Memory.wf m = true)
    (hd : addr' + n ≤ addr ∨ addr + b.length ≤ addr') :
    memRead (memWrite m addr b) addr' n = memRead m addr' n := by
  apply List.ext_getElem (by simp)
  intro j h1 h2
  rw [memRead_length] at h1
  rw [memRead_getElem, memRead_getElem, memGet_memWrite _ _ _ h, if_neg (by omega)]

/-- The addresses listed after a one-byte write were listed before, or are the written one. -/
theorem mem_memSet {m : List Host.Cell} {a : Nat} {b : Byte} {p : Host.Cell} (h : p ∈ memSet m a b) :
    p ∈ m ∨ p.1 = a := by
  induction m with
  | nil =>
    by_cases hb : b = memDefault
    · simp [memSet, hb] at h
    · simp [memSet, hb] at h; simp [h]
  | cons q m ih =>
    obtain ⟨k, v⟩ := q
    unfold memSet at h
    split at h
    · split at h
      · exact .inl h
      · rcases List.mem_cons.mp h with rfl | h
        · exact .inr rfl
        · exact .inl h
    · split at h
      · split at h
        · exact .inl (List.mem_cons_of_mem _ h)
        · rcases List.mem_cons.mp h with rfl | h
          · exact .inr rfl
          · exact .inl (List.mem_cons_of_mem _ h)
      · rcases List.mem_cons.mp h with rfl | h
        · exact .inl List.mem_cons_self
        · rcases ih h with h | h
          · exact .inl (List.mem_cons_of_mem _ h)
          · exact .inr h

/-- The addresses listed after a write were listed before, or lie in the written range. -/
theorem mem_memWrite {m : List Host.Cell} {addr : Nat} {b : List Byte} {p : Host.Cell} (h : p ∈ memWrite m addr b) :
    p ∈ m ∨ (addr ≤ p.1 ∧ p.1 < addr + b.length) := by
  induction b generalizing m addr with
  | nil => exact .inl h
  | cons x b ih =>
    rcases ih h with h | h
    · rcases mem_memSet h with h | h
      · exact .inl h
      · exact .inr (by simp only [List.length_cons]; omega)
    · exact .inr (by simp only [List.length_cons]; omega)

/-- Writing an old byte of the range back leaves what reads alike (R43). -/
theorem memWrite_memRead {m : List Host.Cell} (addr n : Nat) (b : List Byte) (h : Memory.wf m = true)
    (hn : b.length = n) (a : Nat) :
    memGet (memWrite (memWrite m addr b) addr (memRead m addr n)) a = memGet m a := by
  rw [memGet_memWrite _ _ _ (memWrite_wf _ _ h), memRead_length]
  split
  · rename_i ha
    have hj : a - addr < n := by omega
    rw [List.getD_eq_getElem?_getD, List.getElem?_eq_getElem (by rw [memRead_length]; exact hj), Option.getD_some,
      memRead_getElem, Nat.add_sub_cancel' ha.1]
  · exact memGet_memWrite_outside h (by omega)

/-! ### Canonical memories that read alike are equal -/

theorem memory_ext_from {m m' : List Host.Cell} {lo : Nat} (h : memWfFrom lo m = true) (h' : memWfFrom lo m' = true)
    (e : ∀ a, memGet m a = memGet m' a) : m = m' := by
  induction m generalizing m' lo with
  | nil =>
    cases m' with
    | nil => rfl
    | cons q m' =>
      obtain ⟨k, v⟩ := q
      simp only [memWfFrom, Bool.and_eq_true, decide_eq_true_eq] at h'
      exact absurd (by simpa [memGet] using (e k).symm) h'.1.2
  | cons p m ih =>
    obtain ⟨k, v⟩ := p
    simp only [memWfFrom, Bool.and_eq_true, decide_eq_true_eq] at h
    cases m' with
    | nil => exact absurd (by simpa [memGet] using e k) h.1.2
    | cons q m' =>
      obtain ⟨k', v'⟩ := q
      simp only [memWfFrom, Bool.and_eq_true, decide_eq_true_eq] at h'
      have hk : k = k' := by
        rcases Nat.lt_trichotomy k k' with hlt | heq | hgt
        · have := e k
          rw [memGet_of_lt (lo := k') (m := (k', v') :: m') (by simp [memWfFrom, h'.1.2, h'.2]) hlt] at this
          exact absurd (by simpa [memGet] using this) h.1.2
        · exact heq
        · have := e k'
          rw [memGet_of_lt (lo := k) (m := (k, v) :: m) (by simp [memWfFrom, h.1.2, h.2]) hgt] at this
          exact absurd (by simpa [memGet] using this.symm) h'.1.2
      subst hk
      have hv : v = v' := by simpa [memGet] using e k
      subst hv
      congr 1
      apply ih h.2 h'.2
      intro a
      by_cases ha : a < k + 1
      · rw [memGet_of_lt h.2 ha, memGet_of_lt h'.2 ha]
      · have := e a
        have hne : k ≠ a := by omega
        simpa [memGet, hne] using this

/-- Equal memories are equal data: canonical memories that read alike everywhere are the same list. -/
theorem memory_ext {m m' : List Host.Cell} (h : Memory.wf m = true) (h' : Memory.wf m' = true)
    (e : ∀ a, memGet m a = memGet m' a) : m = m' :=
  memory_ext_from h h' e

/-! ### Ranges (R44) -/

/-- `covered` decides what it says, for every list of regions. -/
theorem covered_iff (map : List Region) (lo hi : Nat) :
    covered map lo hi = true ↔ ∀ a, lo ≤ a → a < hi → memValid map a = true := by
  induction map generalizing lo hi with
  | nil =>
    simp only [covered, decide_eq_true_eq, memValid, List.any_nil]
    constructor
    · intro h a h1 h2; omega
    · intro h; by_contra hc; exact absurd (h lo (le_refl _) (by omega)) (by simp)
  | cons r rs ih =>
    simp only [covered, Bool.or_eq_true, decide_eq_true_eq, Bool.and_eq_true, ih]
    simp only [memValid, List.any_cons, Bool.or_eq_true, Bool.and_eq_true, decide_eq_true_eq]
    constructor
    · rintro (h | ⟨h1, h2⟩) a ha hb
      · omega
      · by_cases hr : r.base ≤ a ∧ a < r.base + r.size
        · exact .inl hr
        · right
          by_cases hlt : a < r.base
          · exact h1 a ha (by omega)
          · exact h2 a (by omega) hb
    · intro h
      by_cases hle : hi ≤ lo
      · exact .inl hle
      · right
        constructor
        · intro a ha hb
          rcases h a ha (by omega) with hr | hr
          · omega
          · exact hr
        · intro a ha hb
          rcases h a (by omega) hb with hr | hr
          · omega
          · exact hr

/-- R44 as it stands: a range is valid when it does not pass the top of the address space and every byte exists. -/
theorem rangeValid_iff (map : List Region) (addr n : Nat) :
    rangeValid map addr n = true ↔
      addr + n ≤ 2 ^ 64 ∧ ∀ a, addr ≤ a → a < addr + n → memValid map a = true := by
  simp only [rangeValid, Bool.and_eq_true, decide_eq_true_eq, covered_iff]

end Sys2Proof.Machine
end

