-- ==== Sys2Proof/Laws/Operands.lean ====
section
/-! SUPPORT. Numbers and bytes (spec/00_scope.md R8), the sequence value's parts and the counter block
(spec/41_transform.md R82, R84). -/

namespace Sys2Proof.Machine

theorem beNat_foldl (b : List Byte) (a : Nat) :
    b.foldl (fun acc x => acc * 256 + x.toNat) a = a * 256 ^ b.length + beNat b := by
  induction b generalizing a with
  | nil => simp [beNat]
  | cons x b ih =>
    simp only [List.foldl_cons, beNat, List.length_cons]
    rw [ih, ih]; ring

theorem beNat_cons (x : Byte) (b : List Byte) : beNat (x :: b) = x.toNat * 256 ^ b.length + beNat b := by
  show List.foldl _ _ b = _
  rw [beNat_foldl]; simp

/-- A big-endian number of `n` bytes is below `256^n`. -/
theorem beNat_lt (b : List Byte) : beNat b < 256 ^ b.length := by
  induction b with
  | nil => simp [beNat]
  | cons x b ih =>
    rw [beNat_cons, List.length_cons, pow_succ]
    have h1 := x.isLt
    have h2 : x.toNat * 256 ^ b.length ≤ 255 * 256 ^ b.length := Nat.mul_le_mul_right _ (by omega)
    omega

@[simp] theorem beBytes_length (n v : Nat) : (beBytes n v).length = n := by
  induction n with
  | zero => rfl
  | succ n ih => simp [beBytes, ih]

theorem beByte_toNat (v : Word) (i : Nat) : (beByte v i).toNat = v.toNat / 2 ^ (8 * (7 - i)) % 256 := by
  simp [beByte, BitVec.extractLsb'_toNat, Nat.shiftRight_eq_div_pow]

/-- The remainder of a sequence value is its residue by 16 (R82). -/
theorem seqRem_toNat (seq : Word) : seqRem seq = seq.toNat % 16 := by
  simp only [seqRem, BitVec.toNat_and]
  exact Nat.and_two_pow_sub_one_eq_mod seq.toNat 4

/-- The counter of a sequence value is the multiple of 16 below it (R82). -/
theorem seqCtr_toNat (seq : Word) : (seqCtr seq).toNat = seq.toNat / 16 * 16 := by
  have h : seqCtr seq = (seq >>> 4) <<< 4 := by
    apply BitVec.eq_of_getLsbD_eq
    intro i hi
    simp only [seqCtr, BitVec.getLsbD_and, BitVec.getLsbD_shiftLeft, BitVec.getLsbD_ushiftRight]
    have mask : ∀ i : Fin 64, (0xFFFFFFFFFFFFFFF0#64).getLsbD i.val = decide (4 ≤ i.val) := by decide
    rw [show (0xFFFFFFFFFFFFFFF0#64).getLsbD i = decide (4 ≤ i) from mask ⟨i, hi⟩]
    by_cases h4 : 4 ≤ i
    · simp [h4, hi, show ¬ i < 4 by omega, Nat.add_sub_cancel' h4]
    · simp [h4, show i < 4 by omega]
  rw [h]
  have := seq.isLt
  simp [BitVec.toNat_shiftLeft, BitVec.toNat_ushiftRight, Nat.shiftLeft_eq, Nat.shiftRight_eq_div_pow]
  omega

theorem counterValue_toNat (stride : Stride) (ctr : Word) (i : Nat) :
    (counterValue stride ctr i).toNat = (ctr.toNat + stride.toNat * i) % 2 ^ 64 := by
  simp [counterValue]

/-- A counter block is eight zero bytes, then the value's bytes, most significant first (R84). -/
theorem counterBlock_toList (v : Word) :
    (counterBlock v).toList = List.replicate 8 0 ++ (List.range 8).map (beByte v) := by
  simp only [counterBlock, Vector.toList_ofFn]
  simp [List.ofFn_succ, List.range_succ, List.replicate]

end Sys2Proof.Machine
end

