-- ==== Sys2Proof/Laws/Ops.lean ====
section
/-! SUPPORT. What each shared operation can do, said once: the checks of a command, the fault entry, and the working
part of each command that completes. -/

namespace Sys2Proof.Machine

/-! ### The checks -/

/-- Inversion of a sequence of checks: both parts succeed. -/
theorem bind_eq_ok {α β : Type} {x : Except Stop α} {f : α → Except Stop β} {b : β} :
    (x >>= f) = .ok b ↔ ∃ a, x = .ok a ∧ f a = .ok b := by
  cases x <;> simp [bind, Except.bind]

/-- Inversion of a sequence of checks: the first failing part decides. -/
theorem bind_eq_error {α β : Type} {x : Except Stop α} {f : α → Except Stop β} {e : Stop} :
    (x >>= f) = .error e ↔ x = .error e ∨ ∃ a, x = .ok a ∧ f a = .error e := by
  cases x <;> simp [bind, Except.bind]

@[simp] theorem ok_bind {α β : Type} (a : α) (f : α → Except Stop β) : ((.ok a : Except Stop α) >>= f) = f a := rfl
@[simp] theorem error_bind {α β : Type} (e : Stop) (f : α → Except Stop β) :
    ((.error e : Except Stop α) >>= f) = .error e := rfl
@[simp] theorem pure_eq_ok {α : Type} (a : α) : (pure a : Except Stop α) = .ok a := rfl

@[simp] theorem raiseIf_eq_ok {p : Prop} [Decidable p] {code : FaultCode} {info : Word} {u : Unit} :
    raiseIf p code info = .ok u ↔ ¬ p := by
  by_cases h : p <;> simp [raiseIf, h]

@[simp] theorem raiseIf_eq_error {p : Prop} [Decidable p] {code : FaultCode} {info : Word} {e : Stop} :
    raiseIf p code info = .error e ↔ p ∧ e = .trap code info := by
  by_cases h : p <;> simp [raiseIf, h, eq_comm]

@[simp] theorem orRaise_eq_ok {α : Type} {x : Option α} {code : FaultCode} {info : Word} {v : α} :
    orRaise x code info = .ok v ↔ x = some v := by
  cases x <;> simp [orRaise]

@[simp] theorem orRaise_eq_error {α : Type} {x : Option α} {code : FaultCode} {info : Word} {e : Stop} :
    orRaise x code info = .error e ↔ x = none ∧ e = .trap code info := by
  cases x <;> simp [orRaise, eq_comm]

@[simp] theorem orRefuse_eq_ok {α : Type} {x : Option α} {v : α} : orRefuse x = .ok v ↔ x = some v := by
  cases x <;> simp [orRefuse]

@[simp] theorem orRefuse_eq_error {α : Type} {x : Option α} {e : Stop} :
    orRefuse x = .error e ↔ x = none ∧ e = .refuse .illFormedConfig := by
  cases x <;> simp [orRefuse, eq_comm]

@[simp] theorem checkRange_eq_ok {s : State} {addr n : Nat} {u : Unit} :
    checkRange s addr n = .ok u ↔ rangeValid s.memMap addr n = true := by
  simp [checkRange]

@[simp] theorem checkRange_eq_error {s : State} {addr n : Nat} {e : Stop} :
    checkRange s addr n = .error e ↔
      rangeValid s.memMap addr n = false ∧ e = .trap .bus (BitVec.ofNat 64 addr) := by
  simp [checkRange]

@[simp] theorem slotAt_eq_ok {s : State} {c : Nat} {x : Ctx} : slotAt s c = .ok x ↔ s.ctx[c]? = some x := by
  simp [slotAt]

@[simp] theorem suiteAt_eq_ok {s : State} {n : Nat} {S : Suite} : suiteAt s n = .ok S ↔ s.reg[n]? = some S := by
  simp [suiteAt]

/-! The same checks as equations, for running a command forward. -/

theorem raiseIf_of {p : Prop} [Decidable p] (h : p) (code : FaultCode) (info : Word) :
    raiseIf p code info = .error (.trap code info) := if_pos h

theorem raiseIf_of_not {p : Prop} [Decidable p] (h : ¬ p) (code : FaultCode) (info : Word) :
    raiseIf p code info = .ok () := if_neg h

@[simp] theorem orRaise_none {α : Type} (code : FaultCode) (info : Word) :
    orRaise (none : Option α) code info = .error (.trap code info) := rfl

@[simp] theorem orRaise_some {α : Type} (v : α) (code : FaultCode) (info : Word) :
    orRaise (some v) code info = .ok v := rfl

@[simp] theorem orRefuse_some {α : Type} (v : α) : orRefuse (some v) = .ok v := rfl

theorem checkRange_of {s : State} {addr n : Nat} (h : rangeValid s.memMap addr n = true) :
    checkRange s addr n = .ok () := checkRange_eq_ok.mpr h

theorem checkRange_of_not {s : State} {addr n : Nat} (h : rangeValid s.memMap addr n = false) :
    checkRange s addr n = .error (.trap .bus (BitVec.ofNat 64 addr)) := checkRange_eq_error.mpr ⟨h, rfl⟩

theorem slotAt_none {s : State} {c : Nat} (h : s.ctx[c]? = none) :
    slotAt s c = .error (.trap .badSel (BitVec.ofNat 64 c)) := by simp [slotAt, h]

theorem suiteAt_none {s : State} {n : Nat} (h : s.reg[n]? = none) :
    suiteAt s n = .error (.trap .badSel (BitVec.ofNat 64 n)) := by simp [suiteAt, h]

theorem liveSlot_none {s : State} {c : Nat} (h : s.ctx[c]? = none) :
    liveSlot s c = .error (.trap .badSel (BitVec.ofNat 64 c)) := by simp [liveSlot, slotAt_none h]

theorem liveSlot_dead {s : State} {c : Nat} {x : Ctx} (h : s.ctx[c]? = some x) (hl : x.st.live = false) :
    liveSlot s c = .error (.trap .badState x.st.code) := by
  simp [liveSlot, slotAt, h, raiseIf_of hl]

theorem suiteFor_absent {s : State} {x : Ctx} {S : Suite} {k : Cap} (h : s.reg[x.suite]? = some S)
    (hk : S.caps.has k = false) : suiteFor s x k = .error (.trap .capAbsent (capNumber k)) := by
  simp [suiteFor, h, raiseIf_of hk]

/-- A live slot is found exactly when the selector is in range and the context exists (R159 steps 3 and 4). -/
@[simp] theorem liveSlot_eq_ok {s : State} {c : Nat} {x : Ctx} :
    liveSlot s c = .ok x ↔ s.ctx[c]? = some x ∧ x.st.live = true := by
  simp only [liveSlot, bind_eq_ok, slotAt_eq_ok, raiseIf_eq_ok, pure_eq_ok]
  constructor
  · rintro ⟨y, hy, -, hl, he⟩
    cases he
    exact ⟨hy, by simpa using hl⟩
  · rintro ⟨hx, hl⟩
    exact ⟨x, hx, (), by simp [hl], rfl⟩

/-- The dispatcher passes exactly when the suite has the capability (R138). -/
@[simp] theorem suiteFor_eq_ok {s : State} {x : Ctx} {k : Cap} {S : Suite} :
    suiteFor s x k = .ok S ↔ s.reg[x.suite]? = some S ∧ S.caps.has k = true := by
  simp only [suiteFor, bind_eq_ok, orRefuse_eq_ok, raiseIf_eq_ok, pure_eq_ok]
  constructor
  · rintro ⟨y, hy, -, hl, he⟩
    cases he
    exact ⟨hy, by simpa using hl⟩
  · rintro ⟨hx, hl⟩
    exact ⟨S, hx, (), by simp [hl], rfl⟩

/-- A key is read exactly when it is long enough and exists (R102, R106). -/
@[simp] theorem readKey_eq_ok {s : State} {addr len minLen : Nat} {which : Word} {key : List Byte} :
    readKey s addr len minLen which = .ok key ↔
      minLen ≤ len ∧ rangeValid s.memMap addr len = true ∧ key = memRead s.mem addr len := by
  simp only [readKey, bind_eq_ok, raiseIf_eq_ok, checkRange_eq_ok, pure_eq_ok, Except.ok.injEq, not_lt]
  constructor
  · rintro ⟨-, h1, -, h2, h3⟩; exact ⟨h1, h2, h3.symm⟩
  · rintro ⟨h1, h2, h3⟩; exact ⟨(), h1, (), h2, h3.symm⟩

/-- The segments pass exactly when each of them is valid (R124). -/
theorem checkSegments_eq_ok {s : State} {segs : List (Nat × Nat)} {u : Unit} :
    checkSegments s segs = .ok u ↔ ∀ p ∈ segs, rangeValid s.memMap p.1 p.2 = true := by
  induction segs with
  | nil => simp [checkSegments]
  | cons p segs ih =>
    obtain ⟨ptr, len⟩ := p
    simp [checkSegments, bind_eq_ok, ih]

/-! ### The fault entry (R160) and what a command comes to -/

/-- What a next state of a command is: the same state while halted, the fault entry, or the completed work. -/
theorem runCommand_cases {s t : State} {w : Except Stop State} (h : runCommand s w = .next t) :
    (s.halt = true ∧ t = s) ∨
    (s.halt = false ∧ ∃ code info, w = .error (.trap code info) ∧ t = raise code info s) ∨
    (s.halt = false ∧ w = .ok t) := by
  unfold runCommand at h
  split at h
  · rename_i hh; cases h; exact .inl ⟨hh, rfl⟩
  · rename_i hh
    have hf : s.halt = false := by simpa using hh
    split at h
    · cases h; exact .inr (.inr ⟨hf, rfl⟩)
    · cases h; exact .inr (.inl ⟨hf, _, _, rfl, rfl⟩)
    · cases h

/-- A command never ends in a fault of the model. -/
theorem runCommand_ne_fault (s : State) (w : Except Stop State) (r : Fault) : runCommand s w ≠ .fault r := by
  unfold runCommand
  split
  · simp
  · split <;> simp

theorem runCommand_halted {s : State} (h : s.halt = true) (w : Except Stop State) : runCommand s w = .next s := by
  simp [runCommand, h]

theorem runCommand_ok {s t : State} (h : s.halt = false) : runCommand s (.ok t) = .next t := by
  simp [runCommand, h]

theorem runCommand_trap {s : State} (h : s.halt = false) (code : FaultCode) (info : Word) :
    runCommand s (.error (.trap code info)) = .next (raise code info s) := by
  simp [runCommand, h]

/-! ### The working part of each command, when it completes -/

/-- The work of a command before the fault mechanism: `exec` is `runCommand` of it. -/
def workOf : Instr → State → Except Stop State
  | .encrypt c acc => transform .enc c acc
  | .decrypt c acc => decryptWork c acc
  | .init c => initWork c
  | .setkey c => setkeyWork c
  | .setkeys c => setkeysWork c
  | .finish c => finishWork c
  | .mac c => macWork c
  | .acktag c => acktagWork c
  | .lookup => lookupWork
  | .getdesc n => getdescWork n
  | .gettype n => gettypeWork n
  | .nextiv n => nextivWork n

theorem exec_eq_runCommand (i : Instr) (s : State) : exec i s = runCommand s (workOf i s) := by
  cases i <;> rfl

/-- What a next state of a command is: the same state while halted, the fault entry, or the completed work. -/
theorem exec_cases {i : Instr} {s t : State} (h : exec i s = .next t) :
    (s.halt = true ∧ t = s) ∨
    (s.halt = false ∧ ∃ code info, workOf i s = .error (.trap code info) ∧ t = raise code info s) ∨
    (s.halt = false ∧ workOf i s = .ok t) := by
  rw [exec_eq_runCommand] at h; exact runCommand_cases h

/-- The states a command may find a context in (R159 step 4). -/
theorem live_iff {x : CtxState} : x.live = true ↔ (x = .uninit ∨ x = .keyed ∨ x = .active) := by
  cases x <;> simp [CtxState.live]

/-- The slots INIT may use (R101). -/
theorem dead_iff {x : CtxState} : x.live = false ↔ (x = .absent ∨ x = .finished) := by
  cases x <;> simp [CtxState.live]

/-- Everything a completed transform has passed and done (R81 to R88). -/
theorem transform_eq_ok {dir : Dir} {c : Nat} {acc : Fin 16} {s t : State} :
    transform dir c acc s = .ok t ↔
      ∃ x S k ks,
        s.ctx[c]? = some x ∧ x.st.live = true ∧ s.reg[x.suite]? = some S ∧ S.caps.xform = true ∧
        x.bulk = some k ∧ s.aNat 2 ≠ 0 ∧ rangeValid s.memMap (s.aNat 0) 8 = true ∧
        rangeValid s.memMap (s.aNat 1) (s.aNat 2) = true ∧
        keystreamFrom S.impl k s.params.ctrStride (seqCtr (seqAt s (s.aNat 0))) 0
          (blockCount (seqRem (seqAt s (s.aNat 0))) (s.aNat 2)) = some ks ∧
        t = (s.store (s.aNat 1) (xorSpan ks (seqRem (seqAt s (s.aNat 0))) (memRead s.mem (s.aNat 1) (s.aNat 2)))).setCsum
          acc (csumFold s.csum[acc] (plainSide dir (memRead s.mem (s.aNat 1) (s.aNat 2))
            (xorSpan ks (seqRem (seqAt s (s.aNat 0))) (memRead s.mem (s.aNat 1) (s.aNat 2))))) := by
  simp only [transform, bind_eq_ok, liveSlot_eq_ok, suiteFor_eq_ok, orRaise_eq_ok, raiseIf_eq_ok, checkRange_eq_ok,
    pure_eq_ok, Except.ok.injEq, Caps.has]
  constructor
  · rintro ⟨x, ⟨h1, h2⟩, S, ⟨h3, h4⟩, k, h5, -, h6, -, h7, -, h8, ks, h9, -, -, h10⟩
    exact ⟨x, S, k, ks, h1, h2, h3, h4, h5, h6, h7, h8, h9, h10.symm⟩
  · rintro ⟨x, S, k, ks, h1, h2, h3, h4, h5, h6, h7, h8, h9, h10⟩
    refine ⟨x, ⟨h1, h2⟩, S, ⟨h3, h4⟩, k, h5, (), h6, (), h7, (), h8, ks, h9, (), ?_, h10.symm⟩
    simp only [not_not, blockCount]
    omega

/-- Everything a completed DECRYPT has passed and done: a transform and the length in RET (R92). -/
theorem decryptWork_eq_ok {c : Nat} {acc : Fin 16} {s t : State} :
    decryptWork c acc s = .ok t ↔ ∃ u, transform .dec c acc s = .ok u ∧ t = u.setRet s.a[2] := by
  simp only [decryptWork, bind_eq_ok, pure_eq_ok, Except.ok.injEq]
  exact ⟨fun ⟨u, h1, h2⟩ => ⟨u, h1, h2.symm⟩, fun ⟨u, h1, h2⟩ => ⟨u, h1, h2.symm⟩⟩

/-- Everything a completed INIT has passed and done (R101). -/
theorem initWork_eq_ok {c : Nat} {s t : State} :
    initWork c s = .ok t ↔
      ∃ x n S, s.ctx[c]? = some x ∧ x.st.live = false ∧ findSuite s.reg s.a[0] = some n ∧ s.reg[n]? = some S ∧
        t = s.setCtx c (freshCtx n S) := by
  simp only [initWork, bind_eq_ok, slotAt_eq_ok, orRaise_eq_ok, raiseIf_eq_ok, orRefuse_eq_ok, pure_eq_ok,
    Except.ok.injEq, Bool.not_eq_true]
  constructor
  · rintro ⟨x, h1, -, h2, n, h3, S, h4, h5⟩; exact ⟨x, n, S, h1, h2, h3, h4, h5.symm⟩
  · rintro ⟨x, n, S, h1, h2, h3, h4, h5⟩; exact ⟨x, h1, (), h2, n, h3, S, h4, h5.symm⟩

/-- Everything a completed SETKEY has passed and done (R102). -/
theorem setkeyWork_eq_ok {c : Nat} {s t : State} :
    setkeyWork c s = .ok t ↔
      ∃ x S, s.ctx[c]? = some x ∧ x.st = .uninit ∧ s.reg[x.suite]? = some S ∧ S.caps.setkey = true ∧
        rangeValid s.memMap (s.aNat 0) (s.aNat 1) = true ∧
        ((S.family = .sym ∧ 16 ≤ s.aNat 1 ∧ ∃ k, bcKeysched S.impl (memRead s.mem (s.aNat 0) (s.aNat 1)) = some k ∧
            t = s.setCtx c { x with st := .keyed, bulk := some k }) ∨
         (S.family = .mac ∧ s.params.macKeyMinBytes ≤ s.aNat 1 ∧
            ∃ k, macKeysched S.impl (memRead s.mem (s.aNat 0) (s.aNat 1)) = some k ∧
            t = s.setCtx c { x with st := .keyed, mac := some k })) := by
  simp only [setkeyWork, bind_eq_ok, liveSlot_eq_ok, suiteFor_eq_ok, raiseIf_eq_ok, Caps.has, not_not]
  constructor
  · rintro ⟨x, ⟨h1, -⟩, S, ⟨h3, h4⟩, -, h5, h6⟩
    refine ⟨x, S, h1, h5, h3, h4, ?_⟩
    split at h6 <;> rename_i hf <;>
      simp only [bind_eq_ok, readKey_eq_ok, orRaise_eq_ok, pure_eq_ok, Except.ok.injEq] at h6
    · obtain ⟨key, ⟨h7, h8, rfl⟩, k, h9, h10⟩ := h6
      exact ⟨h8, .inl ⟨hf, h7, k, h9, h10.symm⟩⟩
    · obtain ⟨key, ⟨h7, h8, rfl⟩, k, h9, h10⟩ := h6
      exact ⟨h8, .inr ⟨hf, h7, k, h9, h10.symm⟩⟩
  · rintro ⟨x, S, h1, h2, h3, h4, h5, h6⟩
    refine ⟨x, ⟨h1, by simp [h2, CtxState.live]⟩, S, ⟨h3, h4⟩, (), h2, ?_⟩
    rcases h6 with ⟨hf, h7, k, h8, h9⟩ | ⟨hf, h7, k, h8, h9⟩ <;>
      simp only [hf, bind_eq_ok, readKey_eq_ok, orRaise_eq_ok, pure_eq_ok, Except.ok.injEq]
    · exact ⟨_, ⟨h7, h5, rfl⟩, k, h8, h9.symm⟩
    · exact ⟨_, ⟨h7, h5, rfl⟩, k, h8, h9.symm⟩

/-- Everything a completed SETKEYS has passed and done (R103). -/
theorem setkeysWork_eq_ok {c : Nat} {s t : State} :
    setkeysWork c s = .ok t ↔
      ∃ x S sub M bk mk ak, s.ctx[c]? = some x ∧ x.st.live = true ∧ s.reg[x.suite]? = some S ∧
        S.caps.setkeys = true ∧ x.st ≠ .active ∧ x.sub = some sub ∧ s.reg[sub.suite]? = some M ∧
        16 ≤ s.aNat 1 ∧ s.params.macKeyMinBytes ≤ s.aNat 3 ∧ 16 ≤ s.aNat 5 ∧
        rangeValid s.memMap (s.aNat 0) (s.aNat 1) = true ∧ rangeValid s.memMap (s.aNat 2) (s.aNat 3) = true ∧
        rangeValid s.memMap (s.aNat 4) (s.aNat 5) = true ∧
        bcKeysched S.impl (memRead s.mem (s.aNat 0) (s.aNat 1)) = some bk ∧
        macKeysched M.impl (memRead s.mem (s.aNat 2) (s.aNat 3)) = some mk ∧
        ackKeysched S.impl (memRead s.mem (s.aNat 4) (s.aNat 5)) = some ak ∧
        t = s.setCtx c { x with
          st := .active, bulk := some bk, ack := some ak, sub := some { sub with st := .keyed, mac := some mk } } := by
  simp only [setkeysWork, bind_eq_ok, liveSlot_eq_ok, suiteFor_eq_ok, raiseIf_eq_ok, orRefuse_eq_ok, orRaise_eq_ok,
    checkRange_eq_ok, Caps.has, pure_eq_ok, Except.ok.injEq, not_lt]
  constructor
  · rintro ⟨x, ⟨h1, h2⟩, S, ⟨h3, h4⟩, -, h5, sub, h6, M, h7, -, h8, -, h9, -, h10, -, h11, -, h12, -, h13, bk, h14, mk,
      h15, ak, h16, h17⟩
    exact ⟨x, S, sub, M, bk, mk, ak, h1, h2, h3, h4, h5, h6, h7, h8, h9, h10, h11, h12, h13, h14, h15, h16, h17.symm⟩
  · rintro ⟨x, S, sub, M, bk, mk, ak, h1, h2, h3, h4, h5, h6, h7, h8, h9, h10, h11, h12, h13, h14, h15, h16, h17⟩
    exact ⟨x, ⟨h1, h2⟩, S, ⟨h3, h4⟩, (), h5, sub, h6, M, h7, (), h8, (), h9, (), h10, (), h11, (), h12, (), h13, bk,
      h14, mk, h15, ak, h16, h17.symm⟩

/-- Everything a completed FINISH has passed and done (R104). -/
theorem finishWork_eq_ok {c : Nat} {s t : State} :
    finishWork c s = .ok t ↔
      ∃ x, s.ctx[c]? = some x ∧
        ((x.st.live = true ∧ t = s.setCtx c (finishedCtx x)) ∨ (x.st.live = false ∧ t = s)) := by
  simp only [finishWork, bind_eq_ok, slotAt_eq_ok]
  constructor
  · rintro ⟨x, h1, h2⟩
    refine ⟨x, h1, ?_⟩
    split at h2 <;> rename_i hl <;> simp only [pure_eq_ok, Except.ok.injEq] at h2
    · exact .inl ⟨hl, h2.symm⟩
    · exact .inr ⟨by simpa using hl, h2.symm⟩
  · rintro ⟨x, h1, ⟨hl, h2⟩ | ⟨hl, h2⟩⟩
    · exact ⟨x, h1, by simp [hl, h2]⟩
    · exact ⟨x, h1, by simp [hl, h2]⟩

/-- Everything a completed MAC has passed and done: the probe (R121) or the tag (R124). -/
theorem macWork_eq_ok {c : Nat} {s t : State} :
    macWork c s = .ok t ↔
      ∃ x S, s.ctx[c]? = some x ∧ x.st.live = true ∧ s.reg[x.suite]? = some S ∧ S.caps.mac = true ∧
        ((signed64 s.a[4] < 20 ∧ t = s.setA 4 20) ∨
         (¬ signed64 s.a[4] < 20 ∧ ∃ owner M mk full, macOwner x S = some owner ∧ s.reg[owner.suite]? = some M ∧
            owner.mac = some mk ∧ rangeValid s.memMap (s.aNat 0) (16 * s.aNat 1) = true ∧
            (∀ p ∈ segmentList s.mem (s.aNat 0) (s.aNat 1), rangeValid s.memMap p.1 p.2 = true) ∧
            rangeValid s.memMap (s.aNat 2) 8 = true ∧
            macFn M.impl M.macNativeLen mk (ivOf (memRead s.mem (s.aNat 2) 8))
              (segmentsMessage s.mem (segmentList s.mem (s.aNat 0) (s.aNat 1))) = some full ∧
            rangeValid s.memMap (s.aNat 3) 20 = true ∧
            t = (s.store (s.aNat 3) (macTag full.toList)).setA 4 20)) := by
  simp only [macWork, bind_eq_ok, liveSlot_eq_ok, suiteFor_eq_ok, Caps.has]
  constructor
  · rintro ⟨x, ⟨h1, h2⟩, S, ⟨h3, h4⟩, h5⟩
    refine ⟨x, S, h1, h2, h3, h4, ?_⟩
    split at h5 <;> rename_i hp
    · simp only [pure_eq_ok, Except.ok.injEq] at h5
      exact .inl ⟨hp, h5.symm⟩
    · simp only [bind_eq_ok, orRefuse_eq_ok, orRaise_eq_ok, checkRange_eq_ok, checkSegments_eq_ok, pure_eq_ok,
        Except.ok.injEq] at h5
      obtain ⟨owner, h6, M, h7, mk, h8, -, h9, -, h10, -, h11, full, h12, -, h13, h14⟩ := h5
      exact .inr ⟨hp, owner, M, mk, full, h6, h7, h8, h9, h10, h11, h12, h13, h14.symm⟩
  · rintro ⟨x, S, h1, h2, h3, h4, ⟨hp, h5⟩ | ⟨hp, owner, M, mk, full, h6, h7, h8, h9, h10, h11, h12, h13, h14⟩⟩
    · exact ⟨x, ⟨h1, h2⟩, S, ⟨h3, h4⟩, by simp [hp, h5]⟩
    · refine ⟨x, ⟨h1, h2⟩, S, ⟨h3, h4⟩, ?_⟩
      simp only [hp, if_false, bind_eq_ok, orRefuse_eq_ok, orRaise_eq_ok, checkRange_eq_ok, checkSegments_eq_ok,
        pure_eq_ok, Except.ok.injEq]
      exact ⟨owner, h6, M, h7, mk, h8, (), h9, (), h10, (), h11, full, h12, (), h13, h14.symm⟩

/-- A length that fits in 64 bits is returned as it is (R125). -/
theorem tagLengthWord_toNat {len : Nat} (h : len < 2 ^ 64) : (tagLengthWord len).toNat = len := by
  rw [tagLengthWord, if_pos h, BitVec.toNat_ofNat, Nat.mod_eq_of_lt h]

/-- RET is never above the length of the tag, whatever the free value is (R125). -/
theorem tagLengthWord_le (len : Nat) : (tagLengthWord len).toNat ≤ len := by
  rcases Nat.lt_or_ge len (2 ^ 64) with h | h
  · exact (tagLengthWord_toNat h).le
  · exact (Nat.le_of_lt (tagLengthWord len).isLt).trans h

/-- Everything a completed ACKTAG has passed and done (R125). -/
theorem acktagWork_eq_ok {c : Nat} {s t : State} :
    acktagWork c s = .ok t ↔
      ∃ x S a tag a', s.ctx[c]? = some x ∧ x.st.live = true ∧ s.reg[x.suite]? = some S ∧ S.caps.acktag = true ∧
        x.ack = some a ∧ rangeValid s.memMap (s.aNat 0) (s.aNat 1) = true ∧
        ackStream S.impl a (memRead s.mem (s.aNat 0) (s.aNat 1)) = some (tag, a') ∧
        rangeValid s.memMap (s.aNat 2) tag.length = true ∧
        t = ((s.store (s.aNat 2) tag).setCtx c { x with ack := some a' }).setRet (tagLengthWord tag.length) := by
  simp only [acktagWork, bind_eq_ok, liveSlot_eq_ok, suiteFor_eq_ok, orRaise_eq_ok, checkRange_eq_ok, Caps.has,
    pure_eq_ok, Except.ok.injEq]
  constructor
  · rintro ⟨x, ⟨h1, h2⟩, S, ⟨h3, h4⟩, a, h5, -, h6, ⟨tag, a'⟩, h7, -, h8, h9⟩
    exact ⟨x, S, a, tag, a', h1, h2, h3, h4, h5, h6, h7, h8, h9.symm⟩
  · rintro ⟨x, S, a, tag, a', h1, h2, h3, h4, h5, h6, h7, h8, h9⟩
    exact ⟨x, ⟨h1, h2⟩, S, ⟨h3, h4⟩, a, h5, (), h6, (tag, a'), h7, (), h8, h9.symm⟩

/-- What LOOKUP does (R140). -/
theorem lookupWork_eq (s : State) :
    lookupWork s = .ok (s.setRet (match findSuite s.reg s.a[0] with
      | some n => BitVec.ofNat 64 n
      | none => BitVec.allOnes 64)) := by
  unfold lookupWork
  split <;> simp_all

/-- Everything a completed GETDESC has passed and done (R141). -/
theorem getdescWork_eq_ok {n : Nat} {s t : State} :
    getdescWork n s = .ok t ↔
      ∃ S, s.reg[n]? = some S ∧ rangeValid s.memMap (s.aNat 0) 4 = true ∧
        t = (s.store (s.aNat 0) (beBytes 4 S.id.toNat)).setNetconv := by
  simp only [getdescWork, bind_eq_ok, suiteAt_eq_ok, checkRange_eq_ok, pure_eq_ok, Except.ok.injEq]
  constructor
  · rintro ⟨S, h1, -, h2, h3⟩; exact ⟨S, h1, h2, h3.symm⟩
  · rintro ⟨S, h1, h2, h3⟩; exact ⟨S, h1, (), h2, h3.symm⟩

/-- Everything a completed GETTYPE has passed and done (R143). -/
theorem gettypeWork_eq_ok {n : Nat} {s t : State} :
    gettypeWork n s = .ok t ↔ ∃ S, s.reg[n]? = some S ∧ t = s.setRet (famNumber S.family) := by
  simp only [gettypeWork, bind_eq_ok, suiteAt_eq_ok, pure_eq_ok, Except.ok.injEq]
  exact ⟨fun ⟨S, h1, h2⟩ => ⟨S, h1, h2.symm⟩, fun ⟨S, h1, h2⟩ => ⟨S, h1, h2.symm⟩⟩

/-- Everything a completed NEXTIV has passed and done (R144). -/
theorem nextivWork_eq_ok {n : Nat} {s t : State} :
    nextivWork n s = .ok t ↔ ∃ S, s.reg[n]? = some S ∧ s.a[1] = 0 ∧ t = s.setA 1 s.params.seqSentinel := by
  simp only [nextivWork, bind_eq_ok, suiteAt_eq_ok, raiseIf_eq_ok, pure_eq_ok, Except.ok.injEq, not_not]
  constructor
  · rintro ⟨S, h1, -, h2, h3⟩; exact ⟨S, h1, h2, h3.symm⟩
  · rintro ⟨S, h1, h2, h3⟩; exact ⟨S, h1, (), h2, h3.symm⟩

end Sys2Proof.Machine
end

