-- ==== Sys2Proof/Laws/PerInstr.lean ====
section
/-! SUPPORT. Statements about every command as syntax, one lemma per constructor (LAWS.json). -/

namespace Sys2Proof.Laws

/-! ### EncodedFields: the fields of the encoded word are the operands (spec/30_encoding.md R61, R68) -/

/-- The word of a well-formed command holds its selector in `SEL`, its accumulator number in `ACC` and its row's code in
`OPC`. -/
def EncodedFields.Statement (i : Instr) : Prop :=
  i.wf = true →
    selField (encode i) = i.sel ∧ accField (encode i) = i.acc ∧ opcField (encode i) = opcField i.matchWord

theorem EncodedFields.all (i : Instr) : EncodedFields.Statement i := by
  intro h
  refine ⟨selField_encode i h, accField_encode i h, ?_⟩
  have hm := encode_and_maskX i h
  have e : ∀ w : CmdWord, opcField w = opcField (w &&& maskX) := by
    intro w
    unfold opcField maskX
    ext j hj
    have : (0xFF0F00FF#32).getLsbD j = true := by
      interval_cases j <;> decide
    simp [this]
  rw [e (encode i), hm, ← e]

theorem EncodedFields.encrypt (c : Nat) (acc : Fin 16) : EncodedFields.Statement (.encrypt c acc) := EncodedFields.all _
theorem EncodedFields.decrypt (c : Nat) (acc : Fin 16) : EncodedFields.Statement (.decrypt c acc) := EncodedFields.all _
theorem EncodedFields.init (c : Nat) : EncodedFields.Statement (.init c) := EncodedFields.all _
theorem EncodedFields.setkey (c : Nat) : EncodedFields.Statement (.setkey c) := EncodedFields.all _
theorem EncodedFields.setkeys (c : Nat) : EncodedFields.Statement (.setkeys c) := EncodedFields.all _
theorem EncodedFields.finish (c : Nat) : EncodedFields.Statement (.finish c) := EncodedFields.all _
theorem EncodedFields.mac (c : Nat) : EncodedFields.Statement (.mac c) := EncodedFields.all _
theorem EncodedFields.acktag (c : Nat) : EncodedFields.Statement (.acktag c) := EncodedFields.all _
theorem EncodedFields.lookup : EncodedFields.Statement .lookup := EncodedFields.all _
theorem EncodedFields.getdesc (s : Nat) : EncodedFields.Statement (.getdesc s) := EncodedFields.all _
theorem EncodedFields.gettype (s : Nat) : EncodedFields.Statement (.gettype s) := EncodedFields.all _
theorem EncodedFields.nextiv (s : Nat) : EncodedFields.Statement (.nextiv s) := EncodedFields.all _

end Sys2Proof.Laws
end

