-- ==== Sys2Proof/Laws/Step.lean ====
section
/-! SUPPORT. What a step can do, said once: the host's actions and their next states. -/

namespace Sys2Proof.Machine

/-- Everything a next state of the machine can be: idle, a write to a register (of a command, if CMD), a read, a store or
load of memory, a reset; always from a well-formed configuration. -/
theorem step_cases {s t : State} (h : step s = .next t) :
    configWf s = true ∧
    ((s.host = [] ∧ t = s) ∨
     (∃ off v rest, s.host = .regWrite off 8 v :: rest ∧ off % 8 = 0 ∧
        regStore (regAt off) v { s with host := rest } = .next t) ∨
     (∃ off rest, s.host = .regRead off 8 :: rest ∧ off % 8 = 0 ∧
        t = { s with host := rest, hostReg := regValue { s with host := rest } (regAt off) }) ∨
     (∃ addr b rest, s.host = .memWrite addr b :: rest ∧ rangeValid s.memMap addr b.length = true ∧
        t = { s with host := rest, mem := memWrite s.mem addr b }) ∨
     (∃ addr n rest, s.host = .memRead addr n :: rest ∧ rangeValid s.memMap addr n = true ∧
        t = { s with host := rest, hostMem := memRead s.mem addr n }) ∨
     (∃ rest, s.host = .reset :: rest ∧ t = engineReset { s with host := rest })) := by
  unfold step stepHost at h
  split at h
  case isFalse => cases h
  case isTrue hc =>
    refine ⟨hc, ?_⟩
    split at h
    · rename_i he; cases h; exact .inl ⟨he, rfl⟩
    · rename_i act rest he
      right
      cases act with
      | regWrite off width v =>
        simp only [hostAct, wholeRegister] at h
        split at h
        · cases h
        · split at h
          · cases h
          · rename_i h8 hw
            have hw' : width = 8 := by omega
            subst hw'
            exact .inl ⟨off, v, rest, he, by omega, h⟩
      | regRead off width =>
        simp only [hostAct, wholeRegister] at h
        split at h
        · cases h
        · split at h
          · cases h
          · rename_i h8 hw
            have hw' : width = 8 := by omega
            subst hw'
            cases h
            exact .inr (.inl ⟨off, rest, he, by omega, rfl⟩)
      | memWrite addr b =>
        simp only [hostAct, hostStore] at h
        split at h
        · rename_i hr; cases h; exact .inr (.inr (.inl ⟨addr, b, rest, he, hr, rfl⟩))
        · cases h
      | memRead addr n =>
        simp only [hostAct, hostLoad] at h
        split at h
        · rename_i hr; cases h; exact .inr (.inr (.inr (.inl ⟨addr, n, rest, he, hr, rfl⟩)))
        · cases h
      | reset => cases h; exact .inr (.inr (.inr (.inr ⟨rest, he, rfl⟩)))

/-- Everything a write to a register can do: nothing, the operand register, the accumulator, a command, or the fault of
an illegal word (R14, R15, R16, R26, R27, R65). -/
theorem regStore_cases {r : RegName} {v : Word} {s t : State} (h : regStore r v s = .next t) :
    (t = s) ∨ (s.halt = false ∧
      ((∃ i, r = .a i ∧ t = s.setA i v) ∨ (∃ k, r = .csum k ∧ t = s.setCsum k (v.setWidth 16)) ∨
       (r = .cmd ∧
         ((∃ i, decode (v.setWidth 32) = .ok i ∧ exec i { s with cmd := v.setWidth 32 } = .next t) ∨
          (∃ e, decode (v.setWidth 32) = .error e ∧
            t = raise .illegalCmd 0 { s with cmd := v.setWidth 32 }))))) := by
  unfold regStore at h
  split at h
  · cases h; exact .inl rfl
  · rename_i hh
    have hf : s.halt = false := by simpa using hh
    cases r <;> simp only at h
    case cmd =>
      right
      refine ⟨hf, .inr (.inr ⟨rfl, ?_⟩)⟩
      unfold issue at h
      split at h
      · rename_i i hd; exact .inl ⟨i, hd, h⟩
      · rename_i e hd; cases h; exact .inr ⟨e, hd, rfl⟩
    case a i => cases h; exact .inr ⟨hf, .inl ⟨i, rfl, rfl⟩⟩
    case csum k => cases h; exact .inr ⟨hf, .inr (.inl ⟨k, rfl, rfl⟩)⟩
    all_goals (cases h; exact .inl rfl)

end Sys2Proof.Machine
end

