-- ==== Sys2Proof/Laws/Transform.lean ====
section
/-! SUPPORT. The parts of a transform: keystream, XOR, sequence values (spec/41_transform.md R82 to R86). -/

namespace Sys2Proof.Machine

/-- Where every block is given, the keystream is their concatenation, byte by byte (R85). -/
theorem keystreamFrom_of_blocks {impl : Impl} {k : BulkKey} {stride : Stride} {ctr : Word} {kb : Nat → Block} {i n : Nat}
    (h : ∀ m, m < n → bcEnc impl k (counterBlock (counterValue stride ctr (i + m))) = some (kb (i + m))) :
    ∃ ks, keystreamFrom impl k stride ctr i n = some ks ∧ ks.length = 16 * n ∧
      ∀ j, j < 16 * n → ks.getD j 0 = (kb (i + j / 16)).toList.getD (j % 16) 0 := by
  induction n generalizing i with
  | zero => exact ⟨[], rfl, rfl, fun j hj => by omega⟩
  | succ n ih =>
    have h0 : bcEnc impl k (counterBlock (counterValue stride ctr i)) = some (kb i) := by simpa using h 0 (by omega)
    obtain ⟨rest, hr, hlen, hget⟩ := ih (i := i + 1) (fun m hm => by
      have := h (m + 1) (by omega)
      rwa [show i + (m + 1) = i + 1 + m by omega] at this)
    have hkb : (kb i).toList.length = 16 := by simp
    refine ⟨(kb i).toList ++ rest, by simp only [keystreamFrom, h0, hr], by simp [hlen]; omega, ?_⟩
    intro j hj
    by_cases hlt : j < 16
    · rw [List.getD_append _ _ _ _ (by omega), Nat.div_eq_of_lt hlt, Nat.mod_eq_of_lt hlt, Nat.add_zero]
    · rw [List.getD_append_right _ _ _ _ (by omega), hkb, hget (j - 16) (by omega)]
      have e1 : i + 1 + (j - 16) / 16 = i + j / 16 := by omega
      have e2 : (j - 16) % 16 = j % 16 := by omega
      rw [e1, e2]

/-- The keystream fails exactly when the primitive fails on one of its counter blocks (R85). -/
theorem keystreamFrom_eq_none {impl : Impl} {k : BulkKey} {stride : Stride} {ctr : Word} {i n : Nat} :
    keystreamFrom impl k stride ctr i n = none ↔
      ∃ m, m < n ∧ bcEnc impl k (counterBlock (counterValue stride ctr (i + m))) = none := by
  induction n generalizing i with
  | zero => simp [keystreamFrom]
  | succ n ih =>
    unfold keystreamFrom
    cases h0 : bcEnc impl k (counterBlock (counterValue stride ctr i)) with
    | none => simp only [true_iff]; exact ⟨0, by omega, by simpa using h0⟩
    | some b =>
      have key : (∃ m, m < n + 1 ∧ bcEnc impl k (counterBlock (counterValue stride ctr (i + m))) = none) ↔
          ∃ m, m < n ∧ bcEnc impl k (counterBlock (counterValue stride ctr (i + 1 + m))) = none := by
        constructor
        · rintro ⟨m, hm, he⟩
          cases m with
          | zero => rw [Nat.add_zero, h0] at he; cases he
          | succ m => exact ⟨m, by omega, by rwa [show i + 1 + m = i + (m + 1) by omega]⟩
        · rintro ⟨m, hm, he⟩
          exact ⟨m + 1, by omega, by rwa [show i + (m + 1) = i + 1 + m by omega]⟩
      rw [key, ← ih]
      cases keystreamFrom impl k stride ctr (i + 1) n <;> simp

/-- A keystream that is there has its blocks (R85). -/
theorem keystreamFrom_eq_some {impl : Impl} {k : BulkKey} {stride : Stride} {ctr : Word} {i n : Nat} {ks : List Byte}
    (h : keystreamFrom impl k stride ctr i n = some ks) :
    ∃ kb : Nat → Block, (∀ m, m < n → bcEnc impl k (counterBlock (counterValue stride ctr (i + m))) = some (kb (i + m))) ∧
      ks.length = 16 * n ∧ ∀ j, j < 16 * n → ks.getD j 0 = (kb (i + j / 16)).toList.getD (j % 16) 0 := by
  have hb : ∀ m, m < n →
      bcEnc impl k (counterBlock (counterValue stride ctr (i + m))) =
        some ((bcEnc impl k (counterBlock (counterValue stride ctr (i + m)))).getD (Vector.replicate 16 0)) := by
    intro m hm
    cases hc : bcEnc impl k (counterBlock (counterValue stride ctr (i + m))) with
    | none => exact absurd (keystreamFrom_eq_none.mpr ⟨m, hm, hc⟩) (by rw [h]; simp)
    | some b => rfl
  obtain ⟨ks', h1, h2, h3⟩ := keystreamFrom_of_blocks
    (kb := fun q => (bcEnc impl k (counterBlock (counterValue stride ctr q))).getD (Vector.replicate 16 0)) hb
  rw [h] at h1
  cases h1
  exact ⟨fun q => (bcEnc impl k (counterBlock (counterValue stride ctr q))).getD (Vector.replicate 16 0), hb, h2, h3⟩

theorem xorSpan_length {ks span : List Byte} {rem : Nat} (h : rem + span.length ≤ ks.length) :
    (xorSpan ks rem span).length = span.length := by
  simp [xorSpan]; omega

theorem xorSpan_getD {ks span : List Byte} {rem j : Nat} (h : rem + span.length ≤ ks.length) (hj : j < span.length) :
    (xorSpan ks rem span).getD j 0 = span.getD j 0 ^^^ ks.getD (rem + j) 0 := by
  have hk : rem + j < ks.length := by omega
  simp [xorSpan, List.getD_eq_getElem?_getD, List.getElem?_zipWith, hj, hk]

/-- XOR with the same keystream twice is nothing (R93: `(d XOR x) XOR x = d`). -/
theorem xorSpan_xorSpan {ks span : List Byte} {rem : Nat} (h : rem + span.length ≤ ks.length) :
    xorSpan ks rem (xorSpan ks rem span) = span := by
  apply List.ext_getElem
  · rw [xorSpan_length (by rw [xorSpan_length h]; exact h), xorSpan_length h]
  · intro j h1 h2
    simp [xorSpan]

/-- The scratch buffer covers the span from the remainder (R83, R90). -/
theorem rem_add_len_le (rem len : Nat) : rem + len ≤ 16 * blockCount rem len := by
  unfold blockCount; omega

/-- The sequence value of a transform as a number (R82). -/
theorem seqAt_toNat (s : State) (addr : Nat) : (seqAt s addr).toNat = beNat (memRead s.mem addr 8) := by
  have h := beNat_lt (memRead s.mem addr 8)
  rw [memRead_length] at h
  simp only [seqAt, BitVec.toNat_ofNat]
  exact Nat.mod_eq_of_lt h

theorem memRead_getD {m : List Host.Cell} {a n j : Nat} (h : j < n) : (memRead m a n).getD j 0 = memGet m (a + j) := by
  simp [memRead, List.getD_eq_getElem?_getD, h]

/-- The span a transform stores has the length it read (R86). -/
theorem newSpan_length {impl : Impl} {k : BulkKey} {stride : Stride} {ctr : Word} {rem addr len : Nat} {ks : List Byte}
    {m : List Host.Cell} (h : keystreamFrom impl k stride ctr 0 (blockCount rem len) = some ks) :
    (xorSpan ks rem (memRead m addr len)).length = len := by
  obtain ⟨_, _, hk, _⟩ := keystreamFrom_eq_some h
  have := rem_add_len_le rem len
  rw [xorSpan_length] <;> simp; omega

end Sys2Proof.Machine
end

