-- ==== Sys2Proof/Tests/Slice0.lean ====
section
/-! SUPPORT. The model's own tests: ill-formed terms, decoded words, one-step vectors of spec/95_test_vectors.md, and for
every obligation with hypotheses a state and operands that meet them. Expected values are those of spec/. -/

namespace Sys2Proof.Machine.Tests

/-! ### Small states -/

def bytes (l : List Nat) : List Byte := l.map (BitVec.ofNat 8)

/-- Host memory holding byte strings at addresses. -/
def put : List (Nat × List Nat) → List Host.Cell
  | [] => []
  | (a, b) :: rest => memWrite (put rest) a (bytes b)

/-- `K1`, the MAC key and the ack key of spec/95_test_vectors.md. -/
def key1 : List Byte := bytes (List.range 16)
def key2 : List Byte := bytes ((List.range 16).map (0x10 + ·))
def key3 : List Byte := bytes ((List.range 16).map (0x20 + ·))

/-- A SYM suite without any capability. -/
def bareSuite : Suite :=
  { id := 0x300#32, family := .sym, macSuite := some 1, impl := .refToy, macNativeLen := 0,
    caps := { xform := false, mac := false, acktag := false, setkey := false, setkeys := false } }

/-- The registry of spec/95_test_vectors.md over REF-TOY, and a suite without capabilities. -/
def toyReg : List Suite := Config.twoSuites 0x100#32 0x200#32 .refToy .refToy 32 ++ [bareSuite]

/-- The same with primitives that fail on strings ending in FF. -/
def failReg : List Suite := Config.twoSuites 0x100#32 0x200#32 .refFail .refFail 32

/-- Entries 0 and 1 of the two registries. -/
def suite0 : Suite := toyReg.getD 0 bareSuite
def suite1 : Suite := toyReg.getD 1 bareSuite
def fail0 : Suite := failReg.getD 0 bareSuite
def fail1 : Suite := failReg.getD 1 bareSuite

def regs (l : List Word) : Vector Word 8 := Vector.ofFn fun i : Fin 8 => l.getD i.val 0

def sub0 : CtxCore := { st := .uninit, suite := 1, bulk := none, ack := none, mac := none }
def sub1 : CtxCore := { st := .keyed, suite := 1, bulk := none, ack := none, mac := some ⟨key2⟩ }
def uninit0 : Ctx := { st := .uninit, suite := 0, bulk := none, ack := none, mac := none, sub := some sub0 }
def keyed0 : Ctx := { st := .keyed, suite := 0, bulk := some ⟨key1⟩, ack := none, mac := none, sub := some sub0 }
def active0 : Ctx :=
  { st := .active, suite := 0, bulk := some ⟨key1⟩, ack := some ⟨key3⟩, mac := none, sub := some sub1 }
def finished0 : Ctx := { st := .finished, suite := 0, bulk := none, ack := none, mac := none, sub := none }
def uninit1 : Ctx := { st := .uninit, suite := 1, bulk := none, ack := none, mac := none, sub := none }
def keyed1 : Ctx := { st := .keyed, suite := 1, bulk := none, ack := none, mac := some ⟨key2⟩, sub := none }
def uninit2 : Ctx := { st := .uninit, suite := 2, bulk := none, ack := none, mac := none, sub := some sub0 }

/-- Two slots, `x` and an absent one, over the registry `reg`. -/
def stateOf (reg : List Suite) (x : Ctx) (a : List Word) (m : List (Nat × List Nat)) : State :=
  { State.resetWith 2 reg Config.defaultParams Config.defaultMap (put m) [] with
    ctx := [x, Ctx.absent]
    a := regs a }

def toy (x : Ctx) (a : List Word) (m : List (Nat × List Nat)) : State := stateOf toyReg x a m
def failing (x : Ctx) (a : List Word) (m : List (Nat × List Nat)) : State := stateOf failReg x a m

/-- A view of the next state. -/
def seen {α : Type} (o : Host.Outcome State Fault Refusal) (f : State → α) : Option α :=
  match o with
  | .next t => some (f t)
  | .fault _ => none
  | .refused _ => none

theorem seen_some {α : Type} {o : Host.Outcome State Fault Refusal} {f : State → α} {v : α} (h : seen o f = some v) :
    ∃ t, o = .next t ∧ f t = v := by
  cases o with
  | next t => exact ⟨t, rfl, by simpa [seen] using h⟩
  | fault r => simp [seen] at h
  | refused r => simp [seen] at h

/-- `HALT`, `FAULT`, `FAULT_INFO`. -/
def faultView (s : State) : Bool × Word × Word := (s.halt, s.fault.word, s.faultInfo)

/-! ### WellFormed: terms it refuses -/

theorem test_wf_refuses_selectors_of_nine_bits :
    (Instr.encrypt 256 0).wf = false ∧ (Instr.decrypt 256 0).wf = false ∧ (Instr.init 256).wf = false ∧
    (Instr.setkey 256).wf = false ∧ (Instr.setkeys 256).wf = false ∧ (Instr.finish 256).wf = false ∧
    (Instr.mac 256).wf = false ∧ (Instr.acktag 256).wf = false ∧ (Instr.getdesc 256).wf = false ∧
    (Instr.gettype 256).wf = false ∧ (Instr.nextiv 256).wf = false ∧ (Instr.lookup).wf = true ∧
    (Instr.init 255).wf = true := by decide

theorem test_regWf_refuses :
    regWf [] = false ∧                                             -- no entry (R6)
    regWf (toyReg ++ [bareSuite]) = false ∧                        -- two entries with one id (R137 (a))
    regWf [{ bareSuite with macSuite := none }] = false ∧          -- a SYM entry without a MAC suite
    regWf (toyReg ++ [{ bareSuite with id := 0x400#32, caps := { bareSuite.caps with acktag := true } }]) = false ∧
    regWf (Config.twoSuites 0x100#32 0x200#32 .refToy .refToy 16) = false ∧   -- a MAC below 20 bytes
    regWf toyReg = true ∧ regWf failReg = true ∧ regWf Config.defaultReg = true := by decide

theorem test_params_refuse_a_sentinel_that_is_not_negative :
    ({ Config.defaultParams with seqSentinel := 0 } : Params).wf = false ∧
    ({ Config.defaultParams with seqSentinel := 0x7FFFFFFFFFFFFFFF#64 } : Params).wf = false ∧
    ({ Config.defaultParams with seqSentinel := 0x8000000000000000#64 } : Params).wf = true := by decide

/-! ### Decode: words written out from the fields of spec/30_encoding.md R61
(MBZ2, ACC, MBZ1, DIR, SEL, OPC from bit 31 down) -/

theorem test_decode_transform :
    decode 0b00000000_0010_000_0_00000011_00010000#32 = .ok (.encrypt 3 2) ∧
    decode 0b00000000_1111_000_1_11111111_00010000#32 = .ok (.decrypt 255 15) := by decide

theorem test_decode_lifecycle :
    decode 0b00000000_0000_000_0_00001111_00100000#32 = .ok (.init 15) ∧
    decode 0b00000000_0000_000_0_00000011_00100001#32 = .ok (.setkey 3) ∧
    decode 0b00000000_0000_000_0_00000001_00100010#32 = .ok (.setkeys 1) ∧
    decode 0b00000000_0000_000_0_00000101_00100011#32 = .ok (.finish 5) := by decide

theorem test_decode_authentication :
    decode 0b00000000_0000_000_0_00000000_00110000#32 = .ok (.mac 0) ∧
    decode 0b00000000_0000_000_0_00000100_00110001#32 = .ok (.acktag 4) := by decide

theorem test_decode_registry :
    decode 0b00000000_0000_000_0_00000000_01000000#32 = .ok .lookup ∧
    decode 0b00000000_0000_000_0_00000001_01000001#32 = .ok (.getdesc 1) ∧
    decode 0b00000000_0000_000_0_00000010_01000010#32 = .ok (.gettype 2) ∧
    decode 0b00000000_0000_000_0_00000001_01000011#32 = .ok (.nextiv 1) := by decide

/-- The illegal words of spec/95_test_vectors.md. -/
theorem test_decode_rejects :
    decode 0x00000000#32 = .error (.unassignedOpc 0x00) ∧ decode 0x00000011#32 = .error (.unassignedOpc 0x11) ∧
    decode 0x000000FF#32 = .error (.unassignedOpc 0xFF) ∧ decode 0x00020010#32 = .error (.mustBeZero 0x10) ∧
    decode 0x01000010#32 = .error (.mustBeZero 0x10) ∧ decode 0x00010020#32 = .error (.mustBeZero 0x20) ∧
    decode 0x00100021#32 = .error (.mustBeZero 0x21) ∧ decode 0x00000140#32 = .error (.mustBeZero 0x40) ∧
    decode 0x00010043#32 = .error (.mustBeZero 0x43) := by decide

/-- The encoder against the script table of spec/95_test_vectors.md. -/
theorem test_encode :
    encode (.encrypt 3 2) = 0x00200310#32 ∧ encode (.decrypt 3 2) = 0x00210310#32 ∧
    encode (.decrypt 255 15) = 0x00F1FF10#32 ∧ encode (.init 15) = 0x00000F20#32 ∧
    encode (.setkeys 1) = 0x00000122#32 ∧ encode (.mac 0) = 0x00000030#32 ∧ encode (.nextiv 1) = 0x00000143#32 := by
  decide

theorem test_decodeTableWord :
    decodeTableWord 32 0x00F1FF10 = some (.decrypt 255 15) ∧ decodeTableWord 32 0x00020010 = none := by decide

/-! ### One step each, spec/95_test_vectors.md -/

/-- `withFetchWord` makes the word the first command after reset (V43: A1 is 0 at reset). -/
theorem test_first_command_after_reset :
    seen (step (State.reset.withFetchWord 32 0x00000043)) (fun t => (t.cmd, t.a[1], t.halt, t.host)) =
      some (0x00000043#32, 0xFFFFFFFFFFFFFFFF#64, false, []) := by decide

set_option maxRecDepth 4000 in
/-- V2: a span that crosses a block end, an odd trailing byte. -/
theorem test_encrypt_v2 :
    seen (exec (.encrypt 0 0) (toy keyed0 [0x2000, 0x2100, 7] [(0x2007, [0x0D]), (0x2100, [1, 2, 3, 4, 5, 6, 7])]))
      (fun t => (memRead t.mem 0x2100 7, t.csum[0], t.ret)) =
    some (bytes [0xd1, 0xe2, 0xf3, 0x04, 0x15, 0x26, 0x37], 0x0C10#16, 0) := by decide

set_option maxRecDepth 4000 in
/-- V8 under stride 16: the counter wraps modulo 2^64 and does not carry into the high 8 bytes. -/
theorem test_encrypt_v8_stride16 :
    seen (exec (.encrypt 0 0)
        { toy keyed0 [0x2000, 0x2100, 16] [(0x2000, [255, 255, 255, 255, 255, 255, 255, 0xF8])] with
          params := { Config.defaultParams with ctrStride := .sixteen } })
      (fun t => memRead t.mem 0x2100 16) =
    some (bytes [0x7f, 0x6f, 0x5f, 0x4f, 0x3f, 0x2f, 0x1f, 0, 0, 0x10, 0x20, 0x30, 0x40, 0x50, 0x60, 0x70]) := by decide

set_option maxRecDepth 4000 in
/-- V18: DECRYPT folds its output and returns the length. -/
theorem test_decrypt_v18 :
    seen (exec (.decrypt 0 0) (toy keyed0 [0x2000, 0x2100, 3] [(0x2100, [0x01, 0x12, 0x23])]))
      (fun t => (memRead t.mem 0x2100 3, t.csum[0], t.ret)) =
    some (bytes [1, 2, 3], 0x0204#16, 3) := by decide

set_option maxRecDepth 8000 in
/-- The two REF-AES known answers of V1b: counter blocks 0 and 1 under the zero key. -/
theorem test_aes_block_0 :
    aesEnc (bytes (List.replicate 16 0)) (counterBlock 0) =
      Vector.ofFn fun i : Fin 16 => (bytes [0x66, 0xe9, 0x4b, 0xd4, 0xef, 0x8a, 0x2c, 0x3b, 0x88, 0x4c, 0xfa, 0x59, 0xca,
        0x34, 0x2b, 0x2e]).getD i.val 0 := by decide

set_option maxRecDepth 8000 in
theorem test_aes_block_1 :
    aesEnc (bytes (List.replicate 16 0)) (counterBlock 1) =
      Vector.ofFn fun i : Fin 16 => (bytes [0x58, 0xe2, 0xfc, 0xce, 0xfa, 0x7e, 0x30, 0x61, 0x36, 0x7f, 0x1d, 0x57, 0xa4,
        0xe7, 0x45, 0x5a]).getD i.val 0 := by decide

/-- V30. -/
theorem test_init_v30 :
    seen (exec (.init 1) (toy keyed0 [0x100] [])) (fun t => (t.ctx, t.halt)) = some ([keyed0, uninit0], false) := by decide

/-- V39, with the identifier of no entry. -/
theorem test_init_v39 :
    seen (exec (.init 1) (toy keyed0 [0x500] [])) faultView = some (true, 0x30C, 0x500) := by decide

/-- V32: only the bulk key. -/
theorem test_setkey_v32 :
    seen (exec (.setkey 0) (toy uninit0 [0x1000, 16] [(0x1000, List.range 16)])) (fun t => t.ctx[0]?) =
      some (some keyed0) := by decide

/-- V33. -/
theorem test_setkey_v33 :
    seen (exec (.setkey 0) (toy keyed0 [0x1000, 16] [])) faultView = some (true, 0x106, 2) := by decide

/-- "setup(c)": all three keys at once, the MAC key in the Sub-Authenticator. -/
theorem test_setkeys_setup :
    seen (exec (.setkeys 0) (toy uninit0 [0x1000, 16, 0x1010, 16, 0x1020, 16] [(0x1000, List.range 48)]))
      (fun t => t.ctx[0]?) = some (some active0) := by decide

/-- V34: the ack key is one byte short; nothing is installed. -/
theorem test_setkeys_v34 :
    seen (exec (.setkeys 0) (toy uninit0 [0x1000, 16, 0x1010, 16, 0x1020, 15] [(0x1000, List.range 48)]))
      (fun t => (faultView t, t.ctx[0]?)) = some ((true, 0x104, 2), some uninit0) := by decide

/-- V35, the live context. -/
theorem test_finish_v35 :
    seen (exec (.finish 0) (toy active0 [] [])) (fun t => (t.ctx, t.halt)) = some ([finished0, Ctx.absent], false) := by decide

/-- V35, the absent one. -/
theorem test_finish_absent :
    seen (exec (.finish 1) (toy active0 [] [])) (fun t => (t.ctx, t.halt)) = some ([active0, Ctx.absent], false) := by decide

/-- The memory of V20: two segments, their list, the IV, 24 bytes of EE. -/
def v20 : List (Nat × List Nat) :=
  [(0x2000, [0x45, 0, 0, 0x28]), (0x2100, [0xde, 0xad, 0xbe, 0xef, 0x01]),
   (0x2206, [0x20, 0]), (0x220F, [4]), (0x2216, [0x21, 0]), (0x221F, [5]), (0x2307, [7]),
   (0x2400, List.replicate 24 0xee)]

set_option maxRecDepth 8000 in
/-- V20. -/
theorem test_mac_v20 :
    seen (exec (.mac 0) (toy active0 [0x2200, 2, 0x2300, 0x2400, 20] v20)) (fun t => (memRead t.mem 0x2400 22, t.a[4])) =
    some (bytes [0x5c, 0x18, 0x1b, 0x32, 0xc3, 0xb1, 0xa1, 0xf6, 0x10, 0x10, 0x13, 0x12, 0x15, 0x14, 0x17, 0x11, 0x19,
      0x18, 0x1b, 0x1a, 0xee, 0xee], 20) := by decide

/-- V21: the probe with the most negative capacity, on a context without a key. -/
theorem test_mac_v21 :
    seen (exec (.mac 0) (toy uninit0 [0, 0, 0, 0x2400, 0x8000000000000000] v20))
      (fun t => (t.a[4], t.halt, decide (t.mem = put v20))) = some (20, false, true) := by decide

/-- The ACKTAG vector of spec/95_test_vectors.md. -/
theorem test_acktag :
    seen (exec (.acktag 0) (toy active0 [0x3000, 4, 0x3100] [(0x3003, [0x2a])]))
      (fun t => (memRead t.mem 0x3100 4, t.ret, t.ctx[0]?)) =
    some (bytes [0x85, 0x84, 0x87, 0xac], 4, some active0) := by decide

/-- "On a KEYED context (bulk key only): fault NOT_KEYED, FAULT_INFO = 2". -/
theorem test_acktag_keyed :
    seen (exec (.acktag 0) (toy keyed0 [0x3000, 4, 0x3100] [])) faultView = some (true, 0x105, 2) := by decide

/-- V40. -/
theorem test_lookup_v40 :
    seen (exec .lookup (toy keyed0 [0x200] [])) (fun t => t.ret) = some 1 ∧
    seen (exec .lookup (toy keyed0 [0x100000100] [])) (fun t => (t.ret, t.halt)) =
      some (0xFFFFFFFFFFFFFFFF#64, false) := by decide

/-- V41. -/
theorem test_getdesc_v41 :
    seen (exec (.getdesc 1) (toy keyed0 [0x3000] [])) (fun t => (memRead t.mem 0x3000 4, t.netconvDone)) =
      some (bytes [0, 0, 2, 0], true) := by decide

/-- V42 and V44. -/
theorem test_gettype_v42 :
    seen (exec (.gettype 1) (toy keyed0 [] [])) (fun t => t.ret) = some 1 ∧
    seen (exec (.gettype 3) (toy keyed0 [] [])) faultView = some (true, 0x302, 3) := by decide

/-- V43, both parts. -/
theorem test_nextiv_v43 :
    seen (exec (.nextiv 0) (toy keyed0 [0, 0] [])) (fun t => (t.a[1], t.halt)) = some (0xFFFFFFFFFFFFFFFF#64, false) ∧
    seen (exec (.nextiv 0) (toy keyed0 [0, 0xFFFFFFFFFFFFFFFF] [])) faultView =
      some (true, 0x107, 0xFFFFFFFFFFFFFFFF#64) := by decide

/-- V62 and V64: the range check takes the whole range, and a range does not wrap. -/
theorem test_bus_v62_v64 :
    seen (exec (.encrypt 0 0) (toy active0 [0x2000, 0xFFFC, 8] [(0xFFFC, [1, 2, 3, 4])]))
      (fun t => (faultView t, memRead t.mem 0xFFFC 4)) = some ((true, 0x30B, 0xFFFC), bytes [1, 2, 3, 4]) ∧
    seen (exec (.encrypt 0 0) (toy active0 [0xFFFFFFFFFFFFFFFC, 0x2000, 8] [])) faultView =
      some (true, 0x30B, 0xFFFFFFFFFFFFFFFC) := by decide

/-! ### Witnesses: for every obligation with hypotheses, a state and operands that meet them -/

/-! Encoding -/

theorem witness_DecodeOfEncodeIsTheCommand :
    (Instr.decrypt 255 15).wf = true ∧ (Instr.init 0).wf = true ∧ Instr.lookup.wf = true := by decide

theorem witness_LegalWordIsReencoded :
    decode 0x00F1FF10#32 = .ok (.decrypt 255 15) ∧ decode 0x00000040#32 = .ok .lookup := by decide

/-! Step and register block -/

/-- A CMD write of NEXTIV, and one of an illegal word. -/
def cmdWrite (w : Word) : State := { toy keyed0 [] [] with host := [.regWrite 0 8 w] }

/-- A halted engine. -/
def halted : State := haltedWith (toy keyed0 [] []) .zeroLen 0

def hostOf (s : State) (l : List HostAction) : State := { s with host := l }

theorem witness_StepRunsTheDecodedCommand :
    configWf (cmdWrite 0x43) = true ∧ (cmdWrite 0x43).halt = false ∧ (cmdWrite 0x43).host = .regWrite 0 8 0x43 :: [] ∧
    decode ((0x43 : Word).setWidth 32) = .ok (.nextiv 0) ∧ decode 0x43#32 = .ok (.nextiv 0) ∧
    seen (step (cmdWrite 0x43)) (fun t => (t.a[1], t.host)) = some (0xFFFFFFFFFFFFFFFF#64, []) := by decide

theorem witness_IllegalWordHaltsWithIllegalCmd :
    configWf (cmdWrite 0x00020010) = true ∧ (cmdWrite 0x00020010).halt = false ∧
    (cmdWrite 0x00020010).host = .regWrite 0 8 0x00020010 :: [] ∧
    decode ((0x00020010 : Word).setWidth 32) = .error (.mustBeZero 0x10) := by decide

theorem witness_HaltedEngineIgnoresWrites :
    configWf (hostOf halted [.regWrite 0 8 0x43]) = true ∧ (hostOf halted [.regWrite 0 8 0x43]).halt = true ∧
    0 % 8 = 0 ∧ (hostOf halted [.regWrite 0 8 0x43]).host = .regWrite 0 8 0x43 :: [] ∧
    (hostOf halted [.regRead 0x018 8]).host = .regRead 0x018 8 :: [] ∧ 0x018 % 8 = 0 := by decide

theorem witness_OnlyResetLeavesHalt :
    ∃ t, (hostOf halted [.regWrite 0x048 8 7]).halt = true ∧
      (∀ rest, (hostOf halted [.regWrite 0x048 8 7]).host ≠ .reset :: rest) ∧
      step (hostOf halted [.regWrite 0x048 8 7]) = .next t := by
  obtain ⟨t, h, -⟩ := seen_some (f := fun t => t.halt) (v := true)
    (show seen (step (hostOf halted [.regWrite 0x048 8 7])) _ = _ by decide)
  exact ⟨t, rfl, by intro rest; simp [hostOf], h⟩

/-- The first and the last operand register and accumulator, the read-only registers and the reserved offsets at both
ends of their ranges. -/
theorem witness_RegisterWritesFollowTheMap :
    configWf (toy keyed0 [] []) = true ∧ (toy keyed0 [] []).halt = false ∧
    (∀ off, (hostOf (toy keyed0 [] []) [.regWrite off 8 5]).host = .regWrite off 8 5 :: []) ∧
    0x040 = 0x040 + 8 * (0 : Fin 8).val ∧ 0x078 = 0x040 + 8 * (7 : Fin 8).val ∧
    0x080 = 0x080 + 8 * (0 : Fin 16).val ∧ 0x0F8 = 0x080 + 8 * (15 : Fin 16).val ∧
    (∀ off ∈ [0x008, 0x038, 0x100, 0x108], off % 8 = 0 ∧ (8 ≤ off ∧ off < 0x040 ∨ 0x100 ≤ off)) :=
  ⟨by decide, rfl, fun _ => rfl, by decide⟩

theorem witness_RegisterReadsFollowTheMap :
    configWf (toy keyed0 [] []) = true ∧
    (∀ off, (hostOf (toy keyed0 [] []) [.regRead off 8]).host = .regRead off 8 :: []) ∧
    (∀ off ∈ [0x000, 0x008, 0x010, 0x018, 0x020, 0x028, 0x030, 0x038, 0x100, 0x108, 0x040 + 8 * (0 : Fin 8).val,
      0x040 + 8 * (7 : Fin 8).val, 0x080 + 8 * (0 : Fin 16).val, 0x080 + 8 * (15 : Fin 16).val], off % 8 = 0) :=
  ⟨by decide, fun _ => rfl, by decide⟩

theorem witness_PartialRegisterAccessIsRefused :
    configWf (hostOf halted [.regWrite 0x041 8 0]) = true ∧ 0x041 % 8 ≠ 0 ∧
    (hostOf halted [.regWrite 0x041 8 0]).host = .regWrite 0x041 8 0 :: [] ∧
    configWf (hostOf (toy keyed0 [] []) [.regRead 0x040 4]) = true ∧ 4 ≠ 8 ∧
    (hostOf (toy keyed0 [] []) [.regRead 0x040 4]).host = .regRead 0x040 4 :: [] ∧
    configWf (hostOf halted [.regWrite 0x040 16 0]) = true ∧ 16 ≠ 8 ∧
    (hostOf halted [.regWrite 0x040 16 0]).host = .regWrite 0x040 16 0 :: [] := by decide

/-- The last byte that exists and the first that does not, for stores and loads. -/
theorem witness_HostStoresAndLoadsBytes :
    configWf (toy keyed0 [] v20) = true ∧ Memory.wf (toy keyed0 [] v20).mem = true ∧
    rangeValid (toy keyed0 [] v20).memMap 0xFFFF [0x12#8].length = true ∧
    rangeValid (toy keyed0 [] v20).memMap 0x10000 [0x12#8].length = false ∧
    rangeValid (toy keyed0 [] v20).memMap 0xFFFF 1 = true ∧ rangeValid (toy keyed0 [] v20).memMap 0xFFFF 2 = false := by
  decide

theorem witness_ResetClearsTheEngine :
    configWf (hostOf halted [.reset]) = true ∧ (hostOf halted [.reset]).host = .reset :: [] := by decide

theorem witness_HostReadsSeeNoContext :
    ∃ t t', (hostOf (toy keyed0 [1] []) [.regRead 0x040 8]).host = .regRead 0x040 8 :: [] ∧
      step (hostOf (toy keyed0 [1] []) [.regRead 0x040 8]) = .next t ∧
      step { hostOf (toy keyed0 [1] []) [.regRead 0x040 8] with ctx := [active0, uninit1] } = .next t' := by
  obtain ⟨t, h, -⟩ := seen_some (f := fun t => t.hostReg) (v := 1)
    (show seen (step (hostOf (toy keyed0 [1] []) [.regRead 0x040 8])) _ = _ by decide)
  obtain ⟨t', h', -⟩ := seen_some (f := fun t => t.hostReg) (v := 1)
    (show seen (step { hostOf (toy keyed0 [1] []) [.regRead 0x040 8] with ctx := [active0, uninit1] }) _ = _ by decide)
  exact ⟨t, t', rfl, h, h'⟩

/-! Invariants and whole-machine rules -/

theorem witness_ResetSatisfiesTheInvariant :
    regWf toyReg = true ∧ Config.defaultParams.wf = true ∧ 1 ≤ 1 ∧ 256 ≤ 256 := by decide

/-- The state of V20 with the MAC command pending meets the invariant. -/
def ready : State := hostOf (toy active0 [0x2200, 2, 0x2300, 0x2400, 20] v20) [.regWrite 0 8 0x30]

set_option maxRecDepth 8000 in
theorem ready_inv : ready.Inv where
  config := by decide
  memCanonical := by decide
  memExists := by decide
  contexts := by decide
  haltFault := by decide
  noFault := by decide
  noSizing := by decide

set_option maxRecDepth 8000 in
theorem witness_EveryStepKeepsTheInvariant : ready.Inv ∧ ∃ t, step ready = .next t := by
  refine ⟨ready_inv, ?_⟩
  obtain ⟨t, h, -⟩ := seen_some (f := fun t => (t.a[4], t.halt)) (v := (20, false))
    (show seen (step ready) _ = _ by decide)
  exact ⟨t, h⟩

theorem witness_LegalActionsAlwaysComplete :
    ready.Inv ∧
    (∀ off width v rest, ready.host = .regWrite off width v :: rest → off % 8 = 0 ∧ width = 8) ∧
    (∀ off width rest, ready.host = .regRead off width :: rest → off % 8 = 0 ∧ width = 8) ∧
    (∀ addr b rest, ready.host = .memWrite addr b :: rest → rangeValid ready.memMap addr b.length = true) ∧
    (∀ addr n rest, ready.host = .memRead addr n :: rest → rangeValid ready.memMap addr n = true) := by
  refine ⟨ready_inv, ?_, ?_, ?_, ?_⟩ <;> simp [ready, hostOf]
  rintro off width v rest rfl rfl - -
  decide

theorem witness_NoStepChangesTheConfiguration : ∃ t, step ready = .next t := witness_EveryStepKeepsTheInvariant.2

theorem witness_IllFormedConfigurationIsRefused :
    configWf { toy keyed0 [] [] with reg := [] } = false ∧ configWf { toy keyed0 [] [] with ctx := [] } = false := by decide

/-- A command that completes and one that faults, on the same state. -/
theorem completes (i : Instr) (s : State) (h : seen (exec i s) (fun t => t.halt) = some false) :
    ∃ t, exec i s = .next t ∧ t.halt = false := seen_some h

theorem faults (i : Instr) (s : State) (h : seen (exec i s) (fun t => t.halt) = some true) :
    ∃ t, exec i s = .next t ∧ t.halt = true := seen_some h

theorem witness_FaultingCommandChangesOnlyFaultRegisters :
    (∃ t, (toy keyed0 [] []).halt = false ∧ exec (.encrypt 0 0) (toy keyed0 [] []) = .next t ∧ t.halt = true) ∧
    (∃ t, (cmdWrite 0x10).halt = false ∧ step (cmdWrite 0x10) = .next t ∧ t.halt = true) := by
  obtain ⟨t, h, ht⟩ := faults (.encrypt 0 0) (toy keyed0 [] []) (by decide)
  obtain ⟨u, k, hu⟩ := seen_some (f := fun t => t.halt) (v := true)
    (show seen (step (cmdWrite 0x10)) _ = _ by decide)
  exact ⟨⟨t, rfl, h, ht⟩, ⟨u, rfl, k, hu⟩⟩

theorem witness_HaltedEngineRunsNoCommand : halted.halt = true := rfl

/-- GETDESC sets the hidden flag. -/
theorem witness_CommandsLeaveTheHostSide :
    ∃ t, exec (.getdesc 1) (toy keyed0 [0x3000] []) = .next t ∧ t.netconvDone ≠ (toy keyed0 [0x3000] []).netconvDone := by
  obtain ⟨t, h, ht⟩ := seen_some (f := fun t => t.netconvDone) (v := true)
    (show seen (exec (.getdesc 1) (toy keyed0 [0x3000] [])) _ = _ by decide)
  exact ⟨t, h, by rw [ht]; decide⟩

theorem witness_OnlyMacAndNextivWriteOperands :
    (∃ t, exec (.mac 0) (toy uninit0 [] []) = .next t ∧ t.a[(4 : Fin 8)] ≠ (toy uninit0 [] []).a[(4 : Fin 8)]) ∧
    (∃ t, exec (.nextiv 0) (toy uninit0 [] []) = .next t ∧ t.a[(1 : Fin 8)] ≠ (toy uninit0 [] []).a[(1 : Fin 8)]) := by
  obtain ⟨t, h, ht⟩ := seen_some (f := fun t => t.a[(4 : Fin 8)]) (v := 20)
    (show seen (exec (.mac 0) (toy uninit0 [] [])) _ = _ by decide)
  obtain ⟨u, k, hu⟩ := seen_some (f := fun t => t.a[(1 : Fin 8)]) (v := 0xFFFFFFFFFFFFFFFF#64)
    (show seen (exec (.nextiv 0) (toy uninit0 [] [])) _ = _ by decide)
  exact ⟨⟨t, h, by rw [ht]; decide⟩, ⟨u, k, by rw [hu]; decide⟩⟩

/-- A span of three bytes, `01 02 03`, with the IV apart from it. -/
def span3 : State := toy keyed0 [0x2000, 0x2100, 3] [(0x2100, [1, 2, 3])]

set_option maxRecDepth 4000 in
theorem witness_OnlyTransformsChangeTheirAccumulator :
    ∃ t, exec (.encrypt 0 15) span3 = .next t ∧ t.csum[(15 : Fin 16)] ≠ span3.csum[(15 : Fin 16)] := by
  obtain ⟨t, h, ht⟩ := seen_some (f := fun t => t.csum[(15 : Fin 16)]) (v := 0x0204#16)
    (show seen (exec (.encrypt 0 15) span3) _ = _ by decide)
  exact ⟨t, h, by rw [ht]; decide⟩

set_option maxRecDepth 4000 in
theorem witness_OnlyFourCommandsWriteRet :
    (∃ t, exec (.decrypt 0 0) span3 = .next t ∧ t.ret ≠ span3.ret) ∧
    (∃ t, exec (.acktag 0) (toy active0 [0x3000, 4, 0x3100] []) = .next t ∧ t.ret ≠ 0) ∧
    (∃ t, exec .lookup span3 = .next t ∧ t.ret ≠ span3.ret) ∧
    (∃ t, exec (.gettype 1) span3 = .next t ∧ t.ret ≠ span3.ret) := by
  obtain ⟨t, h, ht⟩ := seen_some (f := fun t => t.ret) (v := 3)
    (show seen (exec (.decrypt 0 0) span3) _ = _ by decide)
  obtain ⟨u, k, hu⟩ := seen_some (f := fun t => t.ret) (v := 4)
    (show seen (exec (.acktag 0) (toy active0 [0x3000, 4, 0x3100] [])) _ = _ by decide)
  obtain ⟨v, l, hv⟩ := seen_some (f := fun t => t.ret) (v := 0xFFFFFFFFFFFFFFFF#64)
    (show seen (exec .lookup span3) _ = _ by decide)
  obtain ⟨w, m, hw⟩ := seen_some (f := fun t => t.ret) (v := 1)
    (show seen (exec (.gettype 1) span3) _ = _ by decide)
  exact ⟨⟨t, h, by rw [ht]; decide⟩, ⟨u, k, by rw [hu]; decide⟩, ⟨v, l, by rw [hv]; decide⟩, ⟨w, m, by rw [hw]; decide⟩⟩

/-- The bytes on both sides of the span, and of an ACKTAG output. -/
theorem witness_CommandsWriteOnlyTheirRange :
    (∃ t, Memory.wf span3.mem = true ∧ exec (.encrypt 0 0) span3 = .next t) ∧
    writtenRange span3 (.encrypt 0 0) = (0x2100, 3) ∧
    (0x20FF < (writtenRange span3 (.encrypt 0 0)).1 ∨
      (writtenRange span3 (.encrypt 0 0)).1 + (writtenRange span3 (.encrypt 0 0)).2 ≤ 0x20FF) ∧
    (0x2103 < (writtenRange span3 (.encrypt 0 0)).1 ∨
      (writtenRange span3 (.encrypt 0 0)).1 + (writtenRange span3 (.encrypt 0 0)).2 ≤ 0x2103) ∧
    writtenRange (toy active0 [0x3000, 4, 0x3100] []) (.acktag 0) = (0x3100, 4) := by
  obtain ⟨t, h, -⟩ := completes (.encrypt 0 0) span3 (by decide)
  exact ⟨⟨t, by decide, h⟩, by decide⟩

/-- INIT changes an absent slot. -/
theorem witness_SlotsFollowTheLifecycle :
    ∃ t y, exec (.init 1) (toy keyed0 [0x100] []) = .next t ∧ (toy keyed0 [0x100] []).ctx[1]? = some Ctx.absent ∧
      t.ctx[1]? = some y ∧ Ctx.absent ≠ y := by
  obtain ⟨t, h, ht⟩ := seen_some (f := fun t => t.ctx[1]?) (v := some uninit0)
    (show seen (exec (.init 1) (toy keyed0 [0x100] [])) _ = _ by decide)
  exact ⟨t, uninit0, h, by decide, ht, by decide⟩

/-- Another table with the same slot 0. -/
theorem witness_CommandsReadNoOtherContext :
    ∃ t, [keyed0, active0].length = span3.ctx.length ∧
      (namesContext (.encrypt 0 0) = true →
        [keyed0, active0][(Instr.encrypt 0 0).sel]? = span3.ctx[(Instr.encrypt 0 0).sel]?) ∧
      exec (.encrypt 0 0) span3 = .next t := by
  obtain ⟨t, h, -⟩ := completes (.encrypt 0 0) span3 (by decide)
  exact ⟨t, rfl, fun _ => rfl, h⟩

/-! Transform -/

/-- A span that crosses a block end under REF-TOY. -/
def span7 : State := toy keyed0 [0x2000, 0x2100, 7] [(0x2007, [0x0D]), (0x2100, [1, 2, 3, 4, 5, 6, 7])]

set_option maxRecDepth 4000 in
theorem span7_ready :
    TransformReady span7 0 (toyReg.getD 0 bareSuite) ⟨key1⟩ (fun n => toyEnc key1 (counterBlock (BitVec.ofNat 64 n))) := by
  refine ⟨by decide, by decide, ⟨keyed0, by decide, by decide, by decide, by decide⟩, by decide, by decide, by decide,
    by decide, ?_⟩
  decide

theorem witness_EncryptXorsSpanAndFoldsInput : ∃ s c S k kb, TransformReady s c S k kb := ⟨_, _, _, _, _, span7_ready⟩

theorem witness_DecryptXorsSpanFoldsOutputReturnsLength : ∃ s c S k kb, TransformReady s c S k kb :=
  ⟨_, _, _, _, _, span7_ready⟩

/-- One state for each clause: no slot, an absent one, a finished one, a MAC-only suite, no key, no length, an IV and a
span that end one byte past memory, and a counter block that ends in FF under the failing stub. -/
theorem witness_TransformChecksInOrder :
    span7.halt = false ∧ span7.ctx[2]? = none ∧ span7.ctx[1]? = some Ctx.absent ∧ Ctx.absent.st = .absent ∧
    (toy finished0 [] []).ctx[0]? = some finished0 ∧ finished0.st = .finished ∧
    ((toy keyed1 [] []).ctx[0]? = some keyed1 ∧ keyed1.st = .keyed ∧
      (toy keyed1 [] []).reg[keyed1.suite]? = some suite1 ∧ suite1.caps.xform = false) ∧
    ((toy uninit0 [] []).reg[uninit0.suite]? = some suite0 ∧ suite0.caps.xform = true ∧ uninit0.bulk = none) ∧
    (toy keyed0 [0x2000, 0x2100, 0] []).a[2] = 0 ∧
    ((toy keyed0 [0xFFF9, 0x2100, 1] []).a[2] ≠ 0 ∧
      rangeValid (toy keyed0 [0xFFF9, 0x2100, 1] []).memMap (toy keyed0 [0xFFF9, 0x2100, 1] []).a[0].toNat 8 = false) ∧
    ((toy keyed0 [0xFFF8, 0xFFFF, 2] []).a[2] ≠ 0 ∧
      rangeValid (toy keyed0 [0xFFF8, 0xFFFF, 2] []).memMap (toy keyed0 [0xFFF8, 0xFFFF, 2] []).a[0].toNat 8 = true ∧
      rangeValid (toy keyed0 [0xFFF8, 0xFFFF, 2] []).memMap (toy keyed0 [0xFFF8, 0xFFFF, 2] []).a[1].toNat
        (toy keyed0 [0xFFF8, 0xFFFF, 2] []).a[2].toNat = false) := by decide

/-- Counter values F0 to FF: block 15 ends in FF. -/
def span256 : State := failing keyed0 [0x2000, 0x2100, 256] [(0x2007, [0xF0])]

set_option maxRecDepth 8000 in
theorem witness_TransformChecksInOrder_primitive :
    span256.halt = false ∧ span256.ctx[0]? = some keyed0 ∧ keyed0.st = .keyed ∧
    span256.reg[keyed0.suite]? = some fail0 ∧ fail0.caps.xform = true ∧ keyed0.bulk = some ⟨key1⟩ ∧
    span256.a[2] ≠ 0 ∧ rangeValid span256.memMap span256.a[0].toNat 8 = true ∧
    rangeValid span256.memMap span256.a[1].toNat span256.a[2].toNat = true ∧
    15 < (seqOf span256 % 16 + span256.a[2].toNat + 15) / 16 ∧
    bcEnc fail0.impl ⟨key1⟩
      (counterBlock (BitVec.ofNat 64 (seqOf span256 / 16 * 16 + span256.params.ctrStride.toNat * 15))) = none := by decide

theorem span3_apart : span3.a[0].toNat + 8 ≤ span3.a[1].toNat ∨ span3.a[1].toNat + span3.a[2].toNat ≤ span3.a[0].toNat := by
  decide

theorem witness_DecryptUndoesEncrypt :
    ∃ t, span3.halt = false ∧ Memory.wf span3.mem = true ∧
      (span3.a[0].toNat + 8 ≤ span3.a[1].toNat ∨ span3.a[1].toNat + span3.a[2].toNat ≤ span3.a[0].toNat) ∧
      exec (.encrypt 0 0) span3 = .next t ∧ t.halt = false := by
  obtain ⟨t, h, ht⟩ := completes (.encrypt 0 0) span3 (by decide)
  exact ⟨t, rfl, by decide, span3_apart, h, ht⟩

/-- Accumulator 0 holds the sum after the ENCRYPT; accumulator 1 still holds what 0 held before. -/
theorem witness_BothDirectionsFoldThePlaintext :
    ∃ t u, span3.halt = false ∧ Memory.wf span3.mem = true ∧
      (span3.a[0].toNat + 8 ≤ span3.a[1].toNat ∨ span3.a[1].toNat + span3.a[2].toNat ≤ span3.a[0].toNat) ∧
      exec (.encrypt 0 0) span3 = .next t ∧ t.halt = false ∧ t.csum[(1 : Fin 16)] = span3.csum[(0 : Fin 16)] ∧
      exec (.decrypt 0 1) t = .next u := by
  obtain ⟨t, h, ht⟩ := seen_some
    (f := fun t => (t.halt, t.csum[(1 : Fin 16)], seen (exec (.decrypt 0 1) t) (fun u => u.halt)))
    (v := (false, 0, some false)) (show seen (exec (.encrypt 0 0) span3) _ = _ by decide)
  simp only [Prod.mk.injEq] at ht
  obtain ⟨u, hu, -⟩ := seen_some ht.2.2
  exact ⟨t, u, rfl, by decide, span3_apart, h, ht.1, by rw [ht.2.1]; decide, hu⟩

/-- Cuts inside a block and at its end. -/
theorem witness_CounterBlocksAgreeAcrossCuts :
    (0 ≤ 0 ∧ 0 < 2 ^ 64) ∧ (16 ≤ 31 ∧ 16 < 2 ^ 64) ∧ (2 ^ 64 - 1 ≤ 2 ^ 64 ∧ 2 ^ 64 - 1 < 2 ^ 64) := by decide

/-- P5 with shorter spans: 2 and 3 bytes at sequence values 0 and 2, and the 5 bytes at once. -/
def chunk : State := toy keyed0 [0x2000, 0x2100, 0] [(0x200F, [2]), (0x2100, [1, 2, 3, 4, 5])]
def chunkFirst : State := chunk.setA 2 (BitVec.ofNat 64 2)
def chunkNext (t1 : State) : State := ((t1.setA 0 0x2008).setA 1 (BitVec.ofNat 64 (chunk.a[1].toNat + 2))).setA 2 (BitVec.ofNat 64 3)

set_option maxRecDepth 8000 in
theorem witness_ChunkedEncryptEqualsOneCall :
    ∃ one t1 t2, chunk.halt = false ∧ Memory.wf chunk.mem = true ∧ 1 ≤ 2 ∧ 1 ≤ 3 ∧ 2 + 3 < 2 ^ 64 ∧
      (chunk.params.ctrStride = .sixteen ∨ seqOf chunk % 16 + 2 < 16) ∧
      exec (.encrypt 0 0) (chunk.setA 2 (BitVec.ofNat 64 (2 + 3))) = .next one ∧ one.halt = false ∧
      exec (.encrypt 0 0) chunkFirst = .next t1 ∧ t1.halt = false ∧
      seqOf (chunkNext t1) = (seqOf chunk + 2) % 2 ^ 64 ∧
      exec (.encrypt 0 0) (chunkNext t1) = .next t2 ∧ t2.halt = false := by
  obtain ⟨one, h, ho⟩ := completes (.encrypt 0 0) (chunk.setA 2 (BitVec.ofNat 64 (2 + 3))) (by decide)
  obtain ⟨t1, h1, ht⟩ := seen_some
    (f := fun t => (t.halt, seqOf (chunkNext t), seen (exec (.encrypt 0 0) (chunkNext t)) (fun u => u.halt)))
    (v := (false, 2, some false)) (show seen (exec (.encrypt 0 0) chunkFirst) _ = _ by decide)
  simp only [Prod.mk.injEq] at ht
  obtain ⟨t2, h2, ht2⟩ := seen_some ht.2.2
  exact ⟨one, t1, t2, by decide, by decide, by decide, by decide, by decide, by decide, h, ho, h1, ht.1,
    by rw [ht.2.1]; decide, h2, ht2⟩

theorem witness_BigEndianBytesRoundTrip : 0 < 256 ^ 0 ∧ 256 ^ 8 - 1 < 256 ^ 8 := by decide

theorem witness_EvenCutsKeepTheChecksum : ([] : List Byte).length % 2 = 0 ∧ (bytes [1, 2]).length % 2 = 0 := by decide

/-- `len` = 1, and a state that records SIZING (no run reaches it) on which a command answers a next state. -/
theorem witness_SizingIsUnreachable :
    1 ≤ 1 ∧ ∃ t, exec .lookup { span3 with fault := .sizing } = .next t ∧ t.fault = .sizing := by
  obtain ⟨t, h, ht⟩ := seen_some (f := fun t => t.fault) (v := .sizing)
    (show seen (exec .lookup { span3 with fault := .sizing }) _ = _ by decide)
  exact ⟨by decide, t, h, ht⟩

/-! Lifecycle -/

/-- An absent and a finished slot, entries 0 and 1. -/
theorem witness_InitMakesAFreshContext :
    (toy keyed0 [0x100] []).halt = false ∧ regWf (toy keyed0 [0x100] []).reg = true ∧
    (toy keyed0 [0x100] []).ctx[1]? = some Ctx.absent ∧ Ctx.absent.st = .absent ∧
    (toy keyed0 [0x100] []).reg[0]? = some suite0 ∧ (toy keyed0 [0x100] []).a[0] = suite0.id.setWidth 64 ∧
    (toy finished0 [0x200] []).ctx[0]? = some finished0 ∧ finished0.st = .finished ∧
    (toy finished0 [0x200] []).reg[1]? = some suite1 ∧
    (toy finished0 [0x200] []).a[0] = suite1.id.setWidth 64 := by decide

theorem witness_InitChecksInOrder :
    span3.halt = false ∧ span3.ctx[2]? = none ∧ (toy uninit0 [] []).ctx[0]? = some uninit0 ∧ uninit0.st = .uninit ∧
    span3.ctx[0]? = some keyed0 ∧ keyed0.st = .keyed ∧ (toy active0 [] []).ctx[0]? = some active0 ∧
    active0.st = .active ∧ (toy finished0 [0x500] []).ctx[0]? = some finished0 ∧ finished0.st = .finished ∧
    (∀ S ∈ (toy finished0 [0x500] []).reg, S.id.setWidth 64 ≠ (toy finished0 [0x500] []).a[0]) := by decide

/-- A key of exactly 16 bytes, for a SYM and for a MAC context. -/
theorem witness_SetkeyInstallsOneKey :
    ((toy uninit0 [0x1000, 16] []).halt = false ∧ (toy uninit0 [0x1000, 16] []).ctx[0]? = some uninit0 ∧
      uninit0.st = .uninit ∧ rangeValid (toy uninit0 [0x1000, 16] []).memMap 0x1000 16 = true ∧
      (toy uninit0 [0x1000, 16] []).reg[uninit0.suite]? = some suite0 ∧ suite0.caps.setkey = true ∧ suite0.family = .sym ∧
      16 ≤ (toy uninit0 [0x1000, 16] []).a[1].toNat ∧
      bcKeysched suite0.impl ((List.range 16).map fun j => memGet (toy uninit0 [0x1000, 16] []).mem (0x1000 + j)) =
        some ⟨List.replicate 16 0⟩) ∧
    ((toy uninit1 [0x1000, 16] []).ctx[0]? = some uninit1 ∧ uninit1.st = .uninit ∧
      (toy uninit1 [0x1000, 16] []).reg[uninit1.suite]? = some suite1 ∧ suite1.caps.setkey = true ∧ suite1.family = .mac ∧
      (toy uninit1 [0x1000, 16] []).params.macKeyMinBytes ≤ (toy uninit1 [0x1000, 16] []).a[1].toNat ∧
      macKeysched suite1.impl ((List.range 16).map fun j => memGet (toy uninit1 [0x1000, 16] []).mem (0x1000 + j)) =
        some ⟨List.replicate 16 0⟩) := by decide

/-- Each clause, the lengths at 15 and 16, a key that ends one byte past memory, and a key that ends in FF. -/
theorem witness_SetkeyChecksInOrder :
    span3.ctx[2]? = none ∧ span3.ctx[1]? = some Ctx.absent ∧ (toy finished0 [] []).ctx[0]? = some finished0 ∧
    ((toy uninit2 [] []).reg[uninit2.suite]? = some bareSuite ∧ bareSuite.caps.setkey = false) ∧
    ((toy keyed0 [] []).reg[keyed0.suite]? = some suite0 ∧ suite0.caps.setkey = true ∧ keyed0.st = .keyed ∧
      active0.suite = keyed0.suite ∧ active0.st = .active ∧ suite0.family = .sym ∧
      (toy uninit0 [0x1000, 15] []).a[1].toNat < 16 ∧ 16 ≤ (toy uninit0 [0xFFF1, 16] []).a[1].toNat ∧
      rangeValid (toy uninit0 [0xFFF1, 16] []).memMap (toy uninit0 [0xFFF1, 16] []).a[0].toNat
        (toy uninit0 [0xFFF1, 16] []).a[1].toNat = false) ∧
    ((toy uninit1 [] []).reg[uninit1.suite]? = some suite1 ∧ suite1.caps.setkey = true ∧ uninit1.st = .uninit ∧
      suite1.family = .mac ∧
      (toy uninit1 [0x1000, 15] []).a[1].toNat < (toy uninit1 [0x1000, 15] []).params.macKeyMinBytes) ∧
    ((failing uninit0 [] []).reg[uninit0.suite]? = some fail0 ∧ fail0.family = .sym ∧
      bcKeysched fail0.impl (memRead (failing uninit0 [0x1000, 16] [(0x100F, [0xFF])]).mem 0x1000 16) = none) ∧
    ((failing uninit1 [] []).reg[uninit1.suite]? = some fail1 ∧ fail1.family = .mac ∧
      macKeysched fail1.impl (memRead (failing uninit1 [0x1000, 16] [(0x100F, [0xFF])]).mem 0x1000 16) = none) := by
  decide

/-- Three keys of 16 bytes, from UNINIT and from KEYED. -/
def threeKeys (x : Ctx) : State := toy x [0x1000, 16, 0x1010, 16, 0x1020, 16] []

theorem witness_SetkeysInstallsThreeKeys :
    (threeKeys uninit0).halt = false ∧ (threeKeys uninit0).ctx[0]? = some uninit0 ∧ uninit0.st = .uninit ∧
    (threeKeys keyed0).ctx[0]? = some keyed0 ∧ keyed0.st = .keyed ∧ uninit0.sub = some sub0 ∧ keyed0.sub = some sub0 ∧
    (threeKeys uninit0).reg[0]? = some suite0 ∧ suite0.caps.setkeys = true ∧
    (threeKeys uninit0).reg[sub0.suite]? = some suite1 ∧
    16 ≤ (threeKeys uninit0).a[1].toNat ∧ (threeKeys uninit0).params.macKeyMinBytes ≤ (threeKeys uninit0).a[3].toNat ∧
    16 ≤ (threeKeys uninit0).a[5].toNat ∧ rangeValid (threeKeys uninit0).memMap 0x1000 16 = true ∧
    rangeValid (threeKeys uninit0).memMap 0x1010 16 = true ∧ rangeValid (threeKeys uninit0).memMap 0x1020 16 = true ∧
    bcKeysched suite0.impl ((List.range 16).map fun j => memGet (threeKeys uninit0).mem (0x1000 + j)) =
      some ⟨List.replicate 16 0⟩ ∧
    macKeysched suite1.impl ((List.range 16).map fun j => memGet (threeKeys uninit0).mem (0x1010 + j)) =
      some ⟨List.replicate 16 0⟩ ∧
    ackKeysched suite0.impl ((List.range 16).map fun j => memGet (threeKeys uninit0).mem (0x1020 + j)) =
      some ⟨List.replicate 16 0⟩ := by decide

/-- Each clause: short keys, keys that end one byte past memory, keys that end in FF. -/
theorem witness_SetkeysChecksInOrder :
    (threeKeys uninit0).ctx[2]? = none ∧ (threeKeys uninit0).ctx[1]? = some Ctx.absent ∧
    (threeKeys finished0).ctx[0]? = some finished0 ∧
    ((threeKeys uninit1).reg[uninit1.suite]? = some suite1 ∧ suite1.caps.setkeys = false) ∧
    ((threeKeys active0).reg[active0.suite]? = some suite0 ∧ suite0.caps.setkeys = true ∧ active0.st = .active) ∧
    uninit0.sub = some sub0 ∧ (threeKeys uninit0).reg[sub0.suite]? = some suite1 ∧
    (toy uninit0 [0x1000, 15] []).a[1].toNat < 16 ∧
    (toy uninit0 [0x1000, 16, 0x1010, 15] []).a[3].toNat < (toy uninit0 [] []).params.macKeyMinBytes ∧
    (toy uninit0 [0x1000, 16, 0x1010, 16, 0x1020, 15] []).a[5].toNat < 16 ∧
    rangeValid (threeKeys uninit0).memMap 0xFFF1 16 = false ∧ rangeValid (threeKeys uninit0).memMap 0xFFF0 16 = true ∧
    (failReg[0]? = some fail0 ∧ failReg[1]? = some fail1 ∧
      bcKeysched fail0.impl (memRead (put [(0x100F, [0xFF])]) 0x1000 16) = none ∧
      bcKeysched fail0.impl (memRead (put [(0x101F, [0xFF])]) 0x1000 16) ≠ none ∧
      macKeysched fail1.impl (memRead (put [(0x101F, [0xFF])]) 0x1010 16) = none ∧
      bcKeysched fail0.impl (memRead (put [(0x102F, [0xFF])]) 0x1000 16) ≠ none ∧
      macKeysched fail1.impl (memRead (put [(0x102F, [0xFF])]) 0x1010 16) ≠ none ∧
      ackKeysched fail0.impl (memRead (put [(0x102F, [0xFF])]) 0x1020 16) = none) := by decide

theorem witness_FinishErasesAndIsIdempotent :
    span3.halt = false ∧ span3.ctx[2]? = none ∧ span3.ctx[1]? = some Ctx.absent ∧ Ctx.absent.st = .absent ∧
    (toy finished0 [] []).ctx[0]? = some finished0 ∧ finished0.st = .finished ∧
    (toy active0 [] []).ctx[0]? = some active0 ∧ active0.st = .active ∧ span3.ctx[0]? = some keyed0 ∧
    keyed0.st = .keyed ∧ uninit0.st = .uninit ∧ (∃ t, exec (.finish 0) span3 = .next t) := by
  obtain ⟨t, h, -⟩ := completes (.finish 0) span3 (by decide)
  exact ⟨rfl, rfl, rfl, rfl, rfl, rfl, rfl, rfl, rfl, rfl, rfl, t, h⟩

set_option maxRecDepth 8000 in
theorem witness_NoKeyOutlivesFinishOrReset :
    ready.Inv ∧ (∃ t y, ready.halt = false ∧ exec (.finish 0) ready = .next t ∧ t.ctx[0]? = some y) ∧
    (hostOf ready [.reset]).Inv ∧ (hostOf ready [.reset]).host = .reset :: [] ∧
    (∃ t, step (hostOf ready [.reset]) = .next t) := by
  obtain ⟨t, h, ht⟩ := seen_some (f := fun t => t.ctx[0]?) (v := some finished0)
    (show seen (exec (.finish 0) ready) _ = _ by decide)
  have hi := ready_inv
  refine ⟨hi, ⟨t, finished0, rfl, h, ht⟩,
    ⟨hi.config, hi.memCanonical, hi.memExists, hi.contexts, hi.haltFault, hi.noFault, hi.noSizing⟩, rfl, ?_⟩
  obtain ⟨u, k, -⟩ := seen_some (f := fun t => t.halt) (v := false)
    (show seen (step (hostOf ready [.reset])) _ = _ by decide)
  exact ⟨u, k⟩

/-! Authentication -/

/-- Capacity 19, on a context without keys. -/
theorem witness_MacProbeAnswersTwenty :
    (toy uninit0 [0, 0, 0, 0, 19] []).halt = false ∧ (toy uninit0 [0, 0, 0, 0, 19] []).ctx[0]? = some uninit0 ∧
    uninit0.st = .uninit ∧ (toy uninit0 [0, 0, 0, 0, 19] []).a[4].toInt < 20 ∧
    (toy uninit0 [0, 0, 0, 0, 19] []).reg[uninit0.suite]? = some suite0 ∧ suite0.caps.mac = true := by decide

/-- V20, through the Sub-Authenticator. -/
def mac20 : State := toy active0 [0x2200, 2, 0x2300, 0x2400, 20] v20
def mac20segs : List (Nat × Nat) := [(0x2000, 4), (0x2100, 5)]
def mac20iv : IvBytes := Vector.ofFn fun i : Fin 8 => (bytes [0, 0, 0, 0, 0, 0, 0, 7]).getD i.val 0

set_option maxRecDepth 8000 in
theorem witness_MacWritesTwentyByteTag :
    (mac20.halt = false ∧ Memory.wf mac20.mem = true ∧ mac20.ctx[0]? = some active0 ∧ active0.st = .active ∧
      mac20.reg[active0.suite]? = some suite0 ∧ suite0.caps.mac = true ∧ 20 ≤ mac20.a[4].toInt ∧
      (suite0.family = .sym ∧ active0.sub = some sub1) ∧ mac20.reg[sub1.suite]? = some suite1 ∧
      20 ≤ suite1.macNativeLen ∧
      sub1.mac = some ⟨key2⟩ ∧ rangeValid mac20.memMap mac20.a[0].toNat (16 * mac20.a[1].toNat) = true ∧
      mac20segs.length = mac20.a[1].toNat ∧
      (∀ n, n < mac20.a[1].toNat → mac20segs[n]? = some (beNat (memRead mac20.mem (mac20.a[0].toNat + 16 * n) 8),
        beNat (memRead mac20.mem (mac20.a[0].toNat + 16 * n + 8) 8))) ∧
      (∀ p ∈ mac20segs, rangeValid mac20.memMap p.1 p.2 = true) ∧ rangeValid mac20.memMap mac20.a[2].toNat 8 = true ∧
      (∀ j : Fin 8, mac20iv[j] = memGet mac20.mem (mac20.a[2].toNat + j.val)) ∧
      rangeValid mac20.memMap mac20.a[3].toNat 20 = true) ∧
    ∃ full, macFn suite1.impl suite1.macNativeLen ⟨key2⟩ mac20iv
      (mac20segs.flatMap fun p => memRead mac20.mem p.1 p.2) = some full :=
  ⟨by decide, _, rfl⟩

/-- The MAC-only context is its own owner. -/
theorem witness_MacWritesTwentyByteTag_macOnly :
    (toy keyed1 [] []).ctx[0]? = some keyed1 ∧ keyed1.st = .keyed ∧
    (toy keyed1 [] []).reg[keyed1.suite]? = some suite1 ∧ suite1.caps.mac = true ∧ suite1.family = .mac ∧
    20 ≤ suite1.macNativeLen ∧ keyed1.toCtxCore.mac = some ⟨key2⟩ := by decide

/-- A list whose second segment ends past memory. -/
def badList : List (Nat × List Nat) := [(0x2206, [0x20, 0]), (0x220F, [4]), (0x2216, [0xFF, 0xFF]), (0x221F, [2])]

set_option maxRecDepth 8000 in
/-- Each clause: no key, a list, a second segment, an IV and an output that end past memory, a message that ends in FF. -/
theorem witness_MacChecksInOrder :
    mac20.halt = false ∧ mac20.ctx[2]? = none ∧ mac20.ctx[1]? = some Ctx.absent ∧
    (toy finished0 [] []).ctx[0]? = some finished0 ∧
    ((toy uninit2 [] []).reg[uninit2.suite]? = some bareSuite ∧ bareSuite.caps.mac = false) ∧
    (mac20.reg[active0.suite]? = some suite0 ∧ suite0.caps.mac = true ∧ 20 ≤ mac20.a[4].toInt ∧ suite0.family = .sym ∧
      uninit0.sub = some sub0 ∧ active0.sub = some sub1 ∧ mac20.reg[sub0.suite]? = some suite1 ∧
      mac20.reg[sub1.suite]? = some suite1 ∧ sub0.mac = none ∧ sub1.mac = some ⟨key2⟩ ∧
      rangeValid mac20.memMap 0xFFE1 (16 * 2) = false ∧ rangeValid mac20.memMap 0x2200 (16 * 2) = true ∧
      (segmentEntry (put badList) 0x2200 0 = (0x2000, 4) ∧ segmentEntry (put badList) 0x2200 1 = (0xFFFF, 2) ∧
        rangeValid mac20.memMap 0x2000 4 = true ∧ rangeValid mac20.memMap 0xFFFF 2 = false) ∧
      rangeValid mac20.memMap 0xFFF9 8 = false ∧ rangeValid mac20.memMap 0xFFF8 8 = true ∧
      macFn suite1.impl suite1.macNativeLen ⟨key2⟩ (ivOf (memRead mac20.mem 0x2300 8))
        (segmentsMessage mac20.mem (segmentList mac20.mem 0x2200 2)) ≠ none ∧
      rangeValid mac20.memMap 0xFFED 20 = false) ∧
    (failReg[1]? = some fail1 ∧
      macFn fail1.impl fail1.macNativeLen ⟨key2⟩ (ivOf (memRead (put [(0x2000, [0xFF])]) 0x2300 8))
        (segmentsMessage (put [(0x2000, [0xFF])]) [(0x2000, 1)]) = none) := by decide

/-- The message of V20 in one segment, elsewhere. -/
def mac20one : State :=
  toy active0 [0x2200, 1, 0x2300, 0x2500, 20]
    [(0x2000, [0x45, 0, 0, 0x28, 0xde, 0xad, 0xbe, 0xef, 0x01]), (0x2206, [0x20, 0]), (0x220F, [9]), (0x2307, [7])]

set_option maxRecDepth 8000 in
theorem witness_MacTagIgnoresSegmentation :
    ∃ t t', mac20.halt = false ∧ mac20one.halt = false ∧ Memory.wf mac20.mem = true ∧ Memory.wf mac20one.mem = true ∧
      regWf mac20.reg = true ∧ mac20one.ctx = mac20.ctx ∧ mac20one.reg = mac20.reg ∧
      (∀ x ∈ mac20.ctx, ctxWf mac20.reg x = true) ∧ 20 ≤ mac20.a[4].toInt ∧ 20 ≤ mac20one.a[4].toInt ∧
      memRead mac20one.mem mac20one.a[2].toNat 8 = memRead mac20.mem mac20.a[2].toNat 8 ∧
      segmentsMessage mac20one.mem (segmentList mac20one.mem mac20one.a[0].toNat mac20one.a[1].toNat) =
        segmentsMessage mac20.mem (segmentList mac20.mem mac20.a[0].toNat mac20.a[1].toNat) ∧
      exec (.mac 0) mac20 = .next t ∧ t.halt = false ∧ exec (.mac 0) mac20one = .next t' ∧ t'.halt = false := by
  obtain ⟨t, h, ht⟩ := completes (.mac 0) mac20 (by decide)
  obtain ⟨t', h', ht'⟩ := completes (.mac 0) mac20one (by decide)
  exact ⟨t, t', rfl, rfl, by decide, by decide, by decide, rfl, rfl, by decide, by decide, by decide, by decide, by decide,
    h, ht, h', ht'⟩

/-- The ACKTAG vector, and another context with the same ack key and data. -/
def ack4 : State := toy active0 [0x3000, 4, 0x3100] [(0x3003, [0x2a])]
def ack4' : State := toy { active0 with bulk := some ⟨key2⟩ } [0x3010, 4, 0x3200] [(0x3013, [0x2a])]

theorem witness_AcktagWritesStreamTag :
    ∃ S tag a', ack4.halt = false ∧ Memory.wf ack4.mem = true ∧ ack4.ctx[0]? = some active0 ∧ active0.st = .active ∧
      ack4.reg[active0.suite]? = some S ∧ S.caps.acktag = true ∧ active0.ack = some ⟨key3⟩ ∧
      rangeValid ack4.memMap ack4.a[0].toNat ack4.a[1].toNat = true ∧
      ackStream S.impl ⟨key3⟩ ((List.range ack4.a[1].toNat).map fun j => memGet ack4.mem (ack4.a[0].toNat + j)) =
        some (tag, a') ∧
      rangeValid ack4.memMap ack4.a[2].toNat tag.length = true ∧ tag.length < 2 ^ 64 :=
  ⟨_, bytes [0x85, 0x84, 0x87, 0xac], ⟨key3⟩, rfl, by decide, rfl, rfl, rfl, by decide, rfl, by decide, by decide,
    by decide, by decide⟩

/-- Each clause: data and output that end past memory, data that ends in FF. -/
theorem witness_AcktagChecksInOrder :
    ack4.halt = false ∧ ack4.ctx[2]? = none ∧ ack4.ctx[1]? = some Ctx.absent ∧
    (toy finished0 [] []).ctx[0]? = some finished0 ∧
    ((toy keyed1 [] []).reg[keyed1.suite]? = some suite1 ∧ suite1.caps.acktag = false) ∧
    (ack4.reg[keyed0.suite]? = some suite0 ∧ suite0.caps.acktag = true ∧ keyed0.ack = none ∧ active0.ack = some ⟨key3⟩ ∧
      rangeValid ack4.memMap 0xFFFD 4 = false ∧ rangeValid ack4.memMap 0x3000 4 = true ∧
      ackStream suite0.impl ⟨key3⟩ (memRead ack4.mem 0x3000 4) = some (bytes [0x85, 0x84, 0x87, 0xac], ⟨key3⟩) ∧
      rangeValid ack4.memMap 0xFFFD (bytes [0x85, 0x84, 0x87, 0xac]).length = false) ∧
    (failReg[0]? = some fail0 ∧ ackStream fail0.impl ⟨key3⟩ (memRead (put [(0x3000, [0xFF])]) 0x3000 1) = none) := by
  decide

theorem witness_AcktagDependsOnKeyAndDataOnly :
    ∃ x' t t', ack4.halt = false ∧ ack4'.halt = false ∧ Memory.wf ack4.mem = true ∧ Memory.wf ack4'.mem = true ∧
      ack4.ctx[0]? = some active0 ∧ ack4'.ctx[0]? = some x' ∧ ack4'.reg[x'.suite]? = ack4.reg[active0.suite]? ∧
      x'.ack = active0.ack ∧
      memRead ack4'.mem ack4'.a[0].toNat ack4'.a[1].toNat = memRead ack4.mem ack4.a[0].toNat ack4.a[1].toNat ∧
      exec (.acktag 0) ack4 = .next t ∧ t.halt = false ∧ exec (.acktag 0) ack4' = .next t' ∧ t'.halt = false := by
  obtain ⟨t, h, ht⟩ := completes (.acktag 0) ack4 (by decide)
  obtain ⟨t', h', ht'⟩ := completes (.acktag 0) ack4' (by decide)
  exact ⟨{ active0 with bulk := some ⟨key2⟩ }, t, t', rfl, rfl, by decide, by decide, rfl, rfl, rfl, rfl, by decide, h, ht,
    h', ht'⟩

/-! Registry -/

/-- An identifier that is there, one that is not, and one above 32 bits. -/
theorem witness_LookupReturnsIndexOrAllOnes :
    (toy keyed0 [0x200] []).halt = false ∧ regWf (toy keyed0 [0x200] []).reg = true ∧
    (toy keyed0 [0x200] []).reg[1]? = some suite1 ∧ suite1.id.setWidth 64 = (toy keyed0 [0x200] []).a[0] ∧
    (∀ S ∈ (toy keyed0 [0x500] []).reg, S.id.setWidth 64 ≠ (toy keyed0 [0x500] []).a[0]) ∧
    2 ^ 32 ≤ (toy keyed0 [0x100000000] []).a[0].toNat := by decide

/-- No entry, a range that ends one byte past memory, and one that ends with it. -/
theorem witness_GetdescWritesIdentifier :
    (toy keyed0 [0xFFFC] []).halt = false ∧ Memory.wf (toy keyed0 [0xFFFC] []).mem = true ∧
    (toy keyed0 [] []).reg[3]? = none ∧ (toy keyed0 [] []).reg[0]? = some suite0 ∧
    rangeValid (toy keyed0 [0xFFFD] []).memMap (toy keyed0 [0xFFFD] []).a[0].toNat 4 = false ∧
    rangeValid (toy keyed0 [0xFFFC] []).memMap (toy keyed0 [0xFFFC] []).a[0].toNat 4 = true := by decide

theorem witness_GettypeReturnsFamily :
    span3.halt = false ∧ span3.reg[3]? = none ∧ (span3.reg[0]? = some suite0 ∧ suite0.family = .sym) ∧
    (span3.reg[1]? = some suite1 ∧ suite1.family = .mac) := by decide

theorem witness_NextivSignalsSequentialMode :
    span3.halt = false ∧ span3.reg[3]? = none ∧ span3.reg[0]? = some suite0 ∧ span3.a[1] ≠ 0 ∧
    (toy keyed0 [0, 0] []).a[1] = 0 ∧ (toy keyed0 [0, 0] []).params.wf = true := by decide

end Sys2Proof.Machine.Tests
end

/-! Big-endian bytes and numbers are inverse to each other (spec/00_scope.md R8). -/

namespace Sys2Proof.Machine

/-- The `n` bytes hold the number modulo `256 ^ n`, whatever its size. -/
theorem beNat_beBytes (n v : Nat) : beNat (beBytes n v) = v % 256 ^ n := by
  induction n with
  | zero => simp [beBytes, beNat, Nat.mod_one]
  | succ n ih =>
    calc beNat (beBytes (n + 1) v)
        = v / 256 ^ n % 256 * 256 ^ n + v % 256 ^ n := by
          rw [beBytes, beNat_cons, beBytes_length, ih, BitVec.toNat_ofNat]
      _ = v % 256 ^ (n + 1) := by rw [pow_succ, Nat.mod_mul, Nat.add_comm, Nat.mul_comm]

/-- A multiple of `256 ^ n` added to a number leaves its low `n` bytes as they are. -/
theorem beBytes_add_mul_pow (n v k : Nat) : beBytes n (v + k * 256 ^ n) = beBytes n v := by
  induction n generalizing k with
  | zero => rfl
  | succ n ih =>
    have hshift : v + k * 256 ^ (n + 1) = v + k * 256 * 256 ^ n := by rw [pow_succ', Nat.mul_assoc]
    have hhead : BitVec.ofNat 8 ((v + k * 256 * 256 ^ n) / 256 ^ n) = BitVec.ofNat 8 (v / 256 ^ n) := by
      rw [Nat.add_mul_div_right _ _ (by positivity)]
      exact BitVec.eq_of_toNat_eq (by simp)
    rw [hshift, beBytes, beBytes, ih, hhead]

theorem beBytes_beNat (b : List Byte) : beBytes b.length (beNat b) = b := by
  induction b with
  | nil => rfl
  | cons x b ih =>
    have hhead : (beNat b + x.toNat * 256 ^ b.length) / 256 ^ b.length = x.toNat := by
      rw [Nat.add_mul_div_right _ _ (by positivity), Nat.div_eq_of_lt (beNat_lt b), Nat.zero_add]
    rw [beNat_cons, Nat.add_comm, List.length_cons, beBytes, hhead, beBytes_add_mul_pow, ih, BitVec.ofNat_toNat,
      BitVec.setWidth_eq]

/-- Settles O38: `beNat_beBytes`, where a number below `256 ^ n` is its own remainder, and `beBytes_beNat`. -/
theorem bigEndianBytesRoundTrip : Obligations.BigEndianBytesRoundTrip :=
  ⟨fun n v hv => ⟨beBytes_length n v, by rw [beNat_beBytes, Nat.mod_eq_of_lt hv]⟩, beBytes_beNat⟩

end Sys2Proof.Machine

/-! The codes a command can trap with, said once for every command (spec/60_exceptions.md R157). -/

namespace Sys2Proof.Machine

/-- Every trap of `w` has a code listed in `codes`. -/
def TrapsIn {α : Type} (codes : List FaultCode) (w : Except Stop α) : Prop :=
  ∀ code info, w = .error (.trap code info) → code ∈ codes

variable {α β : Type} {codes : List FaultCode}

@[simp] theorem trapsIn_ok (a : α) : TrapsIn codes (.ok a : Except Stop α) := nofun

/-- A sequence of checks traps where its first part does, or where the second does after the first has passed. -/
@[simp] theorem trapsIn_bind {x : Except Stop α} {f : α → Except Stop β} :
    TrapsIn codes (x >>= f) ↔ TrapsIn codes x ∧ ∀ a, x = .ok a → TrapsIn codes (f a) := by
  cases x <;> simp [TrapsIn]

@[simp] theorem trapsIn_raiseIf {p : Prop} [Decidable p] {code : FaultCode} {info : Word} :
    TrapsIn codes (raiseIf p code info) ↔ (p → code ∈ codes) := by
  by_cases hp : p <;> simp [TrapsIn, raiseIf, hp]

@[simp] theorem trapsIn_orRaise {x : Option α} {code : FaultCode} {info : Word} :
    TrapsIn codes (orRaise x code info) ↔ (x = none → code ∈ codes) := by
  cases x <;> simp [TrapsIn]

@[simp] theorem trapsIn_ite {p : Prop} [Decidable p] {w w' : Except Stop α} :
    TrapsIn codes (if p then w else w') ↔ (p → TrapsIn codes w) ∧ (¬ p → TrapsIn codes w') := by
  by_cases hp : p <;> simp [hp]

@[simp] theorem trapsIn_orRefuse {x : Option α} : TrapsIn codes (orRefuse x) := by
  simp [TrapsIn]

theorem trapsIn_checkRange {s : State} {addr n : Nat} (h : .bus ∈ codes) : TrapsIn codes (checkRange s addr n) := by
  simp [checkRange, h]

theorem trapsIn_checkSegments {s : State} {segs : List (Nat × Nat)} (h : .bus ∈ codes) :
    TrapsIn codes (checkSegments s segs) := by
  induction segs with
  | nil => exact trapsIn_ok ()
  | cons p segs ih => simp [checkSegments, trapsIn_checkRange h, ih]

theorem trapsIn_slotAt {s : State} {c : Nat} (h : .badSel ∈ codes) : TrapsIn codes (slotAt s c) := by
  simp [slotAt, h]

theorem trapsIn_suiteAt {s : State} {n : Nat} (h : .badSel ∈ codes) : TrapsIn codes (suiteAt s n) := by
  simp [suiteAt, h]

theorem trapsIn_liveSlot {s : State} {c : Nat} (h : .badSel ∈ codes) (h' : .badState ∈ codes) :
    TrapsIn codes (liveSlot s c) := by
  simp [liveSlot, trapsIn_slotAt h, h']

theorem trapsIn_suiteFor {s : State} {x : Ctx} {k : Cap} (h : .capAbsent ∈ codes) : TrapsIn codes (suiteFor s x k) := by
  simp [suiteFor, h]

theorem trapsIn_readKey {s : State} {addr len minLen : Nat} {which : Word} (h : .invalidKeyLength ∈ codes)
    (h' : .bus ∈ codes) : TrapsIn codes (readKey s addr len minLen which) := by
  simp [readKey, h, trapsIn_checkRange h']

/-- SIZING is not among the codes of a transform: the scratch buffer always covers the span, with less than a block to
spare (R90). -/
theorem trapsIn_transform (dir : Dir) (c : Nat) (acc : Fin 16) (s : State) :
    TrapsIn [.badSel, .badState, .capAbsent, .notKeyed, .zeroLen, .bus, .primitiveFail] (transform dir c acc s) := by
  have fits : ∀ rem len, rem + len ≤ 16 * blockCount rem len ∧ 16 * blockCount rem len - (rem + len) < 16 := by
    intro rem len; unfold blockCount; omega
  simp [transform, trapsIn_liveSlot, trapsIn_suiteFor, trapsIn_checkRange, fits]

/-- A command traps only with the codes the table of R157 lists for it. -/
theorem trapsIn_workOf (i : Instr) (s : State) : TrapsIn (faultsOf i) (workOf i s) := by
  cases i with
  | encrypt c acc => exact trapsIn_transform .enc c acc s
  | decrypt c acc => simpa [faultsOf, workOf, decryptWork] using trapsIn_transform .dec c acc s
  | init c => simp [faultsOf, workOf, initWork, trapsIn_slotAt]
  | setkey c =>
    simp only [faultsOf, workOf, setkeyWork, trapsIn_bind]
    refine ⟨trapsIn_liveSlot (by decide) (by decide), fun x _ =>
      ⟨trapsIn_suiteFor (by decide), fun S _ => ⟨by simp, fun _ _ => ?_⟩⟩⟩
    cases S.family <;> simp [trapsIn_readKey]
  | setkeys c => simp [faultsOf, workOf, setkeysWork, trapsIn_liveSlot, trapsIn_suiteFor, trapsIn_checkRange]
  | finish c => simp [faultsOf, workOf, finishWork, trapsIn_slotAt]
  | mac c =>
    simp [faultsOf, workOf, macWork, trapsIn_liveSlot, trapsIn_suiteFor, trapsIn_checkRange, trapsIn_checkSegments]
  | acktag c => simp [faultsOf, workOf, acktagWork, trapsIn_liveSlot, trapsIn_suiteFor, trapsIn_checkRange]
  | lookup => simp [workOf, lookupWork_eq]
  | getdesc n => simp [faultsOf, workOf, getdescWork, trapsIn_suiteAt, trapsIn_checkRange]
  | gettype n => simp [faultsOf, workOf, gettypeWork, trapsIn_suiteAt]
  | nextiv n => simp [faultsOf, workOf, nextivWork, trapsIn_suiteAt]

theorem none_notMem_faultsOf (i : Instr) : FaultCode.none ∉ faultsOf i := by
  cases i <;> simp [faultsOf]

theorem sizing_notMem_faultsOf (i : Instr) : FaultCode.sizing ∉ faultsOf i := by
  cases i <;> simp [faultsOf]

end Sys2Proof.Machine

/-! The invariant, one rule per update of the state, and one per context a command stores (spec/10_state.md R18). -/

namespace Sys2Proof.Machine

/-! ### The invariant and the updates of the state -/

/-- The parts of the state the invariant speaks of. -/
def State.invView (s : State) :
    (Bool × FaultCode × CmdWord × Word) × List Ctx × List Suite × Params × List Region × List Host.Cell :=
  ((s.halt, s.fault, s.faultCmd, s.faultInfo), s.ctx, s.reg, s.params, s.memMap, s.mem)

/-- The invariant reads nothing but `invView`: no register of R11 to R16 but the fault registers, and no field of the
host agent. -/
theorem State.Inv.congr {s t : State} (h : s.Inv) (e : t.invView = s.invView) : t.Inv := by
  simp only [State.invView, Prod.mk.injEq] at e
  obtain ⟨⟨hhalt, hfault, hcmd, hinfo⟩, hctx, hreg, hparams, hmap, hmem⟩ := e
  constructor
  · simpa [configWf, hctx, hreg, hparams] using h.config
  · simpa [hmem] using h.memCanonical
  · simpa [hmem, hmap] using h.memExists
  · simpa [hctx, hreg] using h.contexts
  · simpa [hhalt, hfault] using h.haltFault
  · simpa [hfault, hcmd, hinfo] using h.noFault
  · simpa [hfault] using h.noSizing

/-- A range from the front of a valid range is valid (R44). -/
theorem rangeValid_mono {map : List Region} {addr n m : Nat} (h : rangeValid map addr n = true) (hm : m ≤ n) :
    rangeValid map addr m = true := by
  obtain ⟨htop, hvalid⟩ := (rangeValid_iff map addr n).mp h
  exact (rangeValid_iff map addr m).mpr ⟨by omega, fun a hlo hhi => hvalid a hlo (by omega)⟩

/-- Bytes stored in a valid range keep memory canonical and within the memory that exists (R44). -/
theorem State.Inv.store {s : State} (h : s.Inv) {addr : Nat} {b : List Byte}
    (hb : rangeValid s.memMap addr b.length = true) : (s.store addr b).Inv where
  config := h.config
  memCanonical := memWrite_wf addr b h.memCanonical
  memExists p hp := by
    obtain ⟨htop, hvalid⟩ := (rangeValid_iff s.memMap addr b.length).mp hb
    rcases mem_memWrite hp with hold | ⟨hlo, hhi⟩
    · exact h.memExists p hold
    · exact ⟨by simp only [Config.addrTop]; omega, hvalid p.1 hlo hhi⟩
  contexts := h.contexts
  haltFault := h.haltFault
  noFault := h.noFault
  noSizing := h.noSizing

theorem State.Inv.setCtx {s : State} (h : s.Inv) (c : Nat) {y : Ctx} (hy : ctxWf s.reg y = true) :
    (s.setCtx c y).Inv where
  config := by simpa [configWf] using h.config
  memCanonical := h.memCanonical
  memExists := h.memExists
  contexts x hx := by
    rcases List.mem_or_eq_of_mem_set hx with hold | rfl
    · exact h.contexts x hold
    · exact hy
  haltFault := h.haltFault
  noFault := h.noFault
  noSizing := h.noSizing

theorem State.Inv.raise {s : State} (h : s.Inv) {code : FaultCode} (hnone : code ≠ .none) (hsizing : code ≠ .sizing)
    (info : Word) : (raise code info s).Inv where
  config := h.config
  memCanonical := h.memCanonical
  memExists := h.memExists
  contexts := h.contexts
  haltFault := by simp [hnone]
  noFault hn := absurd hn hnone
  noSizing := hsizing

/-- A slot found in the table is as R18 says. -/
theorem State.Inv.ctxWf_of_getElem? {s : State} (h : s.Inv) {c : Nat} {x : Ctx} (hx : s.ctx[c]? = some x) :
    ctxWf s.reg x = true :=
  h.contexts x (List.mem_of_getElem? hx)

/-! ### Reset -/

/-- The engine after reset satisfies the invariant over every configuration with a meaning and every canonical memory
that exists. -/
theorem resetWith_inv {nCtx : Nat} {reg : List Suite} {params : Params} {map : List Region} {mem : List Host.Cell}
    (host : List HostAction) (hreg : regWf reg = true) (hparams : params.wf = true) (hlo : 1 ≤ nCtx) (hhi : nCtx ≤ 256)
    (hcanon : Memory.wf mem = true) (hexists : ∀ p ∈ mem, p.1 < Config.addrTop ∧ memValid map p.1 = true) :
    (State.resetWith nCtx reg params map mem host).Inv where
  config := by simp [configWf, State.resetWith, hreg, hparams, hlo, hhi]
  memCanonical := hcanon
  memExists := hexists
  contexts x hx := by
    obtain rfl := List.eq_of_mem_replicate hx
    rfl
  haltFault := by simp [State.resetWith]
  noFault _ := ⟨rfl, rfl⟩
  noSizing := by simp [State.resetWith]

theorem configWf_iff (s : State) : configWf s = true ↔
    regWf s.reg = true ∧ s.params.wf = true ∧ 1 ≤ s.ctx.length ∧ s.ctx.length ≤ 256 := by
  simp [configWf, and_assoc]

theorem State.Inv.engineReset {s : State} (h : s.Inv) : (engineReset s).Inv := by
  obtain ⟨hreg, hparams, hlo, hhi⟩ := (configWf_iff s).mp h.config
  exact (resetWith_inv s.host hreg hparams hlo hhi h.memCanonical h.memExists).congr rfl

/-! ### The contexts that commands store (R18, R100) -/

variable {reg : List Suite} {S : Suite} {x : Ctx}

/-- Every entry of a well-formed registry is well formed (R137). -/
theorem suiteWf_of_regWf {n : Nat} (h : regWf reg = true) (hS : reg[n]? = some S) : S.wf reg = true := by
  simp only [regWf, Bool.and_eq_true, List.all_eq_true] at h
  obtain ⟨⟨⟨-, hall⟩, -⟩, -⟩ := h
  exact hall S (List.mem_of_getElem? hS)

theorem macSuite_isSome_of_sym (h : S.wf reg = true) (hf : S.family = .sym) : ∃ m, S.macSuite = some m := by
  cases hm : S.macSuite with
  | none => simp [Suite.wf, hf, hm] at h
  | some m => exact ⟨m, rfl⟩

theorem macSuite_eq_none_of_mac (h : S.wf reg = true) (hf : S.family = .mac) : S.macSuite = none := by
  simp only [Suite.wf, hf, Bool.and_eq_true, decide_eq_true_eq] at h
  obtain ⟨⟨⟨⟨hm, -⟩, -⟩, -⟩, -⟩ := h
  exact hm

theorem ctxWf_of_sym (hl : x.st.live = true) (hS : reg[x.suite]? = some S) (hf : S.family = .sym) :
    ctxWf reg x = symCtxWf S x := by
  simp [ctxWf, hl, hS, hf]

theorem ctxWf_of_mac (hl : x.st.live = true) (hS : reg[x.suite]? = some S) (hf : S.family = .mac) :
    ctxWf reg x = macCtxWf x := by
  simp [ctxWf, hl, hS, hf]

/-- INIT: a fresh context has a fresh Sub-Authenticator exactly when its suite is SYM (R101, R137). -/
theorem ctxWf_freshCtx {n : Nat} (hS : reg[n]? = some S) (hwf : S.wf reg = true) : ctxWf reg (freshCtx n S) = true := by
  cases hf : S.family with
  | sym =>
    obtain ⟨m, hm⟩ := macSuite_isSome_of_sym hwf hf
    rw [ctxWf_of_sym rfl hS hf]
    simp [symCtxWf, freshCtx, freshCore, subWf, hm]
  | mac =>
    rw [ctxWf_of_mac rfl hS hf]
    simp [macCtxWf, freshCtx, freshCore, macSuite_eq_none_of_mac hwf hf]

/-- SETKEY on a SYM context: keyed, with a bulk key (R102). -/
theorem ctxWf_setkey_sym (h : ctxWf reg x = true) (hx : x.st = .uninit) (hS : reg[x.suite]? = some S)
    (hf : S.family = .sym) (k : BulkKey) : ctxWf reg { x with st := .keyed, bulk := some k } = true := by
  rw [ctxWf_of_sym (by simp [hx, CtxState.live]) hS hf] at h
  refine Eq.trans (ctxWf_of_sym rfl hS hf) ?_
  simp_all [symCtxWf]

/-- SETKEY on a MAC context: keyed, with a MAC key (R102). -/
theorem ctxWf_setkey_mac (h : ctxWf reg x = true) (hx : x.st = .uninit) (hS : reg[x.suite]? = some S)
    (hf : S.family = .mac) (k : MacKey) : ctxWf reg { x with st := .keyed, mac := some k } = true := by
  rw [ctxWf_of_mac (by simp [hx, CtxState.live]) hS hf] at h
  refine Eq.trans (ctxWf_of_mac rfl hS hf) ?_
  simp_all [macCtxWf]

/-- A live context with a Sub-Authenticator is of a SYM suite (R18). -/
theorem family_eq_sym_of_sub {t : CtxCore} (h : ctxWf reg x = true) (hl : x.st.live = true)
    (hS : reg[x.suite]? = some S) (hsub : x.sub = some t) : S.family = .sym := by
  cases hf : S.family with
  | sym => rfl
  | mac => rw [ctxWf_of_mac hl hS hf] at h; simp [macCtxWf, hsub] at h

/-- SETKEYS: active, with all three keys, the MAC key in the Sub-Authenticator (R103). -/
theorem ctxWf_setkeys {t : CtxCore} (h : ctxWf reg x = true) (hl : x.st.live = true) (hS : reg[x.suite]? = some S)
    (hsub : x.sub = some t) (bk : BulkKey) (mk : MacKey) (ak : AckState) :
    ctxWf reg { x with st := .active, bulk := some bk, ack := some ak,
                       sub := some { t with st := .keyed, mac := some mk } } = true := by
  have hf := family_eq_sym_of_sub h hl hS hsub
  rw [ctxWf_of_sym hl hS hf] at h
  refine Eq.trans (ctxWf_of_sym rfl hS hf) ?_
  simp_all [symCtxWf, subWf]

/-- FINISH: no keys (R104). -/
theorem ctxWf_finishedCtx (x : Ctx) : ctxWf reg (finishedCtx x) = true := rfl

/-- ACKTAG: the rules ask only whether there is an ack keyed state, and it replaces one with another (R125). -/
theorem ctxWf_ack {a : AckState} (hack : x.ack = some a) (a' : AckState) :
    ctxWf reg { x with ack := some a' } = ctxWf reg x := by
  simp only [ctxWf, symCtxWf, macCtxWf, noKeys, hack, Option.isSome_some, Option.isNone_some]

end Sys2Proof.Machine

/-! What a command comes to, said once for every command, and what every step therefore keeps: the invariant and the
configuration (spec/10_state.md R18, R22; spec/60_exceptions.md R160, R161). -/

namespace Sys2Proof.Machine

/-! ### What the completed work of a command writes (spec/10_state.md R11, R13, R16, R18; spec/20_memory.md R44) -/

/-- `Effect s i t`: `t` is `s` with the parts written that `i` may write. Memory is written in a valid range only; a
context that is stored is as R18 says if the invariant held before. -/
inductive Effect (s : State) : Instr → State → Prop
  | encrypt (c : Nat) (acc : Fin 16) {addr : Nat} {b : List Byte} (v : CsumWord)
      (hb : rangeValid s.memMap addr b.length = true) :
      Effect s (.encrypt c acc) ((s.store addr b).setCsum acc v)
  | decrypt (c : Nat) (acc : Fin 16) {addr : Nat} {b : List Byte} (v : CsumWord) (r : Word)
      (hb : rangeValid s.memMap addr b.length = true) :
      Effect s (.decrypt c acc) (((s.store addr b).setCsum acc v).setRet r)
  | init (c : Nat) {y : Ctx} (hy : s.Inv → ctxWf s.reg y = true) : Effect s (.init c) (s.setCtx c y)
  | setkey (c : Nat) {y : Ctx} (hy : s.Inv → ctxWf s.reg y = true) : Effect s (.setkey c) (s.setCtx c y)
  | setkeys (c : Nat) {y : Ctx} (hy : s.Inv → ctxWf s.reg y = true) : Effect s (.setkeys c) (s.setCtx c y)
  | finish (c : Nat) {y : Ctx} (hy : s.Inv → ctxWf s.reg y = true) : Effect s (.finish c) (s.setCtx c y)
  | finishIdle (c : Nat) : Effect s (.finish c) s
  | macProbe (c : Nat) : Effect s (.mac c) (s.setA 4 20)
  | mac (c : Nat) {addr : Nat} {b : List Byte} (hb : rangeValid s.memMap addr b.length = true) :
      Effect s (.mac c) ((s.store addr b).setA 4 20)
  | acktag (c : Nat) {addr : Nat} {b : List Byte} {y : Ctx} (r : Word)
      (hb : rangeValid s.memMap addr b.length = true) (hy : s.Inv → ctxWf s.reg y = true) :
      Effect s (.acktag c) (((s.store addr b).setCtx c y).setRet r)
  | lookup (r : Word) : Effect s .lookup (s.setRet r)
  | getdesc (n : Nat) {addr : Nat} {b : List Byte} (hb : rangeValid s.memMap addr b.length = true) :
      Effect s (.getdesc n) (s.store addr b).setNetconv
  | gettype (n : Nat) (r : Word) : Effect s (.gettype n) (s.setRet r)
  | nextiv (n : Nat) (v : Word) : Effect s (.nextiv n) (s.setA 1 v)

variable {i : Instr} {s t : State}

/-- A completed transform stores the span it read, in the range it checked, and one accumulator (R81, R86, R88). -/
theorem transform_ok_stores {dir : Dir} {c : Nat} {acc : Fin 16} (h : transform dir c acc s = .ok t) :
    ∃ addr b v, rangeValid s.memMap addr b.length = true ∧ t = (s.store addr b).setCsum acc v := by
  obtain ⟨x, S, k, ks, -, -, -, -, -, -, -, hspan, hks, rfl⟩ := transform_eq_ok.mp h
  exact ⟨_, _, _, by rwa [newSpan_length hks], rfl⟩

theorem workOf_ok_effect (h : workOf i s = .ok t) : Effect s i t := by
  cases i with
  | encrypt c acc =>
    obtain ⟨addr, b, v, hb, rfl⟩ := transform_ok_stores h
    exact .encrypt c acc v hb
  | decrypt c acc =>
    obtain ⟨u, hu, rfl⟩ := decryptWork_eq_ok.mp h
    obtain ⟨addr, b, v, hb, rfl⟩ := transform_ok_stores hu
    exact .decrypt c acc v _ hb
  | init c =>
    obtain ⟨x, n, S, -, -, -, hS, rfl⟩ := initWork_eq_ok.mp h
    exact .init c fun hi => ctxWf_freshCtx hS (suiteWf_of_regWf ((configWf_iff s).mp hi.config).1 hS)
  | setkey c =>
    obtain ⟨x, S, hx, hst, hS, -, -, ⟨hf, -, k, -, rfl⟩ | ⟨hf, -, k, -, rfl⟩⟩ := setkeyWork_eq_ok.mp h
    · exact .setkey c fun hi => ctxWf_setkey_sym (hi.ctxWf_of_getElem? hx) hst hS hf k
    · exact .setkey c fun hi => ctxWf_setkey_mac (hi.ctxWf_of_getElem? hx) hst hS hf k
  | setkeys c =>
    obtain ⟨x, S, sub, M, bk, mk, ak, hx, hl, hS, -, -, hsub, -, -, -, -, -, -, -, -, -, -, rfl⟩ :=
      setkeysWork_eq_ok.mp h
    exact .setkeys c fun hi => ctxWf_setkeys (hi.ctxWf_of_getElem? hx) hl hS hsub bk mk ak
  | finish c =>
    obtain ⟨x, hx, ⟨-, rfl⟩ | ⟨-, rfl⟩⟩ := finishWork_eq_ok.mp h
    · exact .finish c fun _ => ctxWf_finishedCtx x
    · exact .finishIdle c
  | mac c =>
    obtain ⟨x, S, -, -, -, -, ⟨-, rfl⟩ | ⟨-, owner, M, mk, full, -, -, -, -, -, -, -, hout, rfl⟩⟩ := macWork_eq_ok.mp h
    · exact .macProbe c
    · exact .mac c (rangeValid_mono hout (List.length_take_le _ _))
  | acktag c =>
    obtain ⟨x, S, a, tag, a', hx, -, -, -, hack, -, -, hout, rfl⟩ := acktagWork_eq_ok.mp h
    exact .acktag c _ hout fun hi => (ctxWf_ack hack a').trans (hi.ctxWf_of_getElem? hx)
  | lookup =>
    obtain rfl := Except.ok.inj ((lookupWork_eq s).symm.trans h)
    exact .lookup _
  | getdesc n =>
    obtain ⟨S, -, hout, rfl⟩ := getdescWork_eq_ok.mp h
    exact .getdesc n (by rwa [beBytes_length])
  | gettype n =>
    obtain ⟨S, -, rfl⟩ := gettypeWork_eq_ok.mp h
    exact .gettype n _
  | nextiv n =>
    obtain ⟨S, -, -, rfl⟩ := nextivWork_eq_ok.mp h
    exact .nextiv n _

/-- Everything a next state of a command can be: the state itself, the fault entry with a code listed for the command, or
the effect of its completed work. -/
theorem exec_effect (h : exec i s = .next t) :
    t = s ∨ (∃ code info, code ∈ faultsOf i ∧ t = raise code info s) ∨ Effect s i t := by
  rcases exec_cases h with ⟨-, rfl⟩ | ⟨-, code, info, hw, rfl⟩ | ⟨-, hw⟩
  · exact .inl rfl
  · exact .inr (.inl ⟨code, info, trapsIn_workOf i s code info hw, rfl⟩)
  · exact .inr (.inr (workOf_ok_effect hw))

/-! ### The invariant and the configuration are kept -/

theorem Effect.inv (h : Effect s i t) (hi : s.Inv) : t.Inv := by
  cases h with
  | encrypt c acc v hb => exact (hi.store hb).congr rfl
  | decrypt c acc v r hb => exact (hi.store hb).congr rfl
  | init c hy => exact hi.setCtx c (hy hi)
  | setkey c hy => exact hi.setCtx c (hy hi)
  | setkeys c hy => exact hi.setCtx c (hy hi)
  | finish c hy => exact hi.setCtx c (hy hi)
  | finishIdle c => exact hi
  | macProbe c => exact hi.congr rfl
  | mac c hb => exact (hi.store hb).congr rfl
  | acktag c r hb hy => exact ((hi.store hb).setCtx c (hy hi)).congr rfl
  | lookup r => exact hi.congr rfl
  | getdesc n hb => exact (hi.store hb).congr rfl
  | gettype n r => exact hi.congr rfl
  | nextiv n v => exact hi.congr rfl

theorem exec_inv (h : exec i s = .next t) (hi : s.Inv) : t.Inv := by
  rcases exec_effect h with rfl | ⟨code, info, hcode, rfl⟩ | he
  · exact hi
  · exact hi.raise (ne_of_mem_of_not_mem hcode (none_notMem_faultsOf i))
      (ne_of_mem_of_not_mem hcode (sizing_notMem_faultsOf i)) info
  · exact he.inv hi

theorem regStore_inv {r : RegName} {v : Word} (h : regStore r v s = .next t) (hi : s.Inv) : t.Inv := by
  have hcmd : State.Inv { s with cmd := v.setWidth 32 } := hi.congr rfl
  rcases regStore_cases h with rfl | ⟨-, ⟨i, -, rfl⟩ | ⟨k, -, rfl⟩ | ⟨-, ⟨i, -, hexec⟩ | ⟨e, -, rfl⟩⟩⟩
  · exact hi
  · exact hi.congr rfl
  · exact hi.congr rfl
  · exact exec_inv hexec hcmd
  · exact hcmd.raise (by decide) (by decide) 0

/-- Settles O17: by the cases of a step, `regStore_inv` for a write to a register and so to CMD. -/
theorem everyStepKeepsTheInvariant : Obligations.EveryStepKeepsTheInvariant := by
  intro s t hi h
  have hrest : ∀ rest, State.Inv { s with host := rest } := fun rest => hi.congr rfl
  obtain ⟨-, ⟨-, rfl⟩ | ⟨off, v, rest, -, -, hstore⟩ | ⟨off, rest, -, -, rfl⟩ | ⟨addr, b, rest, -, hb, rfl⟩ |
    ⟨addr, n, rest, -, -, rfl⟩ | ⟨rest, -, rfl⟩⟩ := step_cases h
  · exact hi
  · exact regStore_inv hstore (hrest rest)
  · exact hi.congr rfl
  · exact (hrest rest).store hb
  · exact hi.congr rfl
  · exact (hrest rest).engineReset

theorem Effect.sameConfig (h : Effect s i t) : s.sameConfig t := by
  cases h <;> simp [State.sameConfig]

theorem exec_sameConfig (h : exec i s = .next t) : s.sameConfig t := by
  rcases exec_effect h with rfl | ⟨code, info, -, rfl⟩ | he
  · exact ⟨rfl, rfl, rfl, rfl⟩
  · exact ⟨rfl, rfl, rfl, rfl⟩
  · exact he.sameConfig

theorem regStore_sameConfig {r : RegName} {v : Word} (h : regStore r v s = .next t) : s.sameConfig t := by
  rcases regStore_cases h with rfl | ⟨-, ⟨i, -, rfl⟩ | ⟨k, -, rfl⟩ | ⟨-, ⟨i, -, hexec⟩ | ⟨e, -, rfl⟩⟩⟩
  · exact ⟨rfl, rfl, rfl, rfl⟩
  · exact ⟨rfl, rfl, rfl, rfl⟩
  · exact ⟨rfl, rfl, rfl, rfl⟩
  · exact exec_sameConfig (s := { s with cmd := v.setWidth 32 }) hexec
  · exact ⟨rfl, rfl, rfl, rfl⟩

/-- Settles O19: by the cases of a step, `regStore_sameConfig` for a write to a register and so to CMD. -/
theorem noStepChangesTheConfiguration : Obligations.NoStepChangesTheConfiguration := by
  intro s t h
  obtain ⟨-, ⟨-, rfl⟩ | ⟨off, v, rest, -, -, hstore⟩ | ⟨off, rest, -, -, rfl⟩ | ⟨addr, b, rest, -, -, rfl⟩ |
    ⟨addr, n, rest, -, -, rfl⟩ | ⟨rest, -, rfl⟩⟩ := step_cases h
  · exact ⟨rfl, rfl, rfl, rfl⟩
  · exact regStore_sameConfig (s := { s with host := rest }) hstore
  · exact ⟨rfl, rfl, rfl, rfl⟩
  · exact ⟨rfl, rfl, rfl, rfl⟩
  · exact ⟨rfl, rfl, rfl, rfl⟩
  · exact ⟨rfl, rfl, rfl, List.length_replicate⟩

end Sys2Proof.Machine

/-! What no command writes, and which commands write the operand registers, the accumulators and RET
(spec/10_state.md R11, R13, R14, R16, R22, R23). -/

namespace Sys2Proof.Machine

variable {i : Instr} {s t : State}

/-- A part of the state that fault entry leaves alone changes only as the effect of completed work (R161). -/
theorem effect_of_changed {α : Type} (f : State → α) (h : exec i s = .next t) (hne : f t ≠ f s)
    (hraise : ∀ code info, f (raise code info s) = f s) : Effect s i t := by
  rcases exec_effect h with rfl | ⟨code, info, -, rfl⟩ | he
  · exact absurd rfl hne
  · exact absurd (hraise code info) hne
  · exact he

/-- The parts of the state no command writes: CMD, the read-only configuration and the host agent's own fields. -/
def State.hostSide (s : State) :
    CmdWord × List Suite × Params × List Region × List HostAction × Word × List Byte :=
  (s.cmd, s.reg, s.params, s.memMap, s.host, s.hostReg, s.hostMem)

theorem exec_hostSide (h : exec i s = .next t) : t.hostSide = s.hostSide := by
  rcases exec_effect h with rfl | ⟨code, info, -, rfl⟩ | he
  · rfl
  · rfl
  · cases he <;> rfl

theorem Effect.netconvDone_changed (h : Effect s i t) (hne : t.netconvDone ≠ s.netconvDone) :
    t.netconvDone = true ∧ ∃ n, i = .getdesc n := by
  cases h with
  | getdesc n hb => exact ⟨rfl, n, rfl⟩
  | _ => exact absurd rfl hne

/-- Settles O23: `exec_hostSide`, and `Effect.netconvDone_changed` for the hidden flag. -/
theorem commandsLeaveTheHostSide : Obligations.CommandsLeaveTheHostSide := by
  intro i s t h
  have hside := exec_hostSide h
  simp only [State.hostSide, Prod.mk.injEq] at hside
  obtain ⟨hcmd, hreg, hparams, hmap, hhost, hhostReg, hhostMem⟩ := hside
  refine ⟨hcmd, hreg, hparams, hmap, hhost, hhostReg, hhostMem, fun hne => ?_⟩
  exact (effect_of_changed State.netconvDone h hne fun _ _ => rfl).netconvDone_changed hne

/-- Writing one entry of a vector changes no other. -/
theorem eq_of_set_getElem_ne {α : Type} {n : Nat} {xs : Vector α n} {k j : Fin n} {v : α}
    (h : (xs.set k v)[j] ≠ xs[j]) : j = k := by
  by_contra hjk
  exact h (Vector.getElem_set_ne k.isLt j.isLt fun e => hjk (Fin.ext e.symm))

theorem Effect.a_changed (h : Effect s i t) {j : Fin 8} (hne : t.a[j] ≠ s.a[j]) :
    ((∃ c, i = .mac c) ∧ j = 4) ∨ ((∃ n, i = .nextiv n) ∧ j = 1) := by
  cases h with
  | macProbe c => exact .inl ⟨⟨c, rfl⟩, eq_of_set_getElem_ne hne⟩
  | mac c hb => exact .inl ⟨⟨c, rfl⟩, eq_of_set_getElem_ne hne⟩
  | nextiv n v => exact .inr ⟨⟨n, rfl⟩, eq_of_set_getElem_ne hne⟩
  | _ => exact absurd rfl hne

/-- Settles O24: `Effect.a_changed`; the fault entry writes no operand register. -/
theorem onlyMacAndNextivWriteOperands : Obligations.OnlyMacAndNextivWriteOperands := by
  intro i s t j h hne
  exact (effect_of_changed (fun u => u.a[j]) h hne fun _ _ => rfl).a_changed hne

theorem Effect.csum_changed (h : Effect s i t) {k : Fin 16} (hne : t.csum[k] ≠ s.csum[k]) :
    ∃ c, i = .encrypt c k ∨ i = .decrypt c k := by
  cases h with
  | encrypt c acc v hb =>
    obtain rfl : k = acc := eq_of_set_getElem_ne hne
    exact ⟨c, .inl rfl⟩
  | decrypt c acc v r hb =>
    obtain rfl : k = acc := eq_of_set_getElem_ne hne
    exact ⟨c, .inr rfl⟩
  | _ => exact absurd rfl hne

/-- Settles O25: `Effect.csum_changed`; the fault entry writes no accumulator. -/
theorem onlyTransformsChangeTheirAccumulator : Obligations.OnlyTransformsChangeTheirAccumulator := by
  intro i s t k h hne
  exact (effect_of_changed (fun u => u.csum[k]) h hne fun _ _ => rfl).csum_changed hne

theorem Effect.ret_changed (h : Effect s i t) (hne : t.ret ≠ s.ret) :
    (∃ c k, i = .decrypt c k) ∨ (∃ c, i = .acktag c) ∨ i = .lookup ∨ (∃ n, i = .gettype n) := by
  cases h with
  | decrypt c acc v r hb => exact .inl ⟨c, acc, rfl⟩
  | acktag c r hb hy => exact .inr (.inl ⟨c, rfl⟩)
  | lookup r => exact .inr (.inr (.inl rfl))
  | gettype n r => exact .inr (.inr (.inr ⟨n, rfl⟩))
  | _ => exact absurd rfl hne

/-- Settles O26: `Effect.ret_changed`; the fault entry does not write RET. -/
theorem onlyFourCommandsWriteRet : Obligations.OnlyFourCommandsWriteRet := by
  intro i s t h hne
  exact (effect_of_changed State.ret h hne fun _ _ => rfl).ret_changed hne

end Sys2Proof.Machine

/-! The register block as the host sees it: one rule per host action, and the offsets of the registers
(spec/10_state.md R14, R26, R27; spec/60_exceptions.md R162). -/

namespace Sys2Proof.Machine

variable {s : State} {off : Nat} {v : Word} {rest : List HostAction}

/-! ### One rule per host action -/

theorem step_of_host_cons {act : HostAction} (hc : configWf s = true) (hh : s.host = act :: rest) :
    step s = hostAct act { s with host := rest } := by
  simp only [step, stepHost, hc, hh, if_true]

theorem wholeRegister_of_aligned (h8 : off % 8 = 0) (k : RegName → Host.Outcome State Fault Refusal) :
    wholeRegister off 8 k = k (regAt off) := by
  simp [wholeRegister, h8]

theorem wholeRegister_of_partial {width : Nat} (h : off % 8 ≠ 0 ∨ width ≠ 8)
    (k : RegName → Host.Outcome State Fault Refusal) : ∃ r, wholeRegister off width k = .refused r := by
  unfold wholeRegister
  split
  · exact ⟨_, rfl⟩
  · exact ⟨_, if_pos (by omega)⟩

theorem step_regWrite (hc : configWf s = true) (hh : s.host = .regWrite off 8 v :: rest) (h8 : off % 8 = 0) :
    step s = regStore (regAt off) v { s with host := rest } := by
  rw [step_of_host_cons hc hh, hostAct, wholeRegister_of_aligned h8]

/-- What a register holds does not depend on the context table (R19) or on the host's pending actions. -/
theorem regValue_ctx_host (s : State) (table : List Ctx) (rest : List HostAction) (r : RegName) :
    regValue { s with ctx := table, host := rest } r = regValue s r := by
  cases r <;> rfl

theorem step_regRead (hc : configWf s = true) (hh : s.host = .regRead off 8 :: rest) (h8 : off % 8 = 0) :
    step s = .next { s with host := rest, hostReg := regValue s (regAt off) } := by
  rw [step_of_host_cons hc hh, hostAct, wholeRegister_of_aligned h8, regValue_ctx_host s s.ctx]

theorem step_reset (hc : configWf s = true) (hh : s.host = .reset :: rest) :
    step s = .next (engineReset { s with host := rest }) :=
  step_of_host_cons hc hh

/-! ### What a register write does -/

theorem regStore_halted (r : RegName) (v : Word) (h : s.halt = true) : regStore r v s = .next s := by
  simp [regStore, h]

theorem regStore_a (i : Fin 8) (v : Word) (h : s.halt = false) : regStore (.a i) v s = .next (s.setA i v) := by
  simp [regStore, h]

theorem regStore_csum (k : Fin 16) (v : Word) (h : s.halt = false) :
    regStore (.csum k) v s = .next (s.setCsum k (v.setWidth 16)) := by
  simp [regStore, h]

theorem regStore_cmd {i : Instr} (h : s.halt = false) (hd : decode (v.setWidth 32) = .ok i) :
    regStore .cmd v s = exec i { s with cmd := v.setWidth 32 } := by
  simp [regStore, h, issue, hd]

/-! ### The register at an offset (R26) -/

theorem regAt_a : ∀ i : Fin 8, regAt (0x040 + 8 * i.val) = .a i := by decide

theorem regAt_csum : ∀ k : Fin 16, regAt (0x080 + 8 * k.val) = .csum k := by decide

theorem regAt_above (h : 0x100 ≤ off) : regAt off = .reserved := by
  unfold regAt
  iterate 9 rw [if_neg (by omega)]

/-- The registers of a host write that is ignored: read-only and reserved ones. -/
def RegName.readOnly : RegName → Bool
  | .status | .ret | .fault | .faultCmd | .faultInfo | .reserved => true
  | .cmd | .a _ | .csum _ => false

theorem regStore_readOnly {r : RegName} (hr : r.readOnly = true) (v : Word) (s : State) : regStore r v s = .next s := by
  cases r <;> simp [RegName.readOnly, regStore] at hr ⊢

theorem regAt_readOnly (h8 : off % 8 = 0) (h : 8 ≤ off ∧ off < 0x040 ∨ 0x100 ≤ off) : (regAt off).readOnly = true := by
  rcases h with ⟨hlo, hhi⟩ | h
  · interval_cases off <;> rfl
  · rw [regAt_above h]; rfl

/-- FAULT reads by the table of R156. -/
theorem faultWord_toNat (f : FaultCode) : f.word.toNat = faultTable f := by
  cases f <;> rfl

/-! ### The statements -/

/-- Settles O6: `step_regWrite` and `regStore_cmd`, with the word of `withFetchWord` read back from the 64-bit value. -/
theorem stepRunsTheDecodedCommand : Obligations.StepRunsTheDecodedCommand := by
  have run : ∀ (s : State) (v : Word) (rest : List HostAction) (i : Instr),
      configWf s = true → s.halt = false → s.host = .regWrite 0 8 v :: rest → decode (v.setWidth 32) = .ok i →
      step s = exec i { s with host := rest, cmd := v.setWidth 32 } := by
    intro s v rest i hc hhalt hh hd
    exact (step_regWrite hc hh rfl).trans (regStore_cmd (s := { s with host := rest }) hhalt hd)
  refine ⟨run, fun s w i hc hhalt hd => ?_⟩
  have hw : (BitVec.ofNat 64 (w.toNat % 2 ^ 32)).setWidth 32 = w := by
    apply BitVec.eq_of_toNat_eq
    have := w.isLt
    simp only [BitVec.toNat_setWidth, BitVec.toNat_ofNat]
    omega
  have := run (s.withFetchWord 32 w.toNat) _ s.host i hc hhalt rfl (by rw [hw]; exact hd)
  rwa [hw] at this

/-- Settles O8: `regStore_halted` for a write, `step_regRead` for a read. -/
theorem haltedEngineIgnoresWrites : Obligations.HaltedEngineIgnoresWrites := by
  intro s off v rest hc hhalt h8
  exact ⟨fun hh => (step_regWrite hc hh h8).trans (regStore_halted (s := { s with host := rest }) _ v hhalt),
    fun hh => step_regRead hc hh h8⟩

/-- Settles O10: the register at each offset, and what `regStore` does to it. -/
theorem registerWritesFollowTheMap : Obligations.RegisterWritesFollowTheMap := by
  intro s off v rest hc hhalt hh
  refine ⟨?_, ?_, fun h8 hoff => ?_⟩
  · rintro i rfl
    rw [step_regWrite hc hh (by omega), regAt_a]
    exact regStore_a i v hhalt
  · rintro k rfl
    rw [step_regWrite hc hh (by omega), regAt_csum]
    exact regStore_csum k v hhalt
  · rw [step_regWrite hc hh h8]
    exact regStore_readOnly (regAt_readOnly h8 hoff) v _

/-- Settles O11: `step_regRead`, and the register at each offset. -/
theorem registerReadsFollowTheMap : Obligations.RegisterReadsFollowTheMap := by
  intro s off rest hc hh h8
  refine ⟨regValue s (regAt off), step_regRead hc hh h8, ?_, ?_, ?_, ?_, ?_, ?_, ?_, ?_, ?_⟩
  · rintro rfl
    exact BitVec.toNat_setWidth_of_le (by decide)
  · rintro rfl
    cases hhalt : s.halt <;> simp [regAt, regValue, hhalt]
  · rintro rfl; rfl
  · rintro rfl
    exact faultWord_toNat s.fault
  · rintro rfl
    exact BitVec.toNat_setWidth_of_le (by decide)
  · rintro rfl; rfl
  · rintro (rfl | rfl | hoff)
    · rfl
    · rfl
    · rw [regAt_above hoff]; rfl
  · rintro i rfl
    rw [regAt_a]; rfl
  · rintro k rfl
    rw [regAt_csum]
    exact BitVec.toNat_setWidth_of_le (by decide)

/-- Settles O12: both accesses go through `wholeRegister`. -/
theorem partialRegisterAccessIsRefused : Obligations.PartialRegisterAccessIsRefused := by
  intro s off width v rest hc hpartial hh
  rcases hh with hh | hh <;> rw [step_of_host_cons hc hh, hostAct]
  · exact wholeRegister_of_partial hpartial _
  · exact wholeRegister_of_partial hpartial _

/-- Settles O14: the fields of `engineReset`. -/
theorem resetClearsTheEngine : Obligations.ResetClearsTheEngine := by
  intro s rest hc hh
  refine ⟨_, step_reset hc hh, rfl, rfl, rfl, rfl, rfl, rfl, fun i => ?_, fun k => ?_, rfl, List.length_replicate,
    fun x hx => ?_, rfl, rfl, rfl, rfl, rfl, rfl, rfl⟩
  · simp
  · simp
  · obtain rfl := List.eq_of_mem_replicate hx
    exact ⟨rfl, rfl⟩

/-- The value a completed register read hands the host. -/
theorem hostReg_of_step_regRead {t : State} (hh : s.host = .regRead off 8 :: rest) (h : step s = .next t) :
    t.hostReg = regValue s (regAt off) := by
  have hc := (step_cases h).1
  have h8 : off % 8 = 0 := by
    by_contra hne
    obtain ⟨r, hr⟩ := partialRegisterAccessIsRefused s off 8 0 rest hc (.inl hne) (.inr hh)
    rw [h] at hr; cases hr
  rw [step_regRead hc hh h8] at h
  cases h; rfl

/-- Settles O15: `regValue_ctx_host` under the value of a completed read. -/
theorem hostReadsSeeNoContext : Obligations.HostReadsSeeNoContext := by
  intro s table off rest t t' hh h h'
  rw [hostReg_of_step_regRead hh h, hostReg_of_step_regRead (s := { s with ctx := table }) hh h']
  exact regValue_ctx_host s table s.host (regAt off)

/-- Settles O16: `resetWith_inv` over empty memory. -/
theorem resetSatisfiesTheInvariant : Obligations.ResetSatisfiesTheInvariant := by
  have reset : ∀ (nCtx : Nat) (reg : List Suite) (params : Params) (map : List Region) (host : List HostAction),
      regWf reg = true → params.wf = true → 1 ≤ nCtx → nCtx ≤ 256 → (State.resetWith nCtx reg params map [] host).Inv :=
    fun _ _ _ _ host hreg hparams hlo hhi => resetWith_inv host hreg hparams hlo hhi rfl nofun
  exact ⟨reset _ _ _ _ _ (by decide) (by decide) (by decide) (by decide), reset⟩

end Sys2Proof.Machine

/-! Host memory under the host's own accesses and under the commands (spec/20_memory.md R40, R43, R44, R53). -/

namespace Sys2Proof.Machine

variable {s t : State} {i : Instr} {addr : Nat}

/-! ### The host's accesses (R40) -/

theorem hostStore_of {b : List Byte} (h : rangeValid s.memMap addr b.length = true) :
    hostStore addr b s = .next (s.store addr b) := if_pos h

theorem hostStore_of_not {b : List Byte} (h : rangeValid s.memMap addr b.length = false) :
    hostStore addr b s = .fault (.hostNoMemory addr) := if_neg (by simp [h])

theorem hostLoad_of {n : Nat} (h : rangeValid s.memMap addr n = true) :
    hostLoad addr n s = .next { s with hostMem := memRead s.mem addr n } := if_pos h

theorem hostLoad_of_not {n : Nat} (h : rangeValid s.memMap addr n = false) :
    hostLoad addr n s = .fault (.hostNoMemory addr) := if_neg (by simp [h])

/-- Settles O13: `hostStore_of` and `hostLoad_of` as the next host action, with `memGet_memWrite` for the stored bytes. -/
theorem hostStoresAndLoadsBytes : Obligations.HostStoresAndLoadsBytes := by
  intro s addr rest hc hwf
  refine ⟨fun b hh => ?_, fun n hh => ?_⟩ <;> rw [step_of_host_cons hc hh, hostAct]
  · refine ⟨fun hb => ⟨memWrite s.mem addr b, ?_, fun a => memGet_memWrite addr b a hwf⟩, fun hb => ?_⟩
    · exact hostStore_of (s := { s with host := rest }) hb
    · exact hostStore_of_not (s := { s with host := rest }) hb
  · refine ⟨fun hn => ?_, fun hn => ?_⟩
    · exact hostLoad_of (s := { s with host := rest }) hn
    · exact hostLoad_of_not (s := { s with host := rest }) hn

/-! ### What a command stores (R53) -/

/-- Memory of `t` is that of `s` after one store from the base of the range `r`, of at most its length. -/
def StoresWithin (s t : State) (r : Nat × Nat) : Prop :=
  ∃ b : List Byte, b.length ≤ r.2 ∧ t.mem = memWrite s.mem r.1 b

theorem storesWithin_of_mem_eq (h : t.mem = s.mem) (r : Nat × Nat) : StoresWithin s t r :=
  ⟨[], Nat.zero_le _, h⟩

theorem StoresWithin.memGet_outside {r : Nat × Nat} {a : Nat} (h : StoresWithin s t r) (hwf : Memory.wf s.mem = true)
    (ha : a < r.1 ∨ r.1 + r.2 ≤ a) : memGet t.mem a = memGet s.mem a := by
  obtain ⟨b, hb, hmem⟩ := h
  rw [hmem]
  exact memGet_memWrite_outside hwf (by omega)

/-- A completed transform stores the span it was given (R86). -/
theorem transform_ok_storesWithin {dir : Dir} {c : Nat} {acc : Fin 16} (h : transform dir c acc s = .ok t) :
    StoresWithin s t (s.aNat 1, s.aNat 2) := by
  obtain ⟨x, S, k, ks, -, -, -, -, -, -, -, -, hks, rfl⟩ := transform_eq_ok.mp h
  exact ⟨_, (newSpan_length hks).le, rfl⟩

/-- `ackTagLength` is the length of the tag where the streaming pass gives one (R125). -/
theorem ackTagLength_of {c : Nat} {x : Ctx} {S : Suite} {k k' : AckState} {tag : List Byte} (hx : s.ctx[c]? = some x)
    (hS : s.reg[x.suite]? = some S) (hk : x.ack = some k)
    (htag : ackStream S.impl k (memRead s.mem s.a[0].toNat s.a[1].toNat) = some (tag, k')) :
    ackTagLength s c = tag.length := by
  simp only [ackTagLength, hx, hS, hk, htag]

theorem workOf_ok_storesWithin (h : workOf i s = .ok t) : StoresWithin s t (writtenRange s i) := by
  cases i with
  | encrypt c acc => exact transform_ok_storesWithin h
  | decrypt c acc =>
    obtain ⟨u, hu, rfl⟩ := decryptWork_eq_ok.mp h
    obtain ⟨b, hb, hmem⟩ := transform_ok_storesWithin hu
    exact ⟨b, hb, hmem⟩
  | mac c =>
    obtain ⟨x, S, -, -, -, -, ⟨-, rfl⟩ | ⟨-, owner, M, mk, full, -, -, -, -, -, -, -, -, rfl⟩⟩ := macWork_eq_ok.mp h
    · exact storesWithin_of_mem_eq rfl _
    · exact ⟨macTag full.toList, List.length_take_le _ _, rfl⟩
  | acktag c =>
    obtain ⟨x, S, k, tag, k', hx, -, hS, -, hk, -, htag, -, rfl⟩ := acktagWork_eq_ok.mp h
    exact ⟨tag, (ackTagLength_of hx hS hk htag).ge, rfl⟩
  | getdesc n =>
    obtain ⟨S, -, -, rfl⟩ := getdescWork_eq_ok.mp h
    exact ⟨beBytes 4 S.id.toNat, (beBytes_length _ _).le, rfl⟩
  | init | setkey | setkeys | finish | lookup | gettype | nextiv =>
    exact storesWithin_of_mem_eq (by cases workOf_ok_effect h <;> rfl) _

/-- A command that is ignored or faults stores nothing (R161, R162); one that completes, within its range. -/
theorem exec_storesWithin (h : exec i s = .next t) : StoresWithin s t (writtenRange s i) := by
  rcases exec_cases h with ⟨-, rfl⟩ | ⟨-, code, info, -, rfl⟩ | ⟨-, hw⟩
  · exact storesWithin_of_mem_eq rfl _
  · exact storesWithin_of_mem_eq rfl _
  · exact workOf_ok_storesWithin hw

/-- Settles O27: `exec_storesWithin`, and a store leaves every byte outside its range as it was. -/
theorem commandsWriteOnlyTheirRange : Obligations.CommandsWriteOnlyTheirRange :=
  fun _ _ _ _ hwf h ha => (exec_storesWithin h).memGet_outside hwf ha

end Sys2Proof.Machine

/-! The opcode map and the encoder (spec/30_encoding.md R61 to R68): what a row fixes in the words it selects, and the
row of a command. -/

namespace Sys2Proof

variable {w v : CmdWord} {i : Instr} {r : Row}

/-! ### The fields a row fixes (R62, R64, R65) -/

/-- The fields that are zero in a legal word: bits 19:17 and 31:24, `DIR` and `ACC` outside format X, `SEL` in format N
(R61, R65). -/
def ZeroFieldsClear (w : CmdWord) : Prop :=
  w.extractLsb' 17 3 = 0 ∧ w.extractLsb' 24 8 = 0 ∧
  (opcField w ≠ 0x10#8 → w.extractLsb' 16 1 = 0 ∧ w.extractLsb' 20 4 = 0) ∧
  (opcField w = 0x40#8 → w.extractLsb' 8 8 = 0)

/-- A match word leaves the operand fields zero (R64). -/
theorem mtch_fields :
    ∀ r ∈ rows, ZeroFieldsClear r.mtch ∧ r.mtch.extractLsb' 8 8 = 0 ∧ r.mtch.extractLsb' 20 4 = 0 := by
  unfold ZeroFieldsClear
  decide

/-- A mask covers every field but `SEL`, which only format N fixes, and `ACC`, which format X leaves free (R62). -/
theorem mask_fields : ∀ r ∈ rows,
    r.mask.extractLsb' 0 8 = BitVec.allOnes 8 ∧
    r.mask.extractLsb' 8 8 = (if opcField r.mtch = 0x40#8 then BitVec.allOnes 8 else 0#8) ∧
    r.mask.extractLsb' 16 1 = BitVec.allOnes 1 ∧ r.mask.extractLsb' 17 3 = BitVec.allOnes 3 ∧
    r.mask.extractLsb' 20 4 = (if opcField r.mtch ≠ 0x10#8 then BitVec.allOnes 4 else 0#4) ∧
    r.mask.extractLsb' 24 8 = BitVec.allOnes 8 := by decide

theorem and_ite_allOnes_eq_zero {n : Nat} {p : Prop} [Decidable p] (x : BitVec n) :
    x &&& (if p then BitVec.allOnes n else 0#n) = 0 ↔ (p → x = 0) := by
  split <;> simp [*]

theorem Row.selects_iff : r.selects w = true ↔ w &&& r.mask = r.mtch := decide_eq_true_iff

/-- A row selects the words with its `OPC` and `DIR` whose must-be-zero fields are zero. -/
theorem Row.selects_iff_fields (hr : r ∈ rows) :
    r.selects w = true ↔
      opcField w = opcField r.mtch ∧ w.extractLsb' 16 1 = r.mtch.extractLsb' 16 1 ∧ ZeroFieldsClear w := by
  obtain ⟨⟨hlow, hhigh, hdir, -⟩, hsel, hacc⟩ := mtch_fields r hr
  obtain ⟨mopc, msel, mdir, mlow, macc, mhigh⟩ := mask_fields r hr
  rw [Row.selects_iff, and_eq_iff_fields, mopc, msel, mdir, mlow, macc, mhigh, hlow, hhigh, hsel, hacc]
  simp only [BitVec.and_allOnes, and_ite_allOnes_eq_zero]
  simp only [ZeroFieldsClear, opcField] at hdir ⊢
  constructor
  · rintro ⟨hopc, wsel, wdir, wlow, wacc, whigh⟩
    rw [← hopc] at hdir wsel wacc
    exact ⟨hopc, wdir, wlow, whigh, fun hx => ⟨wdir.trans (hdir hx).1, wacc hx⟩, wsel⟩
  · rintro ⟨hopc, wdir, wlow, whigh, wx, wn⟩
    rw [← hopc]
    exact ⟨rfl, wn, wdir, wlow, fun hx => (wx hx).2, whigh⟩

/-! ### At most one row, and at least one for a legal word (R65) -/

/-- No two rows agree in `OPC` and `DIR`. -/
theorem rows_filter_of_mem (hr : r ∈ rows) :
    rows.filter (fun q => decide (opcField r.mtch = opcField q.mtch ∧
      r.mtch.extractLsb' 16 1 = q.mtch.extractLsb' 16 1)) = [r] := by
  simp only [rows, List.mem_cons, List.not_mem_nil, or_false] at hr
  rcases hr with rfl | rfl | rfl | rfl | rfl | rfl | rfl | rfl | rfl | rfl | rfl | rfl <;> rfl

theorem rows_filter_selects (hr : r ∈ rows) (h : r.selects w = true) : rows.filter (fun q => q.selects w) = [r] := by
  rw [← rows_filter_of_mem hr]
  obtain ⟨hopc, hdir, hz⟩ := (Row.selects_iff_fields hr).mp h
  refine List.filter_congr fun q hq => Bool.eq_iff_iff.mpr ?_
  rw [Row.selects_iff_fields hq, hopc, hdir, decide_eq_true_iff, and_iff_left hz]

/-- The eleven values of `OPC` in the opcode map (R64). -/
def opcodes : List (BitVec 8) :=
  [0x10#8, 0x20#8, 0x21#8, 0x22#8, 0x23#8, 0x30#8, 0x31#8, 0x40#8, 0x41#8, 0x42#8, 0x43#8]

theorem opcField_mtch_mem : ∀ r ∈ rows, opcField r.mtch ∈ opcodes := by decide

/-- Format X has a row for each `DIR`, every other opcode one for `DIR` = 0. -/
theorem exists_row_of_opcode : ∀ opc ∈ opcodes, ∀ dir : BitVec 1, (opc ≠ 0x10#8 → dir = 0) →
    ∃ r ∈ rows, opc = opcField r.mtch ∧ dir = r.mtch.extractLsb' 16 1 := by decide

/-- The legal words by their fields (R65). -/
theorem exists_row_selects_iff : (∃ r ∈ rows, r.selects w = true) ↔ opcField w ∈ opcodes ∧ ZeroFieldsClear w := by
  constructor
  · rintro ⟨r, hr, h⟩
    obtain ⟨hopc, -, hz⟩ := (Row.selects_iff_fields hr).mp h
    exact ⟨hopc ▸ opcField_mtch_mem r hr, hz⟩
  · rintro ⟨hmem, hz⟩
    obtain ⟨-, -, hx, -⟩ := id hz
    obtain ⟨r, hr, hopc, hdir⟩ := exists_row_of_opcode _ hmem (w.extractLsb' 16 1) fun h => (hx h).1
    exact ⟨r, hr, (Row.selects_iff_fields hr).mpr ⟨hopc, hdir, hz⟩⟩

theorem decode_eq_error_iff_fields : (∃ e, decode w = .error e) ↔ ¬(opcField w ∈ opcodes ∧ ZeroFieldsClear w) := by
  rw [decode_eq_error_iff, ← exists_row_selects_iff]
  simp only [not_exists, not_and, Bool.not_eq_true]

/-! ### The row of a command (R64, R68) -/

/-- The row a command is written in: its place in the opcode map. -/
def Instr.rowNumber : Instr → Fin 12
  | .encrypt _ _ => 0
  | .decrypt _ _ => 1
  | .init _ => 2
  | .setkey _ => 3
  | .setkeys _ => 4
  | .finish _ => 5
  | .mac _ => 6
  | .acktag _ => 7
  | .lookup => 8
  | .getdesc _ => 9
  | .gettype _ => 10
  | .nextiv _ => 11

def Instr.row (i : Instr) : Row := rows.get i.rowNumber

theorem Instr.row_mem (i : Instr) : i.row ∈ rows := List.get_mem rows i.rowNumber

theorem Instr.row_mtch (i : Instr) : i.row.mtch = i.matchWord := by cases i <;> rfl

/-- A row builds its command from any word with the command's operands. -/
theorem Instr.row_build (hsel : selField w = i.sel) (hacc : accField w = i.acc) : i.row.build w = i := by
  cases i with
  | encrypt | decrypt => exact congrArg₂ _ hsel hacc
  | lookup => rfl
  | init | setkey | setkeys | finish | mac | acktag | getdesc | gettype | nextiv => exact congrArg _ hsel

/-- The operands of a command lie outside the mask of its row. -/
theorem Instr.encode_and_rowMask (h : i.wf = true) : encode i &&& i.row.mask = i.matchWord &&& i.row.mask := by
  cases i with
  | encrypt | decrypt => exact encode_and_maskX _ h
  | lookup => rfl
  | init | setkey | setkeys | finish | mac | acktag | getdesc | gettype | nextiv => exact encode_and_maskC _ h rfl

theorem mtch_and_mask : ∀ r ∈ rows, r.mtch &&& r.mask = r.mtch := by decide

theorem Instr.row_selects_encode (h : i.wf = true) : i.row.selects (encode i) = true := by
  rw [Row.selects_iff, Instr.encode_and_rowMask h, ← Instr.row_mtch, mtch_and_mask _ i.row_mem]

/-- Settles O1: the row of the command selects its word, and builds the command from the two operand fields. -/
theorem decodeOfEncodeIsTheCommand : Obligations.DecodeOfEncodeIsTheCommand := fun i h =>
  (decode_eq_ok_iff _ _).mpr
    ⟨i.row, i.row_mem, Instr.row_selects_encode h, Instr.row_build (selField_encode i h) (accField_encode i h)⟩

/-! ### The word of a decoded command (R64, R65) -/

/-- A field that lies wholly under a mask is the same in words that the mask does not tell apart. -/
theorem field_eq_of_and_eq {m : CmdWord} {start len : Nat} (h : w &&& m = v &&& m)
    (hm : m.extractLsb' start len = BitVec.allOnes len) : w.extractLsb' start len = v.extractLsb' start len := by
  simpa only [BitVec.extractLsb'_and, hm, BitVec.and_allOnes] using congrArg (BitVec.extractLsb' start len) h

/-- The mask of format X leaves out `SEL` and `ACC` only (R62). -/
theorem eq_of_and_maskX_eq (h : w &&& maskX = v &&& maskX) (hsel : selField w = selField v)
    (hacc : accField w = accField v) : w = v :=
  word_ext (field_eq_of_and_eq h rfl) (BitVec.eq_of_toNat_eq hsel) (field_eq_of_and_eq h rfl)
    (field_eq_of_and_eq h rfl) (BitVec.eq_of_toFin_eq hacc) (field_eq_of_and_eq h rfl)

/-- A well-formed command's word is the word with its fixed bits, its selector and its accumulator number. -/
theorem encode_eq_of_fields (h : i.wf = true) (hm : w &&& maskX = i.matchWord &&& maskX) (hsel : selField w = i.sel)
    (hacc : accField w = i.acc) : encode i = w :=
  eq_of_and_maskX_eq ((encode_and_maskX i h).trans hm.symm) ((selField_encode i h).trans hsel.symm)
    ((accField_encode i h).trans hacc.symm)

theorem mask_and_maskX : ∀ r ∈ rows, r.mask &&& maskX = maskX := by decide

theorem Row.build_fields (hr : r ∈ rows) (w : CmdWord) :
    (r.build w).matchWord = r.mtch ∧
    (r.build w).sel = (if opcField r.mtch = 0x40#8 then 0 else selField w) ∧
    (r.build w).acc = (if opcField r.mtch ≠ 0x10#8 then 0 else accField w) := by
  simp only [rows, List.mem_cons, List.not_mem_nil, or_false] at hr
  rcases hr with rfl | rfl | rfl | rfl | rfl | rfl | rfl | rfl | rfl | rfl | rfl | rfl <;> exact ⟨rfl, rfl, rfl⟩

/-- In a word the row selects, an operand the command does not have is a zero field. -/
theorem Row.build_operands (hr : r ∈ rows) (h : r.selects w = true) :
    (r.build w).sel = selField w ∧ (r.build w).acc = accField w := by
  obtain ⟨hopc, -, -, -, hx, hn⟩ := (Row.selects_iff_fields hr).mp h
  obtain ⟨-, hsel, hacc⟩ := Row.build_fields hr w
  rw [hsel, hacc, ← hopc]
  constructor
  · split
    case isTrue ho => rw [selField, hn ho]; rfl
    case isFalse => rfl
  · split
    case isTrue ho => rw [accField, (hx ho).2]; rfl
    case isFalse => rfl

/-- Settles O2: the row that selects the word fixes its bits under the mask, and the operands are the other two
fields. -/
theorem legalWordIsReencoded : Obligations.LegalWordIsReencoded := by
  intro w i h
  obtain ⟨r, hr, hs, rfl⟩ := (decode_eq_ok_iff w i).mp h
  obtain ⟨hsel, hacc⟩ := Row.build_operands hr hs
  have hwf : (r.build w).wf = true := by
    rw [Instr.wf, hsel]
    exact decide_eq_true (w.extractLsb' 8 8).isLt
  have hfixed : w &&& maskX = (r.build w).matchWord &&& maskX := by
    obtain ⟨hmtch, -, -⟩ := Row.build_fields hr w
    rw [hmtch, ← Row.selects_iff.mp hs, BitVec.and_assoc, mask_and_maskX r hr]
  exact ⟨hwf, encode_eq_of_fields hwf hfixed hsel.symm hacc.symm⟩

/-- Settles O3: a row that selects the word is the only one, and the decoder answers by it. -/
theorem wordSelectsOneRowOrIsIllegal : Obligations.WordSelectsOneRowOrIsIllegal := by
  intro w
  by_cases h : ∃ r ∈ rows, r.selects w = true
  · obtain ⟨r, hr, hs⟩ := h
    exact .inl ⟨r, rows_filter_selects hr hs, (decode_eq_ok_iff w _).mpr ⟨r, hr, hs, rfl⟩⟩
  · have hnone : ∀ r ∈ rows, r.selects w = false := fun r hr => Bool.eq_false_iff.mpr fun hs => h ⟨r, hr, hs⟩
    exact .inr ⟨fun r hr => of_decide_eq_false (hnone r hr), (decode_eq_error_iff w).mpr hnone⟩

/-- Settles O4: `decode_eq_error_iff_fields`, with the negation carried into the fields. -/
theorem illegalWordsByTheirFields : Obligations.IllegalWordsByTheirFields := by
  intro w
  rw [decode_eq_error_iff_fields, ZeroFieldsClear, opcField, opcodes]
  tauto

/-- Settles O5: each word is the encoding of its command, and so decodes to it. -/
theorem writtenOutWordsDecode : Obligations.WrittenOutWordsDecode :=
  ⟨decodeOfEncodeIsTheCommand (.encrypt 3 2) rfl, decodeOfEncodeIsTheCommand (.decrypt 3 2) rfl,
    decodeOfEncodeIsTheCommand (.decrypt 255 15) rfl, decodeOfEncodeIsTheCommand (.init 15) rfl,
    decodeOfEncodeIsTheCommand (.setkey 3) rfl, decodeOfEncodeIsTheCommand (.setkeys 1) rfl,
    decodeOfEncodeIsTheCommand (.finish 5) rfl, decodeOfEncodeIsTheCommand (.mac 0) rfl,
    decodeOfEncodeIsTheCommand (.acktag 4) rfl, decodeOfEncodeIsTheCommand .lookup rfl,
    decodeOfEncodeIsTheCommand (.getdesc 1) rfl, decodeOfEncodeIsTheCommand (.gettype 2) rfl,
    decodeOfEncodeIsTheCommand (.nextiv 1) rfl⟩

end Sys2Proof

/-! A CMD write of an illegal word (R65, R160). -/

namespace Sys2Proof.Machine

theorem regStore_cmd_illegal {s : State} {v : Word} {e : Illegal} (h : s.halt = false)
    (hd : decode (v.setWidth 32) = .error e) :
    regStore .cmd v s = .next (raise .illegalCmd 0 { s with cmd := v.setWidth 32 }) := by
  simp [regStore, h, issue, hd]

/-- Settles O7: `step_regWrite` and `regStore_cmd_illegal`; the next state is the fault entry of R160. -/
theorem illegalWordHaltsWithIllegalCmd : Obligations.IllegalWordHaltsWithIllegalCmd := by
  intro s v rest e hc hhalt hh hd
  exact ⟨_, (step_regWrite hc hh rfl).trans (regStore_cmd_illegal (s := { s with host := rest }) hhalt hd), rfl,
    show FaultCode.word .illegalCmd = 0x301#64 by decide⟩

end Sys2Proof.Machine

/-! The checksum fold (spec/41_transform.md R88, R89, R95). -/

namespace Sys2Proof.Machine

/-! ### Ones'-complement addition -/

/-- One end-around carry suffices (R89). -/
theorem ocAdd_toNat (s w : CsumWord) : (ocAdd s w).toNat =
    if s.toNat + w.toNat ≤ 0xFFFF then s.toNat + w.toNat else s.toNat + w.toNat - 0xFFFF := by
  have hs := s.isLt
  have hw := w.isLt
  rw [ocAdd, BitVec.toNat_ofNat]
  split <;> omega

theorem ocAdd_comm (s w : CsumWord) : ocAdd s w = ocAdd w s := by
  simp only [ocAdd, Nat.add_comm]

theorem ocAdd_assoc (s w v : CsumWord) : ocAdd (ocAdd s w) v = ocAdd s (ocAdd w v) := by
  apply BitVec.eq_of_toNat_eq
  have hs := s.isLt
  have hw := w.isLt
  have hv := v.isLt
  simp only [ocAdd_toNat]
  split_ifs <;> omega

@[simp] theorem ocAdd_zero (s : CsumWord) : ocAdd s 0 = s := by
  apply BitVec.eq_of_toNat_eq
  have hs := s.isLt
  rw [ocAdd_toNat, show (0 : CsumWord).toNat = 0 from rfl, if_pos (by omega), Nat.add_zero]

theorem ocAdd_eq_zero {s w : CsumWord} (h : ocAdd s w = 0) : s = 0 ∧ w = 0 := by
  have hsum := congrArg BitVec.toNat h
  rw [ocAdd_toNat, show (0 : CsumWord).toNat = 0 from rfl] at hsum
  have hzero : s.toNat = 0 ∧ w.toNat = 0 := by split at hsum <;> omega
  exact ⟨BitVec.eq_of_toNat_eq hzero.1, BitVec.eq_of_toNat_eq hzero.2⟩

theorem ocAdd_ones {s : CsumWord} (h : s ≠ 0) : ocAdd s 0xFFFF#16 = s := by
  have hpos : s.toNat ≠ 0 := fun h0 => h (BitVec.eq_of_toNat_eq h0)
  apply BitVec.eq_of_toNat_eq
  rw [ocAdd_toNat, show (0xFFFF#16).toNat = 0xFFFF from rfl, if_neg (by omega), Nat.add_sub_cancel]

/-- Settles O39: the carry equation `ocAdd_toNat`, and each law from it. -/
theorem ocAddLaws : Obligations.OcAddLaws := by
  refine ⟨ocAdd_toNat, ocAdd_comm, ocAdd_assoc, ocAdd_zero, fun w => (ocAdd_comm 0 w).trans (ocAdd_zero w),
    fun s w => ocAdd_eq_zero, fun s => ocAdd_ones, by decide, fun s w => ?_⟩
  rw [ocAdd_toNat]
  split <;> omega

/-! ### Folding a string -/

/-- An even cut falls between two pairs (R95). -/
theorem csumFold_append (s : CsumWord) (p q : List Byte) (h : p.length % 2 = 0) :
    csumFold s (p ++ q) = csumFold (csumFold s p) q := by
  induction s, p using csumFold.induct with
  | case1 s => rfl
  | case2 s b => simp at h
  | case3 s lo hi rest ih => exact ih (by simp only [List.length_cons] at h; omega)

theorem csumFold_replicate_zero (s : CsumWord) (n : Nat) : csumFold s (List.replicate n 0) = s := by
  induction n using Nat.twoStepInduction with
  | zero => rfl
  | one => exact ocAdd_zero s
  | more n ih _ =>
    rw [List.replicate_succ, List.replicate_succ, csumFold, show csumPair 0 0 = 0 by decide, ocAdd_zero, ih]

/-- Settles O40: `csumFold_append` and `csumFold_replicate_zero`. -/
theorem evenCutsKeepTheChecksum : Obligations.EvenCutsKeepTheChecksum :=
  ⟨csumFold_append, csumFold_replicate_zero⟩

/-! ### The fold as the loop of R88 -/

variable {f : Nat → Byte}

theorem csumPair_eq_ofNat (lo hi : Byte) : csumPair lo hi = BitVec.ofNat 16 (lo.toNat + 256 * hi.toNat) := by
  apply BitVec.eq_of_toNat_eq
  have hlo := lo.isLt
  have hhi := hi.isLt
  simp only [csumPair, BitVec.toNat_append, BitVec.toNat_ofNat]
  rw [← Nat.shiftLeft_add_eq_or_of_lt hlo, Nat.shiftLeft_eq]
  omega

/-- The first word is folded, and the loop goes on with the bytes after it. -/
theorem csumLoop_add_two (s : CsumWord) (len : Nat) :
    csumLoop s f (len + 2) = csumLoop (ocAdd s (csumPair (f 0) (f 1))) (fun j => f (j + 2)) len := by
  have hfirst : csumWordAt f (len + 2) 0 = csumPair (f 0) (f 1) := by
    simp [csumWordAt, csumPair_eq_ofNat]
  have hrest : ∀ k, csumWordAt f (len + 2) (k + 1) = csumWordAt (fun j => f (j + 2)) len k := fun k => by
    simp only [csumWordAt, Nat.mul_add, Nat.mul_one, Nat.add_right_comm _ 2 1, Nat.add_lt_add_iff_right]
  have hcount : (len + 2 + 1) / 2 = (len + 1) / 2 + 1 := by omega
  simp only [csumLoop, hcount, List.range_succ_eq_map, List.foldl_cons, List.foldl_map, hfirst, hrest]

/-- The fold of a string is the loop over its bytes (R88). -/
theorem csumFold_eq_csumLoop (s : CsumWord) (p : List Byte) (h : ∀ j, j < p.length → p.getD j 0 = f j) :
    csumFold s p = csumLoop s f p.length := by
  induction s, p using csumFold.induct generalizing f with
  | case1 s => rfl
  | case2 s b =>
    have hb : b = f 0 := h 0 Nat.zero_lt_one
    simp [csumFold, csumLoop, csumWordAt, csumPair_eq_ofNat, hb]
  | case3 s lo hi rest ih =>
    have hlo : lo = f 0 := h 0 (by simp)
    have hhi : hi = f 1 := h 1 (by simp)
    rw [csumFold, List.length_cons, List.length_cons, csumLoop_add_two, ← hlo, ← hhi]
    exact ih fun j hj => h (j + 2) (by simpa using hj)

end Sys2Proof.Machine

/-! Sequence values, counter values and counter blocks (spec/41_transform.md R82, R84, R94). -/

namespace Sys2Proof.Machine

/-! ### The block of a counter value (R84) -/

theorem beNat_replicate_zero_append (n : Nat) (b : List Byte) : beNat (List.replicate n 0 ++ b) = beNat b := by
  induction n with
  | zero => rfl
  | succ n ih => rw [List.replicate_succ, List.cons_append, beNat_cons, ih]; simp

theorem map_beByte (v : Word) : (List.range 8).map (beByte v) = beBytes 8 v.toNat := by
  have hbyte : ∀ i, beByte v i = BitVec.ofNat 8 (v.toNat / 2 ^ (8 * (7 - i))) := fun i =>
    BitVec.eq_of_toNat_eq (by rw [beByte_toNat, BitVec.toNat_ofNat])
  simp [hbyte, beBytes, List.range_succ]

/-- The 16 bytes of a counter block are its value, so the high 8 are 0. -/
theorem beNat_counterBlock (v : Word) : beNat (counterBlock v).toList = v.toNat := by
  rw [counterBlock_toList, beNat_replicate_zero_append, map_beByte, beNat_beBytes]
  exact Nat.mod_eq_of_lt v.isLt

/-- Settles O37: `beNat_counterBlock` at a counter value. -/
theorem counterBlocksAreBigEndian : Obligations.CounterBlocksAreBigEndian :=
  ⟨fun seq => ⟨seqCtr_toNat seq, seqRem_toNat seq⟩,
    fun stride ctr i => (beNat_counterBlock _).trans (counterValue_toNat stride ctr i)⟩

/-! ### A span cut after `L` bytes (R94): `(seqRem seq + L) / 16` is the number of blocks the first part has finished -/

variable {seq : Word} {L j : Nat}

theorem seqRem_add (seq : Word) (L : Nat) : seqRem (seq + BitVec.ofNat 64 L) = (seqRem seq + L) % 16 := by
  simp only [seqRem_toNat, BitVec.toNat_add, BitVec.toNat_ofNat]
  omega

/-- The counter of the second part is ahead by 16 for each finished block. -/
theorem seqCtr_add (seq : Word) (L : Nat) :
    seqCtr (seq + BitVec.ofNat 64 L) = seqCtr seq + BitVec.ofNat 64 (16 * ((seqRem seq + L) / 16)) := by
  apply BitVec.eq_of_toNat_eq
  simp only [seqCtr_toNat, seqRem_toNat, BitVec.toNat_add, BitVec.toNat_ofNat]
  omega

theorem cut_offset (h : L ≤ j) : (seqRem (seq + BitVec.ofNat 64 L) + (j - L)) % 16 = (seqRem seq + j) % 16 := by
  rw [seqRem_add]; omega

theorem cut_block (h : L ≤ j) : (seqRem seq + j) / 16 =
    (seqRem seq + L) / 16 + (seqRem (seq + BitVec.ofNat 64 L) + (j - L)) / 16 := by
  rw [seqRem_add]; omega

/-- The counter values differ by `16 - stride` for each finished block. -/
theorem counterValue_cut (stride : Stride) (h : L ≤ j) :
    counterValue stride (seqCtr (seq + BitVec.ofNat 64 L)) ((seqRem (seq + BitVec.ofNat 64 L) + (j - L)) / 16) =
      counterValue stride (seqCtr seq) ((seqRem seq + j) / 16) +
        BitVec.ofNat 64 ((16 - stride.toNat) * ((seqRem seq + L) / 16)) := by
  rw [cut_block h, seqCtr_add]
  simp only [counterValue, BitVec.add_assoc, ← BitVec.ofNat_add]
  cases stride <;> (congr 2; simp only [Stride.toNat]; omega)

/-- A cut shifts no counter value under stride 16; under stride 1, exactly when the first part finishes no block. -/
theorem counterValue_cut_eq_iff (stride : Stride) (h : L ≤ j) (hL : L < 2 ^ 64) :
    counterValue stride (seqCtr (seq + BitVec.ofNat 64 L)) ((seqRem (seq + BitVec.ofNat 64 L) + (j - L)) / 16) =
      counterValue stride (seqCtr seq) ((seqRem seq + j) / 16) ↔ stride = .sixteen ∨ seqRem seq + L < 16 := by
  rw [counterValue_cut stride h]
  refine add_eq_left.trans ?_
  rw [← BitVec.toNat_inj, BitVec.toNat_ofNat]
  cases stride with
  | one =>
    have hblocks : (seqRem seq + L) / 16 ≤ 2 ^ 60 := by
      have hrem : seqRem seq < 16 := by rw [seqRem_toNat]; omega
      omega
    have hnowrap : 15 * ((seqRem seq + L) / 16) % 2 ^ 64 = 15 * ((seqRem seq + L) / 16) :=
      Nat.mod_eq_of_lt (by omega)
    calc (15 * ((seqRem seq + L) / 16)) % 2 ^ 64 = 0
      _ ↔ (seqRem seq + L) / 16 = 0 := by rw [hnowrap]; omega
      _ ↔ Stride.one = .sixteen ∨ seqRem seq + L < 16 := by simp
  | sixteen => simp [Stride.toNat]

/-- Settles O35: `cut_offset`, and `counterValue_cut_eq_iff` under each stride. -/
theorem counterBlocksAgreeAcrossCuts : Obligations.CounterBlocksAgreeAcrossCuts := fun seq L j h hL =>
  ⟨cut_offset h, (counterValue_cut_eq_iff .sixteen h hL).mpr (.inl rfl), by
    simpa using counterValue_cut_eq_iff .one h hL⟩

end Sys2Proof.Machine

/-! SIZING is never raised (spec/41_transform.md R90). -/

namespace Sys2Proof.Machine

theorem Effect.fault_eq {s t : State} {i : Instr} (h : Effect s i t) : t.fault = s.fault := by
  cases h <;> rfl

/-- Settles O41: a fault entry has a code listed for its command, and SIZING is listed for none; a completed command
leaves the fault registers. -/
theorem sizingIsUnreachable : Obligations.SizingIsUnreachable := by
  refine ⟨fun rem len hlen => ?_, fun i s t h hsizing => ?_⟩
  · unfold blockCount; omega
  · rcases exec_effect h with rfl | ⟨code, info, hcode, rfl⟩ | he
    · exact hsizing
    · exact absurd (hsizing ▸ hcode) (sizing_notMem_faultsOf i)
    · exact he.fault_eq.symm.trans hsizing

end Sys2Proof.Machine

/-! What a transform whose checks pass does to the state, and the commands ENCRYPT and DECRYPT by it
(spec/41_transform.md R81 to R92). -/

namespace Sys2Proof.Machine

variable {s t : State} {c : Nat} {acc : Fin 16} {ks : List Byte}

/-! ### The completed transform -/

/-- The span of a transform, as memory holds it. -/
def spanOf (s : State) : List Byte := memRead s.mem (s.aNat 1) (s.aNat 2)

/-- The span under the keystream `ks` (R86). -/
def xoredSpan (s : State) (ks : List Byte) : List Byte := xorSpan ks (seqRem (seqAt s (s.aNat 0))) (spanOf s)

/-- Memory with that span in its place. -/
def xoredMem (s : State) (ks : List Byte) : List Host.Cell := memWrite s.mem (s.aNat 1) (xoredSpan s ks)

/-- The checks of R81 pass on slot `c`, and the primitive gives the keystream `ks` (R82 to R85). -/
def MeetsKeystream (s : State) (c : Nat) (ks : List Byte) : Prop :=
  ∃ x S k, s.ctx[c]? = some x ∧ x.st.live = true ∧ s.reg[x.suite]? = some S ∧ S.caps.xform = true ∧
    x.bulk = some k ∧ s.aNat 2 ≠ 0 ∧ rangeValid s.memMap (s.aNat 0) 8 = true ∧
    rangeValid s.memMap (s.aNat 1) (s.aNat 2) = true ∧
    keystreamFrom S.impl k s.params.ctrStride (seqCtr (seqAt s (s.aNat 0))) 0
      (blockCount (seqRem (seqAt s (s.aNat 0))) (s.aNat 2)) = some ks

/-- The state a transform under the keystream `ks` leaves (R86 to R88). -/
def transformed (dir : Dir) (acc : Fin 16) (s : State) (ks : List Byte) : State :=
  (s.store (s.aNat 1) (xoredSpan s ks)).setCsum acc (csumFold s.csum[acc] (plainSide dir (spanOf s) (xoredSpan s ks)))

@[simp] theorem transformed_mem (dir : Dir) : (transformed dir acc s ks).mem = xoredMem s ks := rfl
@[simp] theorem transformed_halt (dir : Dir) : (transformed dir acc s ks).halt = s.halt := rfl
@[simp] theorem transformed_ret (dir : Dir) : (transformed dir acc s ks).ret = s.ret := rfl
@[simp] theorem transformed_a (dir : Dir) : (transformed dir acc s ks).a = s.a := rfl
@[simp] theorem transformed_ctx (dir : Dir) : (transformed dir acc s ks).ctx = s.ctx := rfl
@[simp] theorem transformed_reg (dir : Dir) : (transformed dir acc s ks).reg = s.reg := rfl
@[simp] theorem transformed_params (dir : Dir) : (transformed dir acc s ks).params = s.params := rfl
@[simp] theorem transformed_memMap (dir : Dir) : (transformed dir acc s ks).memMap = s.memMap := rfl
@[simp] theorem transformed_aNat (dir : Dir) (i : Fin 8) : (transformed dir acc s ks).aNat i = s.aNat i := rfl

theorem transformed_csum (dir : Dir) : (transformed dir acc s ks).csum[acc] =
    csumFold s.csum[acc] (plainSide dir (spanOf s) (xoredSpan s ks)) := by
  simp [transformed]

theorem transform_eq_ok_iff {dir : Dir} :
    transform dir c acc s = .ok t ↔ ∃ ks, MeetsKeystream s c ks ∧ t = transformed dir acc s ks := by
  rw [transform_eq_ok]
  constructor
  · rintro ⟨x, S, k, ks, hx, hl, hS, hcap, hk, hlen, hiv, hspan, hks, ht⟩
    exact ⟨ks, ⟨x, S, k, hx, hl, hS, hcap, hk, hlen, hiv, hspan, hks⟩, ht⟩
  · rintro ⟨ks, ⟨x, S, k, hx, hl, hS, hcap, hk, hlen, hiv, hspan, hks⟩, ht⟩
    exact ⟨x, S, k, ks, hx, hl, hS, hcap, hk, hlen, hiv, hspan, hks, ht⟩

theorem MeetsKeystream.transform_eq (h : MeetsKeystream s c ks) (dir : Dir) (acc : Fin 16) :
    transform dir c acc s = .ok (transformed dir acc s ks) :=
  transform_eq_ok_iff.mpr ⟨ks, h, rfl⟩

theorem MeetsKeystream.exec_encrypt (h : MeetsKeystream s c ks) (hhalt : s.halt = false) (acc : Fin 16) :
    exec (.encrypt c acc) s = .next (transformed .enc acc s ks) := by
  rw [exec_eq_runCommand, workOf, h.transform_eq, runCommand_ok hhalt]

theorem MeetsKeystream.exec_decrypt (h : MeetsKeystream s c ks) (hhalt : s.halt = false) (acc : Fin 16) :
    exec (.decrypt c acc) s = .next ((transformed .dec acc s ks).setRet s.a[2]) := by
  rw [exec_eq_runCommand, workOf, decryptWork, h.transform_eq]
  exact runCommand_ok hhalt

/-! ### The span and memory, byte by byte -/

@[simp] theorem spanOf_length (s : State) : (spanOf s).length = s.aNat 2 := memRead_length ..

/-- The keystream reaches from the remainder to the end of the span (R83). -/
theorem MeetsKeystream.rem_add_spanOf_length_le (h : MeetsKeystream s c ks) :
    seqRem (seqAt s (s.aNat 0)) + (spanOf s).length ≤ ks.length := by
  obtain ⟨x, S, k, -, -, -, -, -, -, -, -, hks⟩ := h
  obtain ⟨_, _, hlen, _⟩ := keystreamFrom_eq_some hks
  rw [spanOf_length, hlen]
  exact rem_add_len_le _ _

theorem MeetsKeystream.xoredSpan_length (h : MeetsKeystream s c ks) : (xoredSpan s ks).length = s.aNat 2 := by
  rw [xoredSpan, xorSpan_length h.rem_add_spanOf_length_le, spanOf_length]

/-- Memory `m'` is `m` with the bytes of the range XORed, byte `j` with `key j` (R86). -/
structure XorsBy (key : Nat → Byte) (m m' : List Host.Cell) (addr len : Nat) : Prop where
  inside : ∀ j, j < len → memGet m' (addr + j) = memGet m (addr + j) ^^^ key j
  outside : ∀ a, (a < addr ∨ addr + len ≤ a) → memGet m' a = memGet m a

theorem XorsBy.congr {key key' : Nat → Byte} {m m' : List Host.Cell} {addr len : Nat} (h : XorsBy key m m' addr len)
    (e : ∀ j, j < len → key j = key' j) : XorsBy key' m m' addr len :=
  ⟨fun j hj => e j hj ▸ h.inside j hj, h.outside⟩

theorem xoredMem_wf (hwf : Memory.wf s.mem = true) : Memory.wf (xoredMem s ks) = true :=
  memWrite_wf _ _ hwf

theorem MeetsKeystream.xorsBy (h : MeetsKeystream s c ks) (hwf : Memory.wf s.mem = true) :
    XorsBy (fun j => ks.getD (seqRem (seqAt s (s.aNat 0)) + j) 0) s.mem (xoredMem s ks) (s.aNat 1) (s.aNat 2) := by
  have hlen := h.xoredSpan_length
  refine ⟨fun j hj => ?_, fun a ha => memGet_memWrite_outside hwf (by rwa [hlen])⟩
  have hbyte : (xoredSpan s ks).getD j 0 = (spanOf s).getD j 0 ^^^ ks.getD (seqRem (seqAt s (s.aNat 0)) + j) 0 :=
    xorSpan_getD h.rem_add_spanOf_length_le (by rwa [spanOf_length])
  rw [xoredMem, memGet_memWrite _ _ _ hwf, if_pos (by omega), Nat.add_sub_cancel_left, hbyte, spanOf,
    memRead_getD hj]

/-- The span is in its place afterwards (R43). -/
theorem MeetsKeystream.memRead_xoredMem (h : MeetsKeystream s c ks) (hwf : Memory.wf s.mem = true) :
    memRead (xoredMem s ks) (s.aNat 1) (s.aNat 2) = xoredSpan s ks := by
  rw [← h.xoredSpan_length]
  exact memRead_memWrite _ _ hwf

/-! ### ENCRYPT and DECRYPT under given keystream blocks -/

/-- The counter values of a transform, from the sequence value as a number (R82, R84). -/
theorem counterValue_seqAt (s : State) (stride : Stride) (n : Nat) :
    counterValue stride (seqCtr (seqAt s (s.aNat 0))) n = BitVec.ofNat 64 (seqOf s / 16 * 16 + stride.toNat * n) := by
  apply BitVec.eq_of_toNat_eq
  rw [counterValue_toNat, seqCtr_toNat, seqAt_toNat, BitVec.toNat_ofNat]
  rfl

theorem seqRem_seqAt (s : State) : seqRem (seqAt s (s.aNat 0)) = seqOf s % 16 := by
  rw [seqRem_toNat, seqAt_toNat]
  rfl

theorem aNat_ne_zero {i : Fin 8} (h : s.a[i] ≠ 0) : s.aNat i ≠ 0 :=
  fun h0 => h (BitVec.eq_of_toNat_eq h0)

/-- A transform that may run meets the given blocks: span byte `j` the byte of R86. -/
theorem TransformReady.meetsKeystream {S : Suite} {k : BulkKey} {kb : Nat → Block} (h : TransformReady s c S k kb) :
    ∃ ks, MeetsKeystream s c ks ∧
      ∀ j, j < s.aNat 2 → ks.getD (seqRem (seqAt s (s.aNat 0)) + j) 0 = spanKey kb (seqOf s % 16) j := by
  obtain ⟨-, -, ⟨x, hx, hst, hS, hk⟩, hcap, hlen, hiv, hspan, hblocks⟩ := h
  have hgiven : ∀ n, n < blockCount (seqRem (seqAt s (s.aNat 0))) (s.aNat 2) →
      bcEnc S.impl k (counterBlock (counterValue s.params.ctrStride (seqCtr (seqAt s (s.aNat 0))) (0 + n))) =
        some (kb (0 + n)) := by
    intro n hn
    rw [Nat.zero_add, counterValue_seqAt]
    exact hblocks n (by rwa [seqRem_seqAt] at hn)
  obtain ⟨ks, hks, -, hget⟩ := keystreamFrom_of_blocks hgiven
  refine ⟨ks, ⟨x, S, k, hx, live_iff.mpr (.inr hst), hS, hcap, hk, aNat_ne_zero (i := 2) hlen, hiv, hspan, hks⟩,
    fun j hj => ?_⟩
  have hcover := rem_add_len_le (seqRem (seqAt s (s.aNat 0))) (s.aNat 2)
  rw [hget _ (by omega), Nat.zero_add, seqRem_seqAt]
  rfl

/-- The fold of a stretch of memory is the loop of R88 over it. -/
theorem csumFold_memRead (v : CsumWord) (m : List Host.Cell) (addr n : Nat) :
    csumFold v (memRead m addr n) = csumLoop v (fun j => memGet m (addr + j)) n := by
  rw [csumFold_eq_csumLoop v _ fun j hj => memRead_getD (by rwa [memRead_length] at hj), memRead_length]

/-- Settles O30: `MeetsKeystream.xorsBy` under the given blocks, and the fold of the old span as the loop of R88. -/
theorem encryptXorsSpanAndFoldsInput : Obligations.EncryptXorsSpanAndFoldsInput := by
  intro s c acc S k kb hready
  obtain ⟨ks, hks, hkey⟩ := hready.meetsKeystream
  obtain ⟨hhalt, hwf, -⟩ := hready
  obtain ⟨hinside, houtside⟩ := (hks.xorsBy hwf).congr hkey
  refine ⟨xoredMem s ks, ?_, xoredMem_wf hwf, hinside, houtside⟩
  rw [hks.exec_encrypt hhalt, transformed, plainSide, spanOf, csumFold_memRead]
  rfl

/-- Settles O31: the new span is what memory holds in its place afterwards. -/
theorem decryptXorsSpanFoldsOutputReturnsLength : Obligations.DecryptXorsSpanFoldsOutputReturnsLength := by
  intro s c acc S k kb hready
  obtain ⟨ks, hks, hkey⟩ := hready.meetsKeystream
  obtain ⟨hhalt, hwf, -⟩ := hready
  have hfold := csumFold_memRead s.csum[acc] (xoredMem s ks) (s.aNat 1) (s.aNat 2)
  rw [hks.memRead_xoredMem hwf] at hfold
  obtain ⟨hinside, houtside⟩ := (hks.xorsBy hwf).congr hkey
  refine ⟨xoredMem s ks, ?_, xoredMem_wf hwf, hinside, houtside⟩
  rw [hks.exec_decrypt hhalt, transformed, plainSide, hfold]
  rfl

end Sys2Proof.Machine

/-! The first failing check of ENCRYPT and DECRYPT (spec/41_transform.md R81, R85). -/

namespace Sys2Proof.Machine

variable {s : State} {c : Nat} {S : Suite} {k : BulkKey}

theorem ofNat_aNat (s : State) (i : Fin 8) : BitVec.ofNat 64 (s.aNat i) = s.a[i] := by
  simp [State.aNat]

/-! ### One lemma per check, under the checks before it -/

section

variable {x : Ctx} {dir : Dir} {acc : Fin 16} {e : Stop}

theorem transform_of_liveSlot_error (h : liveSlot s c = .error e) : transform dir c acc s = .error e :=
  bind_eq_error.mpr (.inl h)

theorem transform_of_suiteFor_error (hslot : liveSlot s c = .ok x) (h : suiteFor s x .xform = .error e) :
    transform dir c acc s = .error e :=
  bind_eq_error.mpr (.inr ⟨x, hslot, bind_eq_error.mpr (.inl h)⟩)

variable (hslot : liveSlot s c = .ok x) (hsuite : suiteFor s x .xform = .ok S)
include hslot hsuite

theorem transform_of_unkeyed (hk : x.bulk = none) : transform dir c acc s = .error (.trap .notKeyed 0) := by
  simp [transform, hslot, hsuite, hk]

variable (hk : x.bulk = some k)
include hk

theorem transform_of_zeroLen (hlen : s.aNat 2 = 0) : transform dir c acc s = .error (.trap .zeroLen 0) := by
  simp [transform, hslot, hsuite, hk, raiseIf_of hlen]

variable (hlen : s.aNat 2 ≠ 0)
include hlen

theorem transform_of_ivRange (hiv : rangeValid s.memMap (s.aNat 0) 8 = false) :
    transform dir c acc s = .error (.trap .bus s.a[0]) := by
  have hinfo : BitVec.ofNat 64 (s.aNat 0) = s.a[0] := ofNat_aNat s 0
  simp [transform, hslot, hsuite, hk, raiseIf_of_not hlen, checkRange_of_not hiv, hinfo]

variable (hiv : rangeValid s.memMap (s.aNat 0) 8 = true)
include hiv

theorem transform_of_spanRange (hspan : rangeValid s.memMap (s.aNat 1) (s.aNat 2) = false) :
    transform dir c acc s = .error (.trap .bus s.a[1]) := by
  have hinfo : BitVec.ofNat 64 (s.aNat 1) = s.a[1] := ofNat_aNat s 1
  simp [transform, hslot, hsuite, hk, raiseIf_of_not hlen, checkRange_of hiv, checkRange_of_not hspan, hinfo]

theorem transform_of_primitiveFail (hspan : rangeValid s.memMap (s.aNat 1) (s.aNat 2) = true)
    (hks : keystreamFrom S.impl k s.params.ctrStride (seqCtr (seqAt s (s.aNat 0))) 0
      (blockCount (seqRem (seqAt s (s.aNat 0))) (s.aNat 2)) = none) :
    transform dir c acc s = .error (.trap .primitiveFail 3) := by
  simp [transform, hslot, hsuite, hk, raiseIf_of_not hlen, checkRange_of hiv, checkRange_of hspan, hks]

end

/-- Both commands report the trap of the transform they share. -/
theorem exec_of_transform_trap {acc : Fin 16} {i : Instr} {code : FaultCode} {info : Word} (hhalt : s.halt = false)
    (hi : i = .encrypt c acc ∨ i = .decrypt c acc) (h : ∀ dir, transform dir c acc s = .error (.trap code info)) :
    exec i s = .next (haltedWith s code info) := by
  rw [exec_eq_runCommand]
  rcases hi with rfl | rfl
  · rw [workOf, h]
    exact runCommand_trap hhalt code info
  · rw [workOf, decryptWork, h]
    exact runCommand_trap hhalt code info

/-- Settles O32: the lemma of each check, under the checks before it. -/
theorem transformChecksInOrder : Obligations.TransformChecksInOrder := by
  intro s c acc i hhalt hi
  have trap : ∀ {code info}, (∀ dir, transform dir c acc s = .error (.trap code info)) →
      exec i s = .next (haltedWith s code info) := exec_of_transform_trap hhalt hi
  have dead : ∀ {x : Ctx}, s.ctx[c]? = some x → x.st.live = false →
      exec i s = .next (haltedWith s .badState x.st.code) := fun hx hl =>
    trap fun _ => transform_of_liveSlot_error (liveSlot_dead hx hl)
  refine ⟨fun hx => trap fun _ => transform_of_liveSlot_error (liveSlot_none hx), fun x hx =>
    ⟨fun hst => ?_, fun hst => ?_, fun S hst hS => ?_⟩⟩
  · simpa [hst, CtxState.code] using dead hx (dead_iff.mpr (.inl hst))
  · simpa [hst, CtxState.code] using dead hx (dead_iff.mpr (.inr hst))
  have hslot : liveSlot s c = .ok x := liveSlot_eq_ok.mpr ⟨hx, live_iff.mpr hst⟩
  refine ⟨fun hcap => trap fun _ => transform_of_suiteFor_error hslot (suiteFor_absent hS hcap), fun hcap hk =>
    trap fun _ => transform_of_unkeyed hslot (suiteFor_eq_ok.mpr ⟨hS, hcap⟩) hk, fun k hcap hk => ?_⟩
  have hsuite : suiteFor s x .xform = .ok S := suiteFor_eq_ok.mpr ⟨hS, hcap⟩
  have pos : s.a[2] ≠ 0 → s.aNat 2 ≠ 0 := aNat_ne_zero (i := 2)
  refine ⟨fun hlen => trap fun _ => transform_of_zeroLen hslot hsuite hk (congrArg BitVec.toNat hlen),
    fun hlen hiv => trap fun _ => transform_of_ivRange hslot hsuite hk (pos hlen) hiv,
    fun hlen hiv hspan => trap fun _ => transform_of_spanRange hslot hsuite hk (pos hlen) hiv hspan,
    fun hlen hiv hspan ⟨n, hn, hfail⟩ => trap fun _ =>
      transform_of_primitiveFail hslot hsuite hk (pos hlen) hiv hspan (keystreamFrom_eq_none.mpr ⟨n, ?_, ?_⟩)⟩
  · rwa [seqRem_seqAt]
  · rwa [Nat.zero_add, counterValue_seqAt]

end Sys2Proof.Machine

/-! Two transforms in a row: the second undoes the first, or goes on where it ended (spec/41_transform.md R93, R94). -/

namespace Sys2Proof.Machine

variable {s t : State} {c : Nat} {acc acc' : Fin 16} {ks : List Byte}

/-- A command that leads from one running state to another has completed its work. -/
theorem workOf_ok_of_exec {i : Instr} (h : exec i s = .next t) (hs : s.halt = false) (ht : t.halt = false) :
    workOf i s = .ok t := by
  rcases exec_cases h with ⟨hhalt, -⟩ | ⟨-, code, info, -, rfl⟩ | ⟨-, hw⟩
  · exact absurd (hs.symm.trans hhalt) Bool.false_ne_true
  · exact absurd ht (by simp)
  · exact hw

/-- A completed ENCRYPT has met a keystream. -/
theorem transformed_of_exec_encrypt (h : exec (.encrypt c acc) s = .next t) (hs : s.halt = false) (ht : t.halt = false) :
    ∃ ks, MeetsKeystream s c ks ∧ t = transformed .enc acc s ks :=
  transform_eq_ok_iff.mp (workOf_ok_of_exec h hs ht)

/-! ### The round trip (R93) -/

/-- The IV lies apart from the span, so a transform does not change its own sequence value. -/
def IvApart (s : State) : Prop := s.aNat 0 + 8 ≤ s.aNat 1 ∨ s.aNat 1 + s.aNat 2 ≤ s.aNat 0

theorem MeetsKeystream.seqAt_transformed (h : MeetsKeystream s c ks) (hwf : Memory.wf s.mem = true) (hapart : IvApart s)
    (dir : Dir) : seqAt (transformed dir acc s ks) (s.aNat 0) = seqAt s (s.aNat 0) := by
  simp only [seqAt, transformed_mem, xoredMem]
  rw [memRead_memWrite_apart _ _ _ _ hwf (by rwa [h.xoredSpan_length])]

/-- A transform run again, in either direction, meets the same keystream (R85). -/
theorem MeetsKeystream.again (h : MeetsKeystream s c ks) (hwf : Memory.wf s.mem = true) (hapart : IvApart s) (dir : Dir) :
    MeetsKeystream (transformed dir acc s ks) c ks := by
  have hseq := h.seqAt_transformed (acc := acc) hwf hapart dir
  simpa only [MeetsKeystream, transformed_ctx, transformed_reg, transformed_params, transformed_memMap, transformed_aNat,
    hseq] using h

/-- Under the same keystream the new span becomes the old one. -/
theorem MeetsKeystream.xoredSpan_transformed (h : MeetsKeystream s c ks) (hwf : Memory.wf s.mem = true)
    (hapart : IvApart s) (dir : Dir) : xoredSpan (transformed dir acc s ks) ks = spanOf s := by
  have hspan : spanOf (transformed dir acc s ks) = xoredSpan s ks := h.memRead_xoredMem hwf
  rw [xoredSpan, hspan, transformed_aNat, h.seqAt_transformed hwf hapart]
  exact xorSpan_xorSpan h.rem_add_spanOf_length_le

theorem MeetsKeystream.xoredMem_transformed (h : MeetsKeystream s c ks) (hwf : Memory.wf s.mem = true)
    (hapart : IvApart s) (dir : Dir) : xoredMem (transformed dir acc s ks) ks = s.mem := by
  rw [xoredMem, h.xoredSpan_transformed hwf hapart, transformed_mem]
  exact memory_ext (memWrite_wf _ _ (xoredMem_wf hwf)) hwf (memWrite_memRead _ _ _ hwf h.xoredSpan_length)

/-- Settles O33: `MeetsKeystream.again` runs the second command, and `xoredMem_transformed` gives its memory. -/
theorem decryptUndoesEncrypt : Obligations.DecryptUndoesEncrypt := by
  intro s t c acc acc' hhalt hwf hapart hrun hthalt
  obtain ⟨ks, hks, rfl⟩ := transformed_of_exec_encrypt hrun hhalt hthalt
  have hagain := hks.again (acc := acc) hwf hapart .enc
  have hmem := hks.xoredMem_transformed (acc := acc) hwf hapart .enc
  exact ⟨⟨_, hagain.exec_decrypt hthalt acc', by simpa using hhalt, by simpa using hmem, by simp⟩,
    ⟨_, hagain.exec_encrypt hthalt acc', by simpa using hhalt, by simpa using hmem, by simp⟩⟩

/-- Settles O34: DECRYPT folds its new span, which is the old span of the ENCRYPT. -/
theorem bothDirectionsFoldThePlaintext : Obligations.BothDirectionsFoldThePlaintext := by
  intro s t u c acc acc' hhalt hwf hapart hrun hthalt hstart hrun'
  obtain ⟨ks, hks, rfl⟩ := transformed_of_exec_encrypt hrun hhalt hthalt
  have hagain := (hks.again (acc := acc) hwf hapart .enc).exec_decrypt hthalt acc'
  obtain rfl := Host.Outcome.next.inj (hrun'.symm.trans hagain)
  have hback := hks.xoredSpan_transformed (acc := acc) hwf hapart .enc
  calc (transformed .dec acc' (transformed .enc acc s ks) ks).csum[acc']
      = csumFold (transformed .enc acc s ks).csum[acc'] (xoredSpan (transformed .enc acc s ks) ks) :=
        transformed_csum .dec
    _ = csumFold s.csum[acc] (spanOf s) := by rw [hstart, hback]
    _ = (transformed .enc acc s ks).csum[acc] := (transformed_csum .enc).symm

/-! ### Chunking (R94) -/

/-- Two stretches that follow each other are XORed one after the other. -/
theorem XorsBy.append {key : Nat → Byte} {m m₁ m₂ : List Host.Cell} {addr n₁ n₂ : Nat} (h₁ : XorsBy key m m₁ addr n₁)
    (h₂ : XorsBy (fun j => key (n₁ + j)) m₁ m₂ (addr + n₁) n₂) : XorsBy key m m₂ addr (n₁ + n₂) := by
  refine ⟨fun j hj => ?_, fun a ha => ?_⟩
  · by_cases hcut : j < n₁
    · rw [h₂.outside _ (by omega), h₁.inside j hcut]
    · obtain ⟨i, rfl⟩ := Nat.exists_eq_add_of_le (Nat.le_of_not_lt hcut)
      rw [← Nat.add_assoc, h₂.inside i (by omega), h₁.outside _ (by omega)]
  · rw [h₂.outside a (by omega), h₁.outside a (by omega)]

/-- The range, the key and the old memory fix the new one. -/
theorem XorsBy.unique {key : Nat → Byte} {m m₁ m₂ : List Host.Cell} {addr n : Nat} (h₁ : XorsBy key m m₁ addr n)
    (h₂ : XorsBy key m m₂ addr n) (hwf₁ : Memory.wf m₁ = true) (hwf₂ : Memory.wf m₂ = true) : m₁ = m₂ := by
  refine memory_ext hwf₁ hwf₂ fun a => ?_
  by_cases ha : a < addr ∨ addr + n ≤ a
  · rw [h₁.outside a ha, h₂.outside a ha]
  · obtain ⟨j, rfl⟩ := Nat.exists_eq_add_of_le (show addr ≤ a by omega)
    rw [h₁.inside j (by omega), h₂.inside j (by omega)]

/-- The keystream byte that meets byte `j` of a span at `seq` under the key of slot `c` (R84 to R86); 0 where there is
none. -/
def keyByte (s : State) (c : Nat) (seq : Word) (j : Nat) : Byte :=
  let block := do
    let x ← s.ctx[c]?
    let S ← s.reg[x.suite]?
    let k ← x.bulk
    bcEnc S.impl k (counterBlock (counterValue s.params.ctrStride (seqCtr seq) ((seqRem seq + j) / 16)))
  (block.getD (Vector.replicate 16 0)).toList.getD ((seqRem seq + j) % 16) 0

theorem keyByte_congr (hctx : t.ctx = s.ctx) (hreg : t.reg = s.reg) (hparams : t.params = s.params) (c : Nat)
    (seq : Word) (j : Nat) : keyByte t c seq j = keyByte s c seq j := by
  simp only [keyByte, hctx, hreg, hparams]

/-- The keystream a transform has met, by its bytes. -/
theorem MeetsKeystream.getD_eq_keyByte (h : MeetsKeystream s c ks) {j : Nat} (hj : j < s.aNat 2) :
    ks.getD (seqRem (seqAt s (s.aNat 0)) + j) 0 = keyByte s c (seqAt s (s.aNat 0)) j := by
  obtain ⟨x, S, k, hx, -, hS, -, hk, -, -, -, hks⟩ := h
  obtain ⟨kb, hblocks, -, hget⟩ := keystreamFrom_eq_some hks
  have hcover := rem_add_len_le (seqRem (seqAt s (s.aNat 0))) (s.aNat 2)
  have hblock := hblocks ((seqRem (seqAt s (s.aNat 0)) + j) / 16) (by omega)
  rw [Nat.zero_add] at hblock
  rw [hget _ (by omega), Nat.zero_add]
  simp [keyByte, hx, hS, hk, hblock]

theorem MeetsKeystream.xorsBy_keyByte (h : MeetsKeystream s c ks) (hwf : Memory.wf s.mem = true) :
    XorsBy (keyByte s c (seqAt s (s.aNat 0))) s.mem (xoredMem s ks) (s.aNat 1) (s.aNat 2) :=
  (h.xorsBy hwf).congr fun _ => h.getD_eq_keyByte

/-- The keystream goes on across a cut that shifts no counter value. -/
theorem keyByte_cut {seq : Word} {L : Nat} (hL : L < 2 ^ 64) (h : s.params.ctrStride = .sixteen ∨ seqRem seq + L < 16)
    (j : Nat) : keyByte s c (seq + BitVec.ofNat 64 L) j = keyByte s c seq (L + j) := by
  have hoffset := cut_offset (seq := seq) (Nat.le_add_right L j)
  have hvalue := (counterValue_cut_eq_iff s.params.ctrStride (Nat.le_add_right L j) hL).mpr h
  rw [Nat.add_sub_cancel_left] at hoffset hvalue
  simp only [keyByte, hoffset, hvalue]

theorem seqAt_of_seqOf {L : Nat} (h : seqOf t = (seqOf s + L) % 2 ^ 64) :
    seqAt t (t.aNat 0) = seqAt s (s.aNat 0) + BitVec.ofNat 64 L := by
  apply BitVec.eq_of_toNat_eq
  rw [BitVec.toNat_add, BitVec.toNat_ofNat, Nat.add_mod_mod, seqAt_toNat, seqAt_toNat]
  exact h

/-- A transform of `t` on the slot of `s`, `L` bytes further on in the stream, meets the keystream of `s` from byte `L`. -/
theorem MeetsKeystream.xorsBy_continued {L : Nat} (h : MeetsKeystream t c ks) (hwf : Memory.wf t.mem = true)
    (hctx : t.ctx = s.ctx) (hreg : t.reg = s.reg) (hparams : t.params = s.params)
    (hseq : seqOf t = (seqOf s + L) % 2 ^ 64) (hL : L < 2 ^ 64)
    (hcut : s.params.ctrStride = .sixteen ∨ seqOf s % 16 + L < 16) :
    XorsBy (fun j => keyByte s c (seqAt s (s.aNat 0)) (L + j)) t.mem (xoredMem t ks) (t.aNat 1) (t.aNat 2) := by
  refine (h.xorsBy_keyByte hwf).congr fun j _ => ?_
  rw [keyByte_congr hctx hreg hparams, seqAt_of_seqOf hseq, keyByte_cut hL (by rwa [seqRem_seqAt])]

theorem aNat_setA_of_ne {i j : Fin 8} (h : i ≠ j) (v : Word) : (s.setA i v).aNat j = s.aNat j := by
  simp [State.aNat, Vector.getElem_set_ne, Fin.val_ne_of_ne h]

theorem aNat_setA_ofNat {n : Nat} (hn : n < 2 ^ 64) (i : Fin 8) : (s.setA i (BitVec.ofNat 64 n)).aNat i = n := by
  simpa [State.aNat] using hn

theorem seqAt_setA (s : State) (i : Fin 8) (v : Word) (addr : Nat) : seqAt (s.setA i v) addr = seqAt s addr := by
  simp only [seqAt, State.setA_mem]

/-- A transform of the first `n` bytes of a stream meets its keystream from the front. -/
theorem MeetsKeystream.xorsBy_setA {n : Nat} (h : MeetsKeystream (s.setA 2 (BitVec.ofNat 64 n)) c ks) (hn : n < 2 ^ 64)
    (hwf : Memory.wf s.mem = true) :
    XorsBy (keyByte s c (seqAt s (s.aNat 0))) s.mem (xoredMem (s.setA 2 (BitVec.ofNat 64 n)) ks) (s.aNat 1) n := by
  have hxor := h.xorsBy_keyByte hwf
  rw [aNat_setA_ofNat hn, aNat_setA_of_ne (by decide), aNat_setA_of_ne (by decide), seqAt_setA, State.setA_mem] at hxor
  exact hxor.congr fun j _ => keyByte_congr (by simp) (by simp) (by simp) c _ j

/-- The span of a transform ends within the address space (R44). -/
theorem MeetsKeystream.span_le (h : MeetsKeystream s c ks) : s.aNat 1 + s.aNat 2 ≤ 2 ^ 64 := by
  obtain ⟨x, S, k, -, -, -, -, -, -, -, hspan, -⟩ := h
  exact ((rangeValid_iff _ _ _).mp hspan).1

/-- Settles O36: the two calls XOR the two stretches of the span with one keystream, as the one call does. -/
theorem chunkedEncryptEqualsOneCall : Obligations.ChunkedEncryptEqualsOneCall := by
  rintro s one _ t1 second t2 c acc ivp2 L1 L2 hhalt hwf - hL2 hsum hcut hone honehalt rfl ht1 ht1halt hsecond hseq
    ht2 ht2halt
  obtain ⟨ks, hks, rfl⟩ := transformed_of_exec_encrypt hone hhalt honehalt
  obtain ⟨ks1, hks1, rfl⟩ := transformed_of_exec_encrypt ht1 hhalt ht1halt
  obtain ⟨ks2, hks2, rfl⟩ := transformed_of_exec_encrypt ht2 (hsecond ▸ ht1halt) ht2halt
  have hmem : second.mem = xoredMem (s.setA 2 (BitVec.ofNat 64 L1)) ks1 := by simp [hsecond]
  have haddr : second.aNat 1 = s.aNat 1 + L1 := by
    have htop := hks.span_le
    rw [aNat_setA_of_ne (by decide), aNat_setA_ofNat hsum] at htop
    have hnowrap : s.aNat 1 + L1 < 2 ^ 64 := by omega
    rw [hsecond, aNat_setA_of_ne (by decide)]
    exact aNat_setA_ofNat hnowrap 1
  have hlen : second.aNat 2 = L2 := by rw [hsecond, aNat_setA_ofNat (by omega)]
  have htail := hks2.xorsBy_continued (s := s) (hmem ▸ xoredMem_wf hwf) (by simp [hsecond]) (by simp [hsecond])
    (by simp [hsecond]) hseq (by omega) hcut
  rw [hmem, haddr, hlen] at htail
  rw [transformed_mem, transformed_mem]
  have hparts := (hks1.xorsBy_setA (by omega) hwf).append htail
  exact hparts.unique (hks.xorsBy_setA hsum hwf) (xoredMem_wf (hmem ▸ xoredMem_wf hwf)) (xoredMem_wf hwf)

end Sys2Proof.Machine

/-! How a command is run forward from its work, and the lifecycle of a slot (spec/42_lifecycle.md R100, R105). -/

namespace Sys2Proof.Machine

variable {i : Instr} {s t : State}

theorem exec_of_ok (hhalt : s.halt = false) (h : workOf i s = .ok t) : exec i s = .next t := by
  rw [exec_eq_runCommand, h, runCommand_ok hhalt]

theorem exec_of_trap {code : FaultCode} {info : Word} (hhalt : s.halt = false)
    (h : workOf i s = .error (.trap code info)) : exec i s = .next (haltedWith s code info) := by
  rw [exec_eq_runCommand, h]
  exact runCommand_trap hhalt code info

/-- The arrows of R100, each with the command that takes it on the slot `c`, and the change ACKTAG makes (R125). -/
def LifecycleMove (i : Instr) (c : Nat) (x y : Ctx) : Prop :=
  (i = .init c ∧ (x.st = .absent ∨ x.st = .finished) ∧ y.st = .uninit) ∨
  (i = .setkey c ∧ x.st = .uninit ∧ y.st = .keyed) ∨
  (i = .setkeys c ∧ (x.st = .uninit ∨ x.st = .keyed) ∧ y.st = .active) ∨
  (i = .finish c ∧ (x.st = .uninit ∨ x.st = .keyed ∨ x.st = .active) ∧ y.st = .finished) ∨
  (i = .acktag c ∧ y = { x with ack := y.ack })

/-- The states SETKEYS takes a context from (R103). -/
theorem live_and_ne_active_iff {x : CtxState} : x.live = true ∧ x ≠ .active ↔ x = .uninit ∨ x = .keyed := by
  cases x <;> simp [CtxState.live]

/-- Completed work leaves the context table as it was, or moves one slot of it along the lifecycle. -/
theorem workOf_ok_slots (h : workOf i s = .ok t) :
    t.ctx = s.ctx ∨ ∃ c x y, s.ctx[c]? = some x ∧ t.ctx = s.ctx.set c y ∧ LifecycleMove i c x y := by
  cases i with
  | init c =>
    obtain ⟨x, n, S, hx, hdead, -, -, rfl⟩ := initWork_eq_ok.mp h
    exact .inr ⟨c, x, _, hx, rfl, .inl ⟨rfl, dead_iff.mp hdead, rfl⟩⟩
  | setkey c =>
    obtain ⟨x, S, hx, hst, -, -, -, ⟨-, -, k, -, rfl⟩ | ⟨-, -, k, -, rfl⟩⟩ := setkeyWork_eq_ok.mp h
    · exact .inr ⟨c, x, _, hx, rfl, .inr (.inl ⟨rfl, hst, rfl⟩)⟩
    · exact .inr ⟨c, x, _, hx, rfl, .inr (.inl ⟨rfl, hst, rfl⟩)⟩
  | setkeys c =>
    obtain ⟨x, S, sub, M, bk, mk, ak, hx, hlive, -, -, hst, -, -, -, -, -, -, -, -, -, -, -, rfl⟩ :=
      setkeysWork_eq_ok.mp h
    exact .inr ⟨c, x, _, hx, rfl, .inr (.inr (.inl ⟨rfl, live_and_ne_active_iff.mp ⟨hlive, hst⟩, rfl⟩))⟩
  | finish c =>
    obtain ⟨x, hx, ⟨hlive, rfl⟩ | ⟨-, rfl⟩⟩ := finishWork_eq_ok.mp h
    · exact .inr ⟨c, x, _, hx, rfl, .inr (.inr (.inr (.inl ⟨rfl, live_iff.mp hlive, rfl⟩)))⟩
    · exact .inl rfl
  | acktag c =>
    obtain ⟨x, S, k, tag, k', hx, -, -, -, -, -, -, -, rfl⟩ := acktagWork_eq_ok.mp h
    exact .inr ⟨c, x, _, hx, rfl, .inr (.inr (.inr (.inr ⟨rfl, rfl⟩)))⟩
  | encrypt | decrypt | mac | lookup | getdesc | gettype | nextiv =>
    exact .inl (by cases workOf_ok_effect h <;> rfl)

/-- Settles O28: a fault leaves the table, and completed work moves the slot that differs (`workOf_ok_slots`). -/
theorem slotsFollowTheLifecycle : Obligations.SlotsFollowTheLifecycle := by
  intro i s t c x y h hx hy hne
  have unchanged : t.ctx ≠ s.ctx := fun hctx => hne (Option.some.inj (by rw [← hx, ← hy, hctx]))
  rcases exec_cases h with ⟨-, rfl⟩ | ⟨-, code, info, -, rfl⟩ | ⟨-, hw⟩
  · exact absurd rfl unchanged
  · exact absurd rfl unchanged
  obtain ⟨c', x', y', hx', hctx, hmove⟩ := (workOf_ok_slots hw).resolve_left unchanged
  obtain rfl : c' = c := by
    by_contra hc
    rw [hctx, List.getElem?_set_ne hc, hx] at hy
    exact hne (Option.some.inj hy)
  obtain rfl : x' = x := Option.some.inj (hx'.symm.trans hx)
  obtain rfl : y' = y := by
    rw [hctx, List.getElem?_set_self (List.getElem?_eq_some_iff.mp hx).1] at hy
    exact Option.some.inj hy
  exact hmove

end Sys2Proof.Machine

/-! INIT (spec/42_lifecycle.md R101): the entry of an identifier, the fresh context, and the first failing check. -/

namespace Sys2Proof.Machine

variable {s : State} {c : Nat} {x : Ctx}

theorem setWidth_word_injective : Function.Injective (BitVec.setWidth 64 : BitVec 32 → Word) := fun v w h => by
  have hnat := congrArg BitVec.toNat h
  rw [BitVec.toNat_setWidth_of_le (by decide), BitVec.toNat_setWidth_of_le (by decide)] at hnat
  exact BitVec.eq_of_toNat_eq hnat

/-- The identifiers of a well-formed registry are distinct, so each is found at its own entry (R137). -/
theorem findSuite_of_getElem? {reg : List Suite} {n : Nat} {S : Suite} (hwf : regWf reg = true)
    (hS : reg[n]? = some S) : findSuite reg (S.id.setWidth 64) = some n := by
  simp only [regWf, Bool.and_eq_true, decide_eq_true_eq] at hwf
  obtain ⟨⟨⟨hnodup, -⟩, -⟩, -⟩ := hwf
  obtain ⟨hn, rfl⟩ := List.getElem?_eq_some_iff.mp hS
  refine List.findIdx?_eq_some_iff_getElem.mpr ⟨hn, decide_eq_true rfl, fun j hj hid => absurd ?_ hj.ne⟩
  have hid' : (reg.map Suite.id)[j]'(by simp; omega) = (reg.map Suite.id)[n]'(by simpa) := by
    simpa using setWidth_word_injective (of_decide_eq_true hid)
  exact hnodup.getElem_inj_iff.mp hid'

theorem findSuite_eq_none_iff {reg : List Suite} {v : Word} :
    findSuite reg v = none ↔ ∀ S ∈ reg, S.id.setWidth 64 ≠ v := by
  simp [findSuite]

/-- Settles O42: `findSuite_of_getElem?` gives the entry, and `initWork_eq_ok` the state. -/
theorem initMakesAFreshContext : Obligations.InitMakesAFreshContext := by
  intro s c n x S hhalt hwf hx hst hS hid
  have hfind : findSuite s.reg s.a[0] = some n := hid ▸ findSuite_of_getElem? hwf hS
  exact exec_of_ok hhalt (initWork_eq_ok.mpr ⟨x, n, S, hx, dead_iff.mpr hst, hfind, hS, rfl⟩)

theorem initWork_of_noSlot (hx : s.ctx[c]? = none) :
    initWork c s = .error (.trap .badSel (BitVec.ofNat 64 c)) := by
  simp [initWork, slotAt_none hx]

theorem initWork_of_live (hx : s.ctx[c]? = some x) (hlive : x.st.live = true) :
    initWork c s = .error (.trap .badState x.st.code) := by
  simp [initWork, slotAt, hx, raiseIf_of hlive]

theorem initWork_of_unknown (hx : s.ctx[c]? = some x) (hdead : x.st.live = false)
    (hid : ∀ S ∈ s.reg, S.id.setWidth 64 ≠ s.a[0]) : initWork c s = .error (.trap .unknownAlg s.a[0]) := by
  simp [initWork, slotAt, hx, hdead, raiseIf, findSuite_eq_none_iff.mpr hid]

/-- Settles O43: the lemma of each check, under the checks before it. -/
theorem initChecksInOrder : Obligations.InitChecksInOrder := by
  intro s c hhalt
  have live : ∀ {x : Ctx} {st : CtxState}, s.ctx[c]? = some x → x.st = st → st.live = true →
      exec (.init c) s = .next (haltedWith s .badState st.code) := by
    rintro x _ hx rfl hlive
    exact exec_of_trap hhalt (initWork_of_live hx hlive)
  exact ⟨fun hx => exec_of_trap hhalt (initWork_of_noSlot hx), fun x hx =>
    ⟨fun hst => live hx hst rfl, fun hst => live hx hst rfl, fun hst => live hx hst rfl,
      fun hst hid => exec_of_trap hhalt (initWork_of_unknown hx (dead_iff.mpr hst) hid)⟩⟩

end Sys2Proof.Machine

/-! SETKEY (spec/42_lifecycle.md R102, R106): what it installs, and the first failing check. -/

namespace Sys2Proof.Machine

variable {s : State} {c : Nat}

/-- Settles O44: `setkeyWork_eq_ok`; the bytes named are what `memRead` gives. -/
theorem setkeyInstallsOneKey : Obligations.SetkeyInstallsOneKey := by
  intro s c x S hhalt hx hst hS hcap hrange
  refine ⟨fun k hf hlen hk => ?_, fun k hf hlen hk => ?_⟩
  · exact exec_of_ok hhalt (setkeyWork_eq_ok.mpr ⟨x, S, hx, hst, hS, hcap, hrange, .inl ⟨hf, hlen, k, hk, rfl⟩⟩)
  · exact exec_of_ok hhalt (setkeyWork_eq_ok.mpr ⟨x, S, hx, hst, hS, hcap, hrange, .inr ⟨hf, hlen, k, hk, rfl⟩⟩)

/-! ### The key -/

theorem readKey_of_short {addr len minLen : Nat} {which : Word} (h : len < minLen) :
    readKey s addr len minLen which = .error (.trap .invalidKeyLength which) := by
  simp [readKey, raiseIf_of h]

theorem readKey_of_badRange {addr len minLen : Nat} {which : Word} (h : minLen ≤ len)
    (hrange : rangeValid s.memMap addr len = false) :
    readKey s addr len minLen which = .error (.trap .bus (BitVec.ofNat 64 addr)) := by
  simp [readKey, raiseIf_of_not h.not_gt, checkRange_of_not hrange]

/-- The least length of the key SETKEY takes (R106). -/
def setkeyMin (s : State) : Family → Nat
  | .sym => Config.keyMinBytes
  | .mac => s.params.macKeyMinBytes

/-- The key SETKEY reads; `FAULT_INFO` tells a short one by the number of the family (R106). -/
def setkeyKey (s : State) (f : Family) : Except Stop (List Byte) :=
  readKey s (s.aNat 0) (s.aNat 1) (setkeyMin s f) (famNumber f)

/-! ### One lemma per check, under the checks before it -/

section

variable {x : Ctx} {S : Suite} {e : Stop}

theorem setkeyWork_of_liveSlot_error (h : liveSlot s c = .error e) : setkeyWork c s = .error e :=
  bind_eq_error.mpr (.inl h)

variable (hslot : liveSlot s c = .ok x)
include hslot

theorem setkeyWork_of_suiteFor_error (h : suiteFor s x .setkey = .error e) : setkeyWork c s = .error e :=
  bind_eq_error.mpr (.inr ⟨x, hslot, bind_eq_error.mpr (.inl h)⟩)

variable (hsuite : suiteFor s x .setkey = .ok S)
include hsuite

theorem setkeyWork_of_initialised (hst : x.st ≠ .uninit) : setkeyWork c s = .error (.trap .badState x.st.code) := by
  simp [setkeyWork, hslot, hsuite, raiseIf_of hst]

variable (hst : x.st = .uninit)
include hst

theorem setkeyWork_of_sym (hf : S.family = .sym) : setkeyWork c s = (do
    let key ← setkeyKey s .sym
    let k ← orRaise (bcKeysched S.impl key) .primitiveFail 0
    return s.setCtx c { x with st := .keyed, bulk := some k }) := by
  simp [setkeyWork, hslot, hsuite, raiseIf_of_not (not_not.mpr hst), hf, setkeyKey, setkeyMin, famNumber]

theorem setkeyWork_of_mac (hf : S.family = .mac) : setkeyWork c s = (do
    let key ← setkeyKey s .mac
    let k ← orRaise (macKeysched S.impl key) .primitiveFail 1
    return s.setCtx c { x with st := .keyed, mac := some k }) := by
  simp [setkeyWork, hslot, hsuite, raiseIf_of_not (not_not.mpr hst), hf, setkeyKey, setkeyMin, famNumber]

theorem setkeyWork_of_setkeyKey_error (h : setkeyKey s S.family = .error e) : setkeyWork c s = .error e := by
  cases hf : S.family with
  | sym => rw [hf] at h; rw [setkeyWork_of_sym hslot hsuite hst hf, h, error_bind]
  | mac => rw [hf] at h; rw [setkeyWork_of_mac hslot hsuite hst hf, h, error_bind]

theorem setkeyWork_of_short (h : s.aNat 1 < setkeyMin s S.family) :
    setkeyWork c s = .error (.trap .invalidKeyLength (famNumber S.family)) :=
  setkeyWork_of_setkeyKey_error hslot hsuite hst (readKey_of_short h)

variable (hlen : setkeyMin s S.family ≤ s.aNat 1)
include hlen

theorem setkeyWork_of_badRange (hrange : rangeValid s.memMap (s.aNat 0) (s.aNat 1) = false) :
    setkeyWork c s = .error (.trap .bus s.a[0]) := by
  have hinfo : BitVec.ofNat 64 (s.aNat 0) = s.a[0] := ofNat_aNat s 0
  exact setkeyWork_of_setkeyKey_error hslot hsuite hst (hinfo ▸ readKey_of_badRange hlen hrange)

variable (hrange : rangeValid s.memMap (s.aNat 0) (s.aNat 1) = true)
include hrange

theorem setkeyWork_of_bulkRefused (hf : S.family = .sym)
    (hk : bcKeysched S.impl (memRead s.mem (s.aNat 0) (s.aNat 1)) = none) :
    setkeyWork c s = .error (.trap .primitiveFail 0) := by
  have hkey : setkeyKey s .sym = _ := readKey_eq_ok.mpr ⟨hf ▸ hlen, hrange, rfl⟩
  rw [setkeyWork_of_sym hslot hsuite hst hf, hkey, ok_bind, hk, orRaise_none, error_bind]

theorem setkeyWork_of_macRefused (hf : S.family = .mac)
    (hk : macKeysched S.impl (memRead s.mem (s.aNat 0) (s.aNat 1)) = none) :
    setkeyWork c s = .error (.trap .primitiveFail 1) := by
  have hkey : setkeyKey s .mac = _ := readKey_eq_ok.mpr ⟨hf ▸ hlen, hrange, rfl⟩
  rw [setkeyWork_of_mac hslot hsuite hst hf, hkey, ok_bind, hk, orRaise_none, error_bind]

end

/-- Settles O45: the lemma of each check, under the checks before it. -/
theorem setkeyChecksInOrder : Obligations.SetkeyChecksInOrder := by
  intro s c hhalt
  have trap : ∀ {code info}, setkeyWork c s = .error (.trap code info) →
      exec (.setkey c) s = .next (haltedWith s code info) := exec_of_trap (i := .setkey c) hhalt
  refine ⟨fun hx => trap (setkeyWork_of_liveSlot_error (liveSlot_none hx)), fun x hx => ?_⟩
  have dead : ∀ {st : CtxState}, x.st = st → st.live = false →
      exec (.setkey c) s = .next (haltedWith s .badState st.code) := by
    rintro _ rfl hdead
    exact trap (setkeyWork_of_liveSlot_error (liveSlot_dead hx hdead))
  refine ⟨fun hst => dead hst rfl, fun hst => dead hst rfl, fun S hst hS => ?_⟩
  have hslot : liveSlot s c = .ok x := liveSlot_eq_ok.mpr ⟨hx, live_iff.mpr hst⟩
  refine ⟨fun hcap => trap (setkeyWork_of_suiteFor_error hslot (suiteFor_absent hS hcap)), fun hcap => ?_⟩
  have hsuite : suiteFor s x .setkey = .ok S := suiteFor_eq_ok.mpr ⟨hS, hcap⟩
  have initialised : ∀ {st : CtxState}, x.st = st → st ≠ .uninit →
      exec (.setkey c) s = .next (haltedWith s .badState st.code) := by
    rintro _ rfl hne
    exact trap (setkeyWork_of_initialised hslot hsuite hne)
  have short : ∀ {f : Family}, x.st = .uninit → S.family = f → s.aNat 1 < setkeyMin s f →
      exec (.setkey c) s = .next (haltedWith s .invalidKeyLength (famNumber f)) := by
    rintro _ hst rfl hlen
    exact trap (setkeyWork_of_short hslot hsuite hst hlen)
  refine ⟨fun hst => initialised hst (by decide), fun hst => initialised hst (by decide), short, short,
    fun hst hsym hmac => ?_⟩
  have hlen : setkeyMin s S.family ≤ s.aNat 1 := by
    cases hf : S.family with
    | sym => exact hsym hf
    | mac => exact hmac hf
  exact ⟨fun hr => trap (setkeyWork_of_badRange hslot hsuite hst hlen hr), fun hr =>
    ⟨fun hf hk => trap (setkeyWork_of_bulkRefused hslot hsuite hst hlen hr hf hk),
      fun hf hk => trap (setkeyWork_of_macRefused hslot hsuite hst hlen hr hf hk)⟩⟩

end Sys2Proof.Machine

/-! SETKEYS (spec/42_lifecycle.md R103, R105, R106): what it installs, and the first failing check. -/

namespace Sys2Proof.Machine

variable {s : State} {c : Nat}

/-- Settles O46: `setkeysWork_eq_ok`; the bytes named are what `memRead` gives. -/
theorem setkeysInstallsThreeKeys : Obligations.SetkeysInstallsThreeKeys := by
  intro s c x sub S M bk mk ak hhalt hx hst hS hcap hsub hM hlen1 hlen3 hlen5 hrange0 hrange2 hrange4 hbk hmk hak
  obtain ⟨hlive, hactive⟩ := live_and_ne_active_iff.mpr hst
  exact exec_of_ok hhalt (setkeysWork_eq_ok.mpr ⟨x, S, sub, M, bk, mk, ak, hx, hlive, hS, hcap, hactive, hsub, hM,
    hlen1, hlen3, hlen5, hrange0, hrange2, hrange4, hbk, hmk, hak, rfl⟩)

/-! ### The keys -/

/-- The checks of SETKEYS on the keys, in the order of R103, by the suites of the context and of its Sub-Authenticator;
they give the three keyed states. -/
def setkeysKeys (s : State) (S M : Suite) : Except Stop (BulkKey × MacKey × AckState) := do
  raiseIf (s.aNat 1 < Config.keyMinBytes) .invalidKeyLength 0
  raiseIf (s.aNat 3 < s.params.macKeyMinBytes) .invalidKeyLength 1
  raiseIf (s.aNat 5 < Config.keyMinBytes) .invalidKeyLength 2
  checkRange s (s.aNat 0) (s.aNat 1)
  checkRange s (s.aNat 2) (s.aNat 3)
  checkRange s (s.aNat 4) (s.aNat 5)
  let bk ← orRaise (bcKeysched S.impl (memRead s.mem (s.aNat 0) (s.aNat 1))) .primitiveFail 0
  let mk ← orRaise (macKeysched M.impl (memRead s.mem (s.aNat 2) (s.aNat 3))) .primitiveFail 1
  let ak ← orRaise (ackKeysched S.impl (memRead s.mem (s.aNat 4) (s.aNat 5))) .primitiveFail 2
  return (bk, mk, ak)

section

variable {S M : Suite}

theorem setkeysKeys_of_shortBulk (hlen1 : s.aNat 1 < Config.keyMinBytes) :
    setkeysKeys s S M = .error (.trap .invalidKeyLength 0) := by
  simp [setkeysKeys, raiseIf_of hlen1]

variable (hlen1 : Config.keyMinBytes ≤ s.aNat 1)
include hlen1

theorem setkeysKeys_of_shortMac (hlen3 : s.aNat 3 < s.params.macKeyMinBytes) :
    setkeysKeys s S M = .error (.trap .invalidKeyLength 1) := by
  simp [setkeysKeys, raiseIf_of_not hlen1.not_gt, raiseIf_of hlen3]

variable (hlen3 : s.params.macKeyMinBytes ≤ s.aNat 3)
include hlen3

theorem setkeysKeys_of_shortAck (hlen5 : s.aNat 5 < Config.keyMinBytes) :
    setkeysKeys s S M = .error (.trap .invalidKeyLength 2) := by
  simp [setkeysKeys, raiseIf_of_not hlen1.not_gt, raiseIf_of_not hlen3.not_gt, raiseIf_of hlen5]

variable (hlen5 : Config.keyMinBytes ≤ s.aNat 5)
include hlen5

theorem setkeysKeys_of_bulkRange (hrange0 : rangeValid s.memMap (s.aNat 0) (s.aNat 1) = false) :
    setkeysKeys s S M = .error (.trap .bus s.a[0]) := by
  have hinfo : BitVec.ofNat 64 (s.aNat 0) = s.a[0] := ofNat_aNat s 0
  simp [setkeysKeys, raiseIf_of_not hlen1.not_gt, raiseIf_of_not hlen3.not_gt, raiseIf_of_not hlen5.not_gt,
    checkRange_of_not hrange0, hinfo]

variable (hrange0 : rangeValid s.memMap (s.aNat 0) (s.aNat 1) = true)
include hrange0

theorem setkeysKeys_of_macRange (hrange2 : rangeValid s.memMap (s.aNat 2) (s.aNat 3) = false) :
    setkeysKeys s S M = .error (.trap .bus s.a[2]) := by
  have hinfo : BitVec.ofNat 64 (s.aNat 2) = s.a[2] := ofNat_aNat s 2
  simp [setkeysKeys, raiseIf_of_not hlen1.not_gt, raiseIf_of_not hlen3.not_gt, raiseIf_of_not hlen5.not_gt,
    checkRange_of hrange0, checkRange_of_not hrange2, hinfo]

variable (hrange2 : rangeValid s.memMap (s.aNat 2) (s.aNat 3) = true)
include hrange2

theorem setkeysKeys_of_ackRange (hrange4 : rangeValid s.memMap (s.aNat 4) (s.aNat 5) = false) :
    setkeysKeys s S M = .error (.trap .bus s.a[4]) := by
  have hinfo : BitVec.ofNat 64 (s.aNat 4) = s.a[4] := ofNat_aNat s 4
  simp [setkeysKeys, raiseIf_of_not hlen1.not_gt, raiseIf_of_not hlen3.not_gt, raiseIf_of_not hlen5.not_gt,
    checkRange_of hrange0, checkRange_of hrange2, checkRange_of_not hrange4, hinfo]

variable (hrange4 : rangeValid s.memMap (s.aNat 4) (s.aNat 5) = true)
include hrange4

/-- Once lengths and ranges have passed, the key schedules are left. -/
theorem setkeysKeys_of_ranges : setkeysKeys s S M = (do
    let bk ← orRaise (bcKeysched S.impl (memRead s.mem (s.aNat 0) (s.aNat 1))) .primitiveFail 0
    let mk ← orRaise (macKeysched M.impl (memRead s.mem (s.aNat 2) (s.aNat 3))) .primitiveFail 1
    let ak ← orRaise (ackKeysched S.impl (memRead s.mem (s.aNat 4) (s.aNat 5))) .primitiveFail 2
    return (bk, mk, ak)) := by
  simp [setkeysKeys, raiseIf_of_not hlen1.not_gt, raiseIf_of_not hlen3.not_gt, raiseIf_of_not hlen5.not_gt,
    checkRange_of hrange0, checkRange_of hrange2, checkRange_of hrange4]

theorem setkeysKeys_of_bulkRefused (hbk : bcKeysched S.impl (memRead s.mem (s.aNat 0) (s.aNat 1)) = none) :
    setkeysKeys s S M = .error (.trap .primitiveFail 0) := by
  simp [setkeysKeys_of_ranges hlen1 hlen3 hlen5 hrange0 hrange2 hrange4, hbk]

variable (hbk : bcKeysched S.impl (memRead s.mem (s.aNat 0) (s.aNat 1)) ≠ none)
include hbk

theorem setkeysKeys_of_macRefused (hmk : macKeysched M.impl (memRead s.mem (s.aNat 2) (s.aNat 3)) = none) :
    setkeysKeys s S M = .error (.trap .primitiveFail 1) := by
  obtain ⟨bk, hbk⟩ := Option.ne_none_iff_exists'.mp hbk
  simp [setkeysKeys_of_ranges hlen1 hlen3 hlen5 hrange0 hrange2 hrange4, hbk, hmk]

theorem setkeysKeys_of_ackRefused (hmk : macKeysched M.impl (memRead s.mem (s.aNat 2) (s.aNat 3)) ≠ none)
    (hak : ackKeysched S.impl (memRead s.mem (s.aNat 4) (s.aNat 5)) = none) :
    setkeysKeys s S M = .error (.trap .primitiveFail 2) := by
  obtain ⟨bk, hbk⟩ := Option.ne_none_iff_exists'.mp hbk
  obtain ⟨mk, hmk⟩ := Option.ne_none_iff_exists'.mp hmk
  simp [setkeysKeys_of_ranges hlen1 hlen3 hlen5 hrange0 hrange2 hrange4, hbk, hmk, hak]

end

/-! ### The checks before the keys -/

section

variable {x : Ctx} {S M : Suite} {sub : CtxCore} {e : Stop}

theorem setkeysWork_of_liveSlot_error (h : liveSlot s c = .error e) : setkeysWork c s = .error e :=
  bind_eq_error.mpr (.inl h)

variable (hslot : liveSlot s c = .ok x)
include hslot

theorem setkeysWork_of_suiteFor_error (h : suiteFor s x .setkeys = .error e) : setkeysWork c s = .error e :=
  bind_eq_error.mpr (.inr ⟨x, hslot, bind_eq_error.mpr (.inl h)⟩)

variable (hsuite : suiteFor s x .setkeys = .ok S)
include hsuite

theorem setkeysWork_of_active (hst : x.st = .active) :
    setkeysWork c s = .error (.trap .badState CtxState.active.code) := by
  rw [← hst]
  simp [setkeysWork, hslot, hsuite, raiseIf_of hst]

variable (hst : x.st ≠ .active) (hsub : x.sub = some sub) (hM : s.reg[sub.suite]? = some M)
include hst hsub hM

/-- Once the context is found, the keys decide. -/
theorem setkeysWork_of_slot : setkeysWork c s = (do
    let k ← setkeysKeys s S M
    return s.setCtx c { x with
      st := .active, bulk := some k.1, ack := some k.2.2, sub := some { sub with st := .keyed, mac := some k.2.1 } }) := by
  simp [setkeysWork, setkeysKeys, hslot, hsuite, raiseIf_of_not hst, hsub, hM]

theorem setkeysWork_of_setkeysKeys_error (h : setkeysKeys s S M = .error e) : setkeysWork c s = .error e := by
  rw [setkeysWork_of_slot hslot hsuite hst hsub hM, h, error_bind]

end

/-- Settles O47: the lemma of each check, under the checks before it. -/
theorem setkeysChecksInOrder : Obligations.SetkeysChecksInOrder := by
  intro s c hhalt
  have trap : ∀ {code info}, setkeysWork c s = .error (.trap code info) →
      exec (.setkeys c) s = .next (haltedWith s code info) := exec_of_trap (i := .setkeys c) hhalt
  refine ⟨fun hx => trap (setkeysWork_of_liveSlot_error (liveSlot_none hx)), fun x hx => ?_⟩
  have dead : ∀ {st : CtxState}, x.st = st → st.live = false →
      exec (.setkeys c) s = .next (haltedWith s .badState st.code) := by
    rintro _ rfl hdead
    exact trap (setkeysWork_of_liveSlot_error (liveSlot_dead hx hdead))
  refine ⟨fun hst => dead hst rfl, fun hst => dead hst rfl, fun S hlive hS => ?_⟩
  have hslot : liveSlot s c = .ok x := liveSlot_eq_ok.mpr ⟨hx, live_iff.mpr hlive⟩
  have suite : S.caps.setkeys = true → suiteFor s x .setkeys = .ok S := fun hcap => suiteFor_eq_ok.mpr ⟨hS, hcap⟩
  refine ⟨fun hcap => trap (setkeysWork_of_suiteFor_error hslot (suiteFor_absent hS hcap)),
    fun hcap hst => trap (setkeysWork_of_active hslot (suite hcap) hst), fun sub M hcap hst hsub hM => ?_⟩
  have keys : ∀ {code info}, setkeysKeys s S M = .error (.trap code info) →
      exec (.setkeys c) s = .next (haltedWith s code info) := fun h =>
    trap (setkeysWork_of_setkeysKeys_error hslot (suite hcap) hst hsub hM h)
  exact ⟨fun h1 => keys (setkeysKeys_of_shortBulk h1),
    fun h1 h3 => keys (setkeysKeys_of_shortMac h1 h3),
    fun h1 h3 h5 => keys (setkeysKeys_of_shortAck h1 h3 h5),
    fun h1 h3 h5 =>
      ⟨fun r0 => keys (setkeysKeys_of_bulkRange h1 h3 h5 r0),
       fun r0 r2 => keys (setkeysKeys_of_macRange h1 h3 h5 r0 r2),
       fun r0 r2 r4 => keys (setkeysKeys_of_ackRange h1 h3 h5 r0 r2 r4),
       fun r0 r2 r4 =>
        ⟨fun hbk => keys (setkeysKeys_of_bulkRefused h1 h3 h5 r0 r2 r4 hbk),
         fun hbk hmk => keys (setkeysKeys_of_macRefused h1 h3 h5 r0 r2 r4 hbk hmk),
         fun hbk hmk hak => keys (setkeysKeys_of_ackRefused h1 h3 h5 r0 r2 r4 hbk hmk hak)⟩⟩⟩

end Sys2Proof.Machine

/-! FINISH (spec/42_lifecycle.md R104, R109): what it leaves, and that no key outlives it or a reset. -/

namespace Sys2Proof.Machine

variable {s : State} {c : Nat} {x : Ctx}

theorem exec_finish_of_noSlot (hhalt : s.halt = false) (hx : s.ctx[c]? = none) :
    exec (.finish c) s = .next (haltedWith s .badSel (BitVec.ofNat 64 c)) :=
  exec_of_trap (i := .finish c) hhalt (bind_eq_error.mpr (.inl (slotAt_none hx)))

theorem exec_finish_of_dead (hhalt : s.halt = false) (hx : s.ctx[c]? = some x) (hdead : x.st.live = false) :
    exec (.finish c) s = .next s :=
  exec_of_ok hhalt (finishWork_eq_ok.mpr ⟨x, hx, .inr ⟨hdead, rfl⟩⟩)

theorem exec_finish_of_live (hhalt : s.halt = false) (hx : s.ctx[c]? = some x) (hlive : x.st.live = true) :
    exec (.finish c) s = .next (s.setCtx c (finishedCtx x)) :=
  exec_of_ok hhalt (finishWork_eq_ok.mpr ⟨x, hx, .inl ⟨hlive, rfl⟩⟩)

/-- After FINISH on a slot that exists, the engine still runs and the slot is absent or finished. -/
theorem exec_finish_dead {t : State} (hhalt : s.halt = false) (hx : s.ctx[c]? = some x)
    (h : exec (.finish c) s = .next t) : t.halt = false ∧ ∃ y, t.ctx[c]? = some y ∧ y.st.live = false := by
  cases hl : x.st.live with
  | false =>
    rw [exec_finish_of_dead hhalt hx hl] at h
    cases h
    exact ⟨hhalt, x, hx, hl⟩
  | true =>
    rw [exec_finish_of_live hhalt hx hl] at h
    cases h
    exact ⟨hhalt, finishedCtx x, List.getElem?_set_self (List.getElem?_eq_some_iff.mp hx).1, rfl⟩

/-- Settles O48: the three cases of FINISH; the second one runs on a dead slot (`exec_finish_dead`). -/
theorem finishErasesAndIsIdempotent : Obligations.FinishErasesAndIsIdempotent := by
  intro s c hhalt
  refine ⟨exec_finish_of_noSlot hhalt, fun x hx => ⟨fun hst => exec_finish_of_dead hhalt hx (dead_iff.mpr hst),
    fun hst => exec_finish_of_live hhalt hx (live_iff.mpr hst), fun t h => ?_⟩⟩
  obtain ⟨hthalt, y, hy, hdead⟩ := exec_finish_dead hhalt hx h
  exact exec_finish_of_dead hthalt hy hdead

/-- An absent or finished slot holds no keyed state (R18). -/
theorem noKeys_of_dead {reg : List Suite} (h : ctxWf reg x = true) (hdead : x.st.live = false) : noKeys x = true := by
  simpa [ctxWf, hdead] using h

/-- Settles O49: the slot is dead after FINISH, so the invariant, which FINISH keeps, rules keys out; reset makes every
slot absent. -/
theorem noKeyOutlivesFinishOrReset : Obligations.NoKeyOutlivesFinishOrReset := by
  intro s hi
  refine ⟨fun c t y hhalt h hy => ?_, fun rest t hh h y hy => ?_⟩
  · cases hx : s.ctx[c]? with
    | none =>
      rw [exec_finish_of_noSlot hhalt hx] at h
      cases h
      exact absurd (hx.symm.trans hy) nofun
    | some x =>
      obtain ⟨-, z, hz, hdead⟩ := exec_finish_dead hhalt hx h
      obtain rfl : z = y := Option.some.inj (hz.symm.trans hy)
      exact noKeys_of_dead ((exec_inv h hi).ctxWf_of_getElem? hy) hdead
  · rw [step_reset hi.config hh] at h
    cases h
    obtain rfl := List.eq_of_mem_replicate hy
    rfl

end Sys2Proof.Machine

/-! What MAC and ACKTAG share: the checks of the context a command names, run forward, and a string stored in host
memory (spec/60_exceptions.md R159; spec/20_memory.md R43). -/

namespace Sys2Proof.Machine

/-- A range at an operand register that does not exist is reported by that register (R44). -/
theorem checkRange_aNat_of_not {s : State} {i : Fin 8} {n : Nat} (h : rangeValid s.memMap (s.aNat i) n = false) :
    checkRange s (s.aNat i) n = .error (.trap .bus s.a[i]) := by
  rw [checkRange_of_not h, ofNat_aNat]

/-! ### The first checks of a command whose work begins with `liveSlot` and `suiteFor` -/

section

variable {i : Instr} {s : State} {c : Nat} {x : Ctx} {S : Suite} {k : Cap} {f : Ctx → Suite → Except Stop State}
variable (hhalt : s.halt = false) (hwork : workOf i s = liveSlot s c >>= fun x => suiteFor s x k >>= f x)
include hhalt hwork

/-- R159 step 3: the selector is out of range. -/
theorem exec_of_noSlot (hx : s.ctx[c]? = none) : exec i s = .next (haltedWith s .badSel (BitVec.ofNat 64 c)) :=
  exec_of_trap hhalt (by rw [hwork, liveSlot_none hx, error_bind])

/-- R159 step 4: the slot is absent or finished. -/
theorem exec_of_deadSlot {st : CtxState} (hx : s.ctx[c]? = some x) (hst : x.st = st) (hdead : st.live = false) :
    exec i s = .next (haltedWith s .badState st.code) := by
  subst hst
  exact exec_of_trap hhalt (by rw [hwork, liveSlot_dead hx hdead, error_bind])

variable (hslot : liveSlot s c = .ok x)
include hslot

/-- R159 step 5: the suite lacks the capability. -/
theorem exec_of_capAbsent (hS : s.reg[x.suite]? = some S) (hcap : S.caps.has k = false) :
    exec i s = .next (haltedWith s .capAbsent (capNumber k)) :=
  exec_of_trap hhalt (by rw [hwork, hslot, ok_bind, suiteFor_absent hS hcap, error_bind])

end

/-! ### A stored string -/

/-- A byte of a stored string reads back (R43). -/
theorem memGet_memWrite_inside {m : List Host.Cell} {b : List Byte} {j : Nat} (h : Memory.wf m = true) (addr : Nat)
    (hj : j < b.length) : memGet (memWrite m addr b) (addr + j) = b.getD j 0 := by
  rw [memGet_memWrite _ _ _ h, if_pos (by omega), Nat.add_sub_cancel_left]

/-- The front of a stored string reads back (R43). -/
theorem memRead_memWrite_take {m : List Host.Cell} {b : List Byte} {n : Nat} (h : Memory.wf m = true) (addr : Nat)
    (hn : n ≤ b.length) : memRead (memWrite m addr b) addr n = b.take n := by
  refine List.ext_getElem (by simpa using hn) fun j hj hj' => ?_
  rw [memRead_length] at hj
  rw [memRead_getElem, memGet_memWrite_inside h addr (hj.trans_le hn), List.getElem_take, ← List.getElem_eq_getD]

end Sys2Proof.Machine

/-! What MAC writes (spec/43_mac_acktag.md R121 to R124). -/

namespace Sys2Proof.Machine

/-- Settles O50: the probe case of `macWork_eq_ok`. -/
theorem macProbeAnswersTwenty : Obligations.MacProbeAnswersTwenty := fun _ _ x S hhalt hx hst hS hcap hprobe =>
  exec_of_ok hhalt (macWork_eq_ok.mpr ⟨x, S, hx, live_iff.mpr hst, hS, hcap, .inl ⟨hprobe, rfl⟩⟩)

/-! ### The owner of the MAC key, the segments, the IV and the tag -/

theorem macOwner_eq_some_iff {x : Ctx} {S : Suite} {owner : CtxCore} : macOwner x S = some owner ↔
    (S.family = .sym ∧ x.sub = some owner) ∨ (S.family = .mac ∧ owner = x.toCtxCore) := by
  cases hf : S.family with
  | sym => simp [macOwner, hf]
  | mac => simp [macOwner, hf, eq_comm]

@[simp] theorem segmentList_length (m : List Host.Cell) (segp nseg : Nat) :
    (segmentList m segp nseg).length = nseg := by
  simp [segmentList]

@[simp] theorem segmentList_getElem (m : List Host.Cell) (segp nseg n : Nat)
    (h : n < (segmentList m segp nseg).length) : (segmentList m segp nseg)[n] = segmentEntry m segp n := by
  simp [segmentList]

theorem forall_mem_segmentList {m : List Host.Cell} {segp nseg : Nat} {p : Nat × Nat → Prop} :
    (∀ e ∈ segmentList m segp nseg, p e) ↔ ∀ n, n < nseg → p (segmentEntry m segp n) := by
  simp [segmentList]

/-- A list with the entries of the segment list is the segment list (R122). -/
theorem eq_segmentList {m : List Host.Cell} {segp nseg : Nat} {segs : List (Nat × Nat)} (hlen : segs.length = nseg)
    (h : ∀ n, n < nseg → segs[n]? = some (segmentEntry m segp n)) : segs = segmentList m segp nseg := by
  refine List.ext_getElem (by simpa using hlen) fun n hn _ => ?_
  obtain ⟨_, hentry⟩ := List.getElem?_eq_some_iff.mp (h n (hlen ▸ hn))
  rw [hentry, segmentList_getElem]

/-- The IV is the eight bytes in memory (R124). -/
theorem eq_ivOf_memRead {m : List Host.Cell} {addr : Nat} {iv : IvBytes}
    (h : ∀ j : Fin 8, iv[j] = memGet m (addr + j.val)) : iv = ivOf (memRead m addr 8) := by
  refine Vector.ext fun j hj => ?_
  rw [ivOf, Vector.getElem_ofFn, memRead_getD hj]
  exact h ⟨j, hj⟩

theorem macTag_length {full : List Byte} (h : 20 ≤ full.length) : (macTag full).length = 20 := by
  simpa [macTag] using h

theorem macTag_getD (full : List Byte) {j : Nat} (hj : j < 20) : (macTag full).getD j 0 = full.getD j 0 := by
  simp [macTag, List.getD_eq_getElem?_getD, List.getElem?_take_of_lt hj]

/-- Settles O51: the tag case of `macWork_eq_ok`; what is stored has 20 bytes, the first of the MAC's. -/
theorem macWritesTwentyByteTag : Obligations.MacWritesTwentyByteTag := by
  intro s c x S M owner mk segs iv full hhalt hwf hx hst hS hcap hcapacity howner hM hnative hmk hlist hlen hsegs hvalid
    hivRange hiv hfull hout
  obtain rfl : segs = segmentList s.mem (s.aNat 0) (s.aNat 1) := eq_segmentList hlen hsegs
  obtain rfl : iv = ivOf (memRead s.mem (s.aNat 2) 8) := eq_ivOf_memRead hiv
  have htag : (macTag full.toList).length = 20 := macTag_length (by simpa using hnative)
  refine ⟨memWrite s.mem (s.aNat 3) (macTag full.toList), ?_, memWrite_wf _ _ hwf, fun j hj => ?_, fun a ha => ?_⟩
  · exact exec_of_ok hhalt (macWork_eq_ok.mpr ⟨x, S, hx, live_iff.mpr hst, hS, hcap, .inr ⟨not_lt.mpr hcapacity, owner,
      M, mk, full, macOwner_eq_some_iff.mpr howner, hM, hmk, hlist, hvalid, hivRange, hfull, hout, rfl⟩⟩)
  · exact (memGet_memWrite_inside hwf _ (hj.trans_eq htag.symm)).trans (macTag_getD _ hj)
  · exact memGet_memWrite_outside hwf (by rwa [htag])

/-! ### The native length of the MAC that runs (R123, R137 (b), (d)) -/

theorem tagBytes_le_macNativeLen {reg : List Suite} {M : Suite} (h : M.wf reg = true) (hf : M.family = .mac)
    (hcap : M.caps.mac = true) : 20 ≤ M.macNativeLen := by
  simp only [Suite.wf, hf, hcap, Bool.and_eq_true, Bool.not_true, Bool.false_or, decide_eq_true_eq] at h
  obtain ⟨-, hlen, -⟩ := h
  exact hlen

theorem macSuite_isMac {reg : List Suite} {S M : Suite} {m : Nat} (h : S.wf reg = true) (hf : S.family = .sym)
    (hm : S.macSuite = some m) (hM : reg[m]? = some M) : M.family = .mac ∧ M.caps.mac = true := by
  simp only [Suite.wf, hf, hm, hM, Bool.and_eq_true, decide_eq_true_eq] at h
  obtain ⟨⟨⟨⟨hisMac, -⟩, -⟩, -⟩, -⟩ := h
  exact hisMac

theorem macSuite_of_sub {reg : List Suite} {x : Ctx} {S : Suite} {t : CtxCore} (h : ctxWf reg x = true)
    (hl : x.st.live = true) (hS : reg[x.suite]? = some S) (hf : S.family = .sym) (hsub : x.sub = some t) :
    S.macSuite = some t.suite := by
  rw [ctxWf_of_sym hl hS hf] at h
  simp only [symCtxWf, subWf, hsub, Bool.and_eq_true, decide_eq_true_eq] at h
  obtain ⟨⟨⟨-, ⟨⟨hsuite, -⟩, -⟩, -⟩, -⟩, -⟩ := h
  exact hsuite

/-- The suite of the context that runs the MAC gives at least 20 bytes. -/
theorem tagBytes_le_of_macOwner {reg : List Suite} {x : Ctx} {S M : Suite} {owner : CtxCore} (hreg : regWf reg = true)
    (hwf : ctxWf reg x = true) (hl : x.st.live = true) (hS : reg[x.suite]? = some S) (hcap : S.caps.mac = true)
    (howner : macOwner x S = some owner) (hM : reg[owner.suite]? = some M) : 20 ≤ M.macNativeLen := by
  rcases macOwner_eq_some_iff.mp howner with ⟨hf, hsub⟩ | ⟨hf, rfl⟩
  · obtain ⟨hfM, hcapM⟩ := macSuite_isMac (suiteWf_of_regWf hreg hS) hf (macSuite_of_sub hwf hl hS hf hsub) hM
    exact tagBytes_le_macNativeLen (suiteWf_of_regWf hreg hM) hfM hcapM
  · obtain rfl : S = M := Option.some.inj (hS.symm.trans hM)
    exact tagBytes_le_macNativeLen (suiteWf_of_regWf hreg hS) hf hcap

/-! ### The tag of a message (R122) -/

/-- The tag of MAC on slot `c` for an IV and a message, by the context table and the registry alone (R122, R123). -/
def tagOf (ctx : List Ctx) (reg : List Suite) (c : Nat) (iv : IvBytes) (msg : List Byte) : Option (List Byte) := do
  let x ← ctx[c]?
  let S ← reg[x.suite]?
  let owner ← macOwner x S
  let M ← reg[owner.suite]?
  let mk ← owner.mac
  let full ← macFn M.impl M.macNativeLen mk iv msg
  return macTag full.toList

/-- A MAC that completes with capacity at least 20 leaves the tag of its message at `A3`. -/
theorem memRead_of_exec_mac {s t : State} {c : Nat} (hhalt : s.halt = false) (hwf : Memory.wf s.mem = true)
    (hreg : regWf s.reg = true) (hctx : ∀ x ∈ s.ctx, ctxWf s.reg x = true) (hcapacity : 20 ≤ s.a[4].toInt)
    (h : exec (.mac c) s = .next t) (ht : t.halt = false) :
    some (memRead t.mem (s.aNat 3) 20) = tagOf s.ctx s.reg c (ivOf (memRead s.mem (s.aNat 2) 8))
      (segmentsMessage s.mem (segmentList s.mem (s.aNat 0) (s.aNat 1))) := by
  obtain ⟨x, S, hx, hl, hS, hcap, ⟨hprobe, -⟩ | ⟨-, owner, M, mk, full, howner, hM, hmk, -, -, -, hfull, -, rfl⟩⟩ :=
    macWork_eq_ok.mp (workOf_ok_of_exec h hhalt ht)
  · exact absurd hprobe (not_lt.mpr hcapacity)
  have hnative := tagBytes_le_of_macOwner hreg (hctx x (List.mem_of_getElem? hx)) hl hS hcap howner hM
  have htag : (macTag full.toList).length = 20 := macTag_length (by simpa using hnative)
  have hread : memRead (memWrite s.mem (s.aNat 3) (macTag full.toList)) (s.aNat 3) 20 = macTag full.toList := by
    rw [memRead_memWrite_take hwf _ htag.ge, List.take_of_length_le htag.le]
  simp [tagOf, hx, hS, howner, hM, hmk, hfull, hread]

/-- Settles O53: both commands leave the tag of one message (`memRead_of_exec_mac`). -/
theorem macTagIgnoresSegmentation : Obligations.MacTagIgnoresSegmentation := by
  intro s s' t t' c hhalt hhalt' hwf hwf' hreg hctx' hreg' hctx hcapacity hcapacity' hiv hmsg h ht h' ht'
  have htag := memRead_of_exec_mac hhalt hwf hreg hctx hcapacity h ht
  have htag' := memRead_of_exec_mac hhalt' hwf' (hreg' ▸ hreg) (hctx' ▸ hreg' ▸ hctx) hcapacity' h' ht'
  change memRead s'.mem (s'.aNat 2) 8 = memRead s.mem (s.aNat 2) 8 at hiv
  change segmentsMessage s'.mem (segmentList s'.mem (s'.aNat 0) (s'.aNat 1)) =
    segmentsMessage s.mem (segmentList s.mem (s.aNat 0) (s.aNat 1)) at hmsg
  rw [hctx', hreg', hiv, hmsg, ← htag] at htag'
  exact Option.some.inj htag'

end Sys2Proof.Machine

/-! The first failing check of MAC (spec/43_mac_acktag.md R124). -/

namespace Sys2Proof.Machine

variable {s : State} {c : Nat} {x : Ctx} {S M : Suite} {owner : CtxCore} {mk : MacKey}

/-- "in order" (R124): the first segment that is not valid is the one reported. -/
theorem checkSegments_of_first_invalid {segs : List (Nat × Nat)} {n : Nat} (hn : n < segs.length)
    (hvalid : ∀ k (hk : k < n), rangeValid s.memMap segs[k].1 segs[k].2 = true)
    (hbad : rangeValid s.memMap segs[n].1 segs[n].2 = false) :
    checkSegments s segs = .error (.trap .bus (BitVec.ofNat 64 segs[n].1)) := by
  induction segs generalizing n with
  | nil => exact absurd hn (Nat.not_lt_zero n)
  | cons p segs ih =>
    cases n with
    | zero => exact bind_eq_error.mpr (.inl (checkRange_of_not hbad))
    | succ n =>
      have hrest := ih (Nat.lt_of_succ_lt_succ hn) (fun k hk => hvalid (k + 1) (Nat.succ_lt_succ hk)) hbad
      exact bind_eq_error.mpr (.inr ⟨(), checkRange_of (hvalid 0 n.succ_pos), hrest⟩)

/-- The checks of MAC after the probe, in the order of R124, by the core that holds the key and its suite; they give the
tag. -/
def macChecks (s : State) (owner : CtxCore) (M : Suite) : Except Stop (List Byte) := do
  let mk ← orRaise owner.mac .notKeyed 1
  checkRange s (s.aNat 0) (16 * s.aNat 1)
  checkSegments s (segmentList s.mem (s.aNat 0) (s.aNat 1))
  checkRange s (s.aNat 2) 8
  let full ← orRaise (macFn M.impl M.macNativeLen mk (ivOf (memRead s.mem (s.aNat 2) 8))
    (segmentsMessage s.mem (segmentList s.mem (s.aNat 0) (s.aNat 1)))) .primitiveFail 4
  checkRange s (s.aNat 3) 20
  return macTag full.toList

/-- With capacity at least 20, once the core that holds the key is found, its checks decide. -/
theorem macWork_of_owner (hslot : liveSlot s c = .ok x) (hsuite : suiteFor s x .mac = .ok S)
    (hcapacity : ¬ signed64 s.a[4] < 20) (howner : macOwner x S = some owner) (hM : s.reg[owner.suite]? = some M) :
    macWork c s = (do
      let tag ← macChecks s owner M
      return (s.store (s.aNat 3) tag).setA 4 20) := by
  simp [macWork, macChecks, hslot, hsuite, hcapacity, howner, hM]

/-! ### One lemma per check, under the checks before it -/

section

theorem macChecks_of_unkeyed (hmk : owner.mac = none) : macChecks s owner M = .error (.trap .notKeyed 1) := by
  simp [macChecks, hmk]

variable (hmk : owner.mac = some mk)
include hmk

theorem macChecks_of_listRange (hlist : rangeValid s.memMap (s.aNat 0) (16 * s.aNat 1) = false) :
    macChecks s owner M = .error (.trap .bus s.a[0]) := by
  simp [macChecks, hmk, checkRange_aNat_of_not hlist]

variable (hlist : rangeValid s.memMap (s.aNat 0) (16 * s.aNat 1) = true)
include hlist

theorem macChecks_of_segmentRange {n : Nat} (hn : n < s.aNat 1)
    (hvalid : ∀ k, k < n →
      rangeValid s.memMap (segmentEntry s.mem (s.aNat 0) k).1 (segmentEntry s.mem (s.aNat 0) k).2 = true)
    (hbad : rangeValid s.memMap (segmentEntry s.mem (s.aNat 0) n).1 (segmentEntry s.mem (s.aNat 0) n).2 = false) :
    macChecks s owner M = .error (.trap .bus (BitVec.ofNat 64 (segmentEntry s.mem (s.aNat 0) n).1)) := by
  have hcheck := checkSegments_of_first_invalid (s := s) (segs := segmentList s.mem (s.aNat 0) (s.aNat 1)) (n := n)
    (by simpa using hn) (by simpa using hvalid) (by simpa using hbad)
  simp [macChecks, hmk, checkRange_of hlist, hcheck]

variable (hsegs : checkSegments s (segmentList s.mem (s.aNat 0) (s.aNat 1)) = .ok ())
include hsegs

theorem macChecks_of_ivRange (hiv : rangeValid s.memMap (s.aNat 2) 8 = false) :
    macChecks s owner M = .error (.trap .bus s.a[2]) := by
  simp [macChecks, hmk, checkRange_of hlist, hsegs, checkRange_aNat_of_not hiv]

variable (hiv : rangeValid s.memMap (s.aNat 2) 8 = true)
include hiv

theorem macChecks_of_primitiveFail (hfull : macFn M.impl M.macNativeLen mk (ivOf (memRead s.mem (s.aNat 2) 8))
      (segmentsMessage s.mem (segmentList s.mem (s.aNat 0) (s.aNat 1))) = none) :
    macChecks s owner M = .error (.trap .primitiveFail 4) := by
  simp [macChecks, hmk, checkRange_of hlist, hsegs, checkRange_of hiv, hfull]

theorem macChecks_of_outputRange (hfull : macFn M.impl M.macNativeLen mk (ivOf (memRead s.mem (s.aNat 2) 8))
      (segmentsMessage s.mem (segmentList s.mem (s.aNat 0) (s.aNat 1))) ≠ none)
    (hout : rangeValid s.memMap (s.aNat 3) 20 = false) : macChecks s owner M = .error (.trap .bus s.a[3]) := by
  obtain ⟨full, hfull⟩ := Option.ne_none_iff_exists'.mp hfull
  simp [macChecks, hmk, checkRange_of hlist, hsegs, checkRange_of hiv, hfull, checkRange_aNat_of_not hout]

end

/-- Settles O52: the checks of the slot, then the lemma of each check of `macChecks`, under the checks before it. -/
theorem macChecksInOrder : Obligations.MacChecksInOrder := by
  intro s c hhalt
  refine ⟨exec_of_noSlot (i := .mac c) hhalt rfl, fun x hx =>
    ⟨fun hst => exec_of_deadSlot (i := .mac c) hhalt rfl hx hst rfl,
      fun hst => exec_of_deadSlot (i := .mac c) hhalt rfl hx hst rfl, fun S hst hS => ?_⟩⟩
  have hslot : liveSlot s c = .ok x := liveSlot_eq_ok.mpr ⟨hx, live_iff.mpr hst⟩
  refine ⟨exec_of_capAbsent (i := .mac c) (k := .mac) hhalt rfl hslot hS, fun owner M hcap hcapacity howner hM => ?_⟩
  have hwork := macWork_of_owner hslot (suiteFor_eq_ok.mpr ⟨hS, hcap⟩) (not_lt.mpr hcapacity)
    (macOwner_eq_some_iff.mpr howner) hM
  have trap : ∀ {code info}, macChecks s owner M = .error (.trap code info) →
      exec (.mac c) s = .next (haltedWith s code info) := fun h =>
    exec_of_trap (i := .mac c) hhalt (hwork.trans (bind_eq_error.mpr (.inl h)))
  refine ⟨fun hmk => trap (macChecks_of_unkeyed hmk), fun mk hmk =>
    ⟨fun hlist => trap (macChecks_of_listRange hmk hlist),
      fun n hlist hn hvalid hbad => trap (macChecks_of_segmentRange hmk hlist hn hvalid hbad), fun hlist hvalid => ?_⟩⟩
  have hsegs : checkSegments s (segmentList s.mem (s.aNat 0) (s.aNat 1)) = .ok () :=
    checkSegments_eq_ok.mpr (forall_mem_segmentList.mpr hvalid)
  exact ⟨fun hiv => trap (macChecks_of_ivRange hmk hlist hsegs hiv), fun hiv =>
    ⟨fun hfull => trap (macChecks_of_primitiveFail hmk hlist hsegs hiv hfull),
      fun hfull hout => trap (macChecks_of_outputRange hmk hlist hsegs hiv hfull hout)⟩⟩

end Sys2Proof.Machine

/-! ACKTAG (spec/43_mac_acktag.md R125, R126): what it writes, what that depends on, and the first failing check. -/

namespace Sys2Proof.Machine

/-- Settles O54: `acktagWork_eq_ok`; the bytes of the data are what `memRead` gives. -/
theorem acktagWritesStreamTag : Obligations.AcktagWritesStreamTag := by
  intro s c x S a a' tag hhalt hwf hx hst hS hcap ha hdata htag hout
  refine ⟨memWrite s.mem (s.aNat 2) tag, tagLengthWord tag.length, ?_, tagLengthWord_toNat, memWrite_wf _ _ hwf,
    fun j hj => memGet_memWrite_inside hwf _ hj, fun b hb => memGet_memWrite_outside hwf hb⟩
  exact exec_of_ok hhalt (acktagWork_eq_ok.mpr
    ⟨x, S, a, tag, a', hx, live_iff.mpr hst, hS, hcap, ha, hdata, htag, hout, rfl⟩)

/-- A completed ACKTAG leaves the tag of its data at `A2`, as far as RET counts. -/
theorem exec_acktag_tag {s t : State} {c : Nat} {x : Ctx} (hhalt : s.halt = false) (hwf : Memory.wf s.mem = true)
    (hx : s.ctx[c]? = some x) (h : exec (.acktag c) s = .next t) (ht : t.halt = false) :
    ∃ S a tag a', s.reg[x.suite]? = some S ∧ x.ack = some a ∧
      ackStream S.impl a (memRead s.mem (s.aNat 0) (s.aNat 1)) = some (tag, a') ∧
      t.ret = tagLengthWord tag.length ∧ memRead t.mem (s.aNat 2) t.ret.toNat = tag.take t.ret.toNat := by
  obtain ⟨y, S, a, tag, a', hy, -, hS, -, ha, -, htag, -, rfl⟩ := acktagWork_eq_ok.mp (workOf_ok_of_exec h hhalt ht)
  obtain rfl : y = x := Option.some.inj (hy.symm.trans hx)
  exact ⟨S, a, tag, a', hS, ha, htag, rfl, memRead_memWrite_take hwf _ (tagLengthWord_le _)⟩

/-- Settles O56: both tags are the streaming pass on one suite, ack keyed state and string (`exec_acktag_tag`). -/
theorem acktagDependsOnKeyAndDataOnly : Obligations.AcktagDependsOnKeyAndDataOnly := by
  intro s s' t t' c c' x x' hhalt hhalt' hwf hwf' hx hx' hreg hack hdata h ht h' ht'
  obtain ⟨S, a, tag, k, hS, ha, htag, hret, hread⟩ := exec_acktag_tag hhalt hwf hx h ht
  obtain ⟨S', a', tag', k', hS', ha', htag', hret', hread'⟩ := exec_acktag_tag hhalt' hwf' hx' h' ht'
  obtain rfl : S' = S := Option.some.inj (hS'.symm.trans (hreg.trans hS))
  obtain rfl : a' = a := Option.some.inj (ha'.symm.trans (hack.trans ha))
  change memRead s'.mem (s'.aNat 0) (s'.aNat 1) = memRead s.mem (s.aNat 0) (s.aNat 1) at hdata
  rw [hdata] at htag'
  obtain ⟨rfl, rfl⟩ : tag' = tag ∧ k' = k := by simpa using htag'.symm.trans htag
  have hretEq : t'.ret = t.ret := hret'.trans hret.symm
  exact ⟨hretEq, hread'.trans (hretEq ▸ hread.symm)⟩

/-! ### One lemma per check, under the checks before it -/

section

variable {s : State} {c : Nat} {x : Ctx} {S : Suite} {a : AckState}
variable (hslot : liveSlot s c = .ok x) (hsuite : suiteFor s x .acktag = .ok S)
include hslot hsuite

theorem acktagWork_of_unkeyed (ha : x.ack = none) : acktagWork c s = .error (.trap .notKeyed 2) := by
  simp [acktagWork, hslot, hsuite, ha]

variable (ha : x.ack = some a)
include ha

theorem acktagWork_of_dataRange (hdata : rangeValid s.memMap (s.aNat 0) (s.aNat 1) = false) :
    acktagWork c s = .error (.trap .bus s.a[0]) := by
  simp [acktagWork, hslot, hsuite, ha, checkRange_aNat_of_not hdata]

variable (hdata : rangeValid s.memMap (s.aNat 0) (s.aNat 1) = true)
include hdata

theorem acktagWork_of_primitiveFail (htag : ackStream S.impl a (memRead s.mem (s.aNat 0) (s.aNat 1)) = none) :
    acktagWork c s = .error (.trap .primitiveFail 5) := by
  simp [acktagWork, hslot, hsuite, ha, checkRange_of hdata, htag]

theorem acktagWork_of_outputRange {tag : List Byte} {a' : AckState}
    (htag : ackStream S.impl a (memRead s.mem (s.aNat 0) (s.aNat 1)) = some (tag, a'))
    (hout : rangeValid s.memMap (s.aNat 2) tag.length = false) : acktagWork c s = .error (.trap .bus s.a[2]) := by
  simp [acktagWork, hslot, hsuite, ha, checkRange_of hdata, htag, checkRange_aNat_of_not hout]

end

/-- Settles O55: the checks of the slot, then the lemma of each check, under the checks before it. -/
theorem acktagChecksInOrder : Obligations.AcktagChecksInOrder := by
  intro s c hhalt
  have trap : ∀ {code info}, acktagWork c s = .error (.trap code info) →
      exec (.acktag c) s = .next (haltedWith s code info) := exec_of_trap (i := .acktag c) hhalt
  refine ⟨exec_of_noSlot (i := .acktag c) hhalt rfl, fun x hx =>
    ⟨fun hst => exec_of_deadSlot (i := .acktag c) hhalt rfl hx hst rfl,
      fun hst => exec_of_deadSlot (i := .acktag c) hhalt rfl hx hst rfl, fun S hst hS => ?_⟩⟩
  have hslot : liveSlot s c = .ok x := liveSlot_eq_ok.mpr ⟨hx, live_iff.mpr hst⟩
  have suite : S.caps.acktag = true → suiteFor s x .acktag = .ok S := fun hcap => suiteFor_eq_ok.mpr ⟨hS, hcap⟩
  exact ⟨exec_of_capAbsent (i := .acktag c) (k := .acktag) hhalt rfl hslot hS,
    fun hcap ha => trap (acktagWork_of_unkeyed hslot (suite hcap) ha), fun a hcap ha =>
      ⟨fun hdata => trap (acktagWork_of_dataRange hslot (suite hcap) ha hdata), fun hdata =>
        ⟨fun htag => trap (acktagWork_of_primitiveFail hslot (suite hcap) ha hdata htag),
          fun tag a' htag hout => trap (acktagWork_of_outputRange hslot (suite hcap) ha hdata htag hout)⟩⟩⟩

end Sys2Proof.Machine

/-! The commands of the registry: LOOKUP, GETDESC, GETTYPE, NEXTIV (spec/44_registry.md R140 to R144), and the refusal of
a configuration that is not well formed (R137). -/

namespace Sys2Proof.Machine

variable {s : State} {n : Nat} {S : Suite}

/-- A command of format S faults first on a selector that names no entry (R63; spec/60_exceptions.md R159 step 3). -/
theorem exec_of_noSuite {i : Instr} {f : Suite → Except Stop State} (hhalt : s.halt = false)
    (hwork : workOf i s = suiteAt s n >>= f) (hS : s.reg[n]? = none) :
    exec i s = .next (haltedWith s .badSel (BitVec.ofNat 64 n)) :=
  exec_of_trap hhalt (by rw [hwork, suiteAt_none hS, error_bind])

/-! ### GETDESC -/

theorem ofNat_div_two_pow_eq_extractLsb' {w : Nat} (v : BitVec w) (k : Nat) :
    BitVec.ofNat 8 (v.toNat / 2 ^ k) = v.extractLsb' k 8 := by
  rw [← Nat.shiftRight_eq_div_pow, BitVec.extractLsb']

/-- The four bytes of an identifier, most significant first (spec/20_memory.md R41 (c)). -/
theorem beBytes_four (v : BitVec 32) :
    beBytes 4 v.toNat = [v.extractLsb' 24 8, v.extractLsb' 16 8, v.extractLsb' 8 8, v.extractLsb' 0 8] := by
  simp only [← ofNat_div_two_pow_eq_extractLsb']
  rfl

theorem getdescWork_of_badRange (hS : s.reg[n]? = some S) (hrange : rangeValid s.memMap (s.aNat 0) 4 = false) :
    getdescWork n s = .error (.trap .bus s.a[0]) := by
  rw [getdescWork, suiteAt_eq_ok.mpr hS, ok_bind, checkRange_aNat_of_not hrange, error_bind]
  rfl

/-- Settles O58: `getdescWork_eq_ok` gives the state, `beBytes_four` the bytes stored. -/
theorem getdescWritesIdentifier : Obligations.GetdescWritesIdentifier := by
  intro s n hhalt hwf
  refine ⟨exec_of_noSuite (i := .getdesc n) hhalt rfl, fun S hS =>
    ⟨fun hrange => exec_of_trap hhalt (getdescWork_of_badRange hS hrange), fun hrange => ?_⟩⟩
  have hlen : (beBytes 4 S.id.toNat).length = 4 := beBytes_length 4 _
  have stored : ∀ j, j < 4 →
      memGet (memWrite s.mem (s.aNat 0) (beBytes 4 S.id.toNat)) (s.aNat 0 + j) = (beBytes 4 S.id.toNat).getD j 0 :=
    fun j hj => memGet_memWrite_inside hwf _ (hlen.symm ▸ hj)
  rw [beBytes_four] at stored hlen
  refine ⟨_, exec_of_ok hhalt (getdescWork_eq_ok.mpr ⟨S, hS, hrange, rfl⟩), memWrite_wf _ _ hwf, ?_⟩
  rw [beBytes_four]
  exact ⟨stored 0 (by decide), stored 1 (by decide), stored 2 (by decide), stored 3 (by decide),
    fun a ha => memGet_memWrite_outside hwf (hlen.symm ▸ ha)⟩

/-! ### NEXTIV -/

theorem nextivWork_of_ne_zero (hS : s.reg[n]? = some S) (ha : s.a[1] ≠ 0) :
    nextivWork n s = .error (.trap .ivlenProtocol s.a[1]) := by
  rw [nextivWork, suiteAt_eq_ok.mpr hS, ok_bind, raiseIf_of ha, error_bind]

/-- The sentinel of a legal configuration is negative (spec/93_implementation_defined.md section 1). -/
theorem seqSentinel_neg {p : Params} (h : p.wf = true) : p.seqSentinel.toInt < 0 :=
  of_decide_eq_true (BitVec.msb_eq_toInt.symm.trans h)

/-- Settles O60: a negative sentinel is not zero, so the second NEXTIV meets the check of `A1`. -/
theorem nextivSignalsSequentialMode : Obligations.NextivSignalsSequentialMode := by
  intro s n hhalt
  refine ⟨exec_of_noSuite (i := .nextiv n) hhalt rfl, fun S hS =>
    ⟨fun ha => exec_of_trap hhalt (nextivWork_of_ne_zero hS ha), fun ha hparams => ?_⟩⟩
  have hneg : s.params.seqSentinel.toInt < 0 := seqSentinel_neg hparams
  have hne : s.params.seqSentinel ≠ 0 := fun h => absurd hneg (by rw [h]; decide)
  have hget : (s.setA 1 s.params.seqSentinel).a[1] = s.params.seqSentinel := Vector.getElem_set_self _
  have hagain := nextivWork_of_ne_zero (s := s.setA 1 s.params.seqSentinel) hS (hget.symm ▸ hne)
  rw [hget] at hagain
  exact ⟨hneg, exec_of_ok hhalt (nextivWork_eq_ok.mpr ⟨S, hS, ha, rfl⟩), exec_of_trap hhalt hagain⟩

/-! ### LOOKUP and GETTYPE -/

theorem exec_lookup_of_found (hhalt : s.halt = false) (hfind : findSuite s.reg s.a[0] = some n) :
    exec .lookup s = .next (s.setRet (BitVec.ofNat 64 n)) :=
  exec_of_ok hhalt (by rw [workOf, lookupWork_eq, hfind])

theorem exec_lookup_of_notFound (hhalt : s.halt = false) (hid : ∀ S ∈ s.reg, S.id.setWidth 64 ≠ s.a[0]) :
    exec .lookup s = .next (s.setRet (BitVec.allOnes 64)) :=
  exec_of_ok hhalt (by rw [workOf, lookupWork_eq, findSuite_eq_none_iff.mpr hid])

/-- Settles O57: an identifier is found at its own entry (`findSuite_of_getElem?`), and a zero-extended one is below
`2 ^ 32`. -/
theorem lookupReturnsIndexOrAllOnes : Obligations.LookupReturnsIndexOrAllOnes := by
  intro s hhalt hwf
  refine ⟨fun n S hS hid => exec_lookup_of_found hhalt (hid ▸ findSuite_of_getElem? hwf hS),
    exec_lookup_of_notFound hhalt, fun hbig => exec_lookup_of_notFound hhalt fun S _ hid => ?_⟩
  have hnat : s.a[0].toNat = S.id.toNat := by rw [← hid, BitVec.toNat_setWidth_of_le (by decide)]
  have hlt := S.id.isLt
  omega

/-- Settles O59: `gettypeWork_eq_ok`, where RET is the number of the family. -/
theorem gettypeReturnsFamily : Obligations.GettypeReturnsFamily := by
  intro s n hhalt
  refine ⟨exec_of_noSuite (i := .gettype n) hhalt rfl, fun S hS => ?_⟩
  have completes : exec (.gettype n) s = .next (s.setRet (famNumber S.family)) :=
    exec_of_ok hhalt (gettypeWork_eq_ok.mpr ⟨S, hS, rfl⟩)
  exact ⟨fun hf => by rw [completes, hf]; rfl, fun hf => by rw [completes, hf]; rfl⟩

/-! ### The configuration -/

/-- Settles O20: the check of the configuration comes before the host's action. -/
theorem illFormedConfigurationIsRefused : Obligations.IllFormedConfigurationIsRefused := by
  intro s hc
  rw [step, stepHost, if_neg (by simp [hc])]

end Sys2Proof.Machine

/-! A command and the context slots it does not name (spec/10_state.md R20; spec/44_registry.md R138): its work on a state
with those slots exchanged is its work on the state itself, with the same slots exchanged afterwards. -/

namespace Sys2Proof.Machine

variable {i : Instr} {s t : State} {k : Option Nat} {table ctx : List Ctx} {c j : Nat}

/-! ### Exchanging the slots a command does not name -/

/-- The slot a command names, if it names one. -/
def slotOf (i : Instr) : Option Nat := if namesContext i then some i.sel else none

theorem slotOf_eq_some_iff : slotOf i = some c ↔ namesContext i = true ∧ i.sel = c := by
  simp [slotOf]

/-- The context table `ctx` with every slot but `k` taken from `table`. -/
def graftTable (k : Option Nat) (table ctx : List Ctx) : List Ctx :=
  match k with
  | none => table
  | some c => table.set c (ctx.getD c Ctx.absent)

theorem graftTable_named (hlen : table.length = ctx.length) : (graftTable (some c) table ctx)[c]? = ctx[c]? := by
  rw [graftTable, List.getElem?_set_self', List.getD_eq_getElem?_getD]
  rcases Nat.lt_or_ge c ctx.length with hlt | hge
  · simp [hlt, hlen]
  · simp [hge, hlen]

theorem graftTable_other (hj : k ≠ some j) : (graftTable k table ctx)[j]? = table[j]? := by
  cases k with
  | none => rfl
  | some c => exact List.getElem?_set_ne fun hc => hj (congrArg some hc)

/-- `table` has as many slots as `ctx`, and the same slot `k`. -/
def SameSlot (k : Option Nat) (table ctx : List Ctx) : Prop :=
  table.length = ctx.length ∧ ∀ c, k = some c → table[c]? = ctx[c]?

theorem SameSlot.graftTable_self (h : SameSlot k table ctx) : graftTable k table ctx = table := by
  obtain ⟨hlen, hslot⟩ := h
  refine List.ext_getElem? fun j => ?_
  by_cases hj : k = some j
  · rw [hj, graftTable_named hlen, hslot j hj]
  · exact graftTable_other hj

/-- `t` with every slot but `k` taken from `table`. -/
def State.graft (t : State) (k : Option Nat) (table : List Ctx) : State := { t with ctx := graftTable k table t.ctx }

theorem SameSlot.graft_self (h : SameSlot k table s.ctx) : s.graft k table = { s with ctx := table } := by
  rw [State.graft, h.graftTable_self]

theorem graft_setRet (v : Word) :
    (t.setRet v).graft k table = (t.graft k table).setRet v := rfl

theorem checkSegments_graft (segs : List (Nat × Nat)) : checkSegments (s.graft k table) segs = checkSegments s segs := by
  induction segs with
  | nil => rfl
  | cons p segs ih => rw [checkSegments, checkSegments, ih]; rfl

/-! ### The work of the commands that name a slot -/

section

variable (h : SameSlot (some c) table s.ctx)
include h

theorem slotAt_graft : slotAt (s.graft (some c) table) c = slotAt s c := by
  rw [slotAt, slotAt, h.graft_self, h.2 c rfl]

theorem liveSlot_graft : liveSlot (s.graft (some c) table) c = liveSlot s c := by
  rw [liveSlot, liveSlot, slotAt_graft h]

/-- The named slot is stored, and the others are exchanged, in either order. -/
theorem graft_setCtx (y : Ctx) :
    (s.setCtx c y).graft (some c) table = (s.graft (some c) table).setCtx c y := by
  have hctx : graftTable (some c) table (s.ctx.set c y) = (graftTable (some c) table s.ctx).set c y := by
    rw [h.graftTable_self]
    refine List.ext_getElem? fun j => ?_
    by_cases hj : c = j
    · subst hj
      rw [graftTable_named (by simpa using h.1), List.getElem?_set_self', List.getElem?_set_self', h.2 c rfl]
    · rw [graftTable_other fun he => hj (Option.some.inj he), List.getElem?_set_ne hj]
  simp only [State.graft, State.setCtx, hctx]

theorem transform_graft (dir : Dir) (acc : Fin 16) :
    transform dir c acc (s.graft (some c) table) = (·.graft (some c) table) <$> transform dir c acc s := by
  simp only [transform, liveSlot_graft h, map_bind, map_pure]
  rfl

theorem decryptWork_graft (acc : Fin 16) :
    decryptWork c acc (s.graft (some c) table) = (·.graft (some c) table) <$> decryptWork c acc s := by
  simp only [decryptWork, transform_graft h, bind_map_left, map_bind, map_pure]
  rfl

theorem initWork_graft : initWork c (s.graft (some c) table) = (·.graft (some c) table) <$> initWork c s := by
  simp only [initWork, slotAt_graft h, map_bind, map_pure, graft_setCtx h]
  rfl

theorem setkeyWork_graft : setkeyWork c (s.graft (some c) table) = (·.graft (some c) table) <$> setkeyWork c s := by
  simp only [setkeyWork, liveSlot_graft h, map_bind]
  refine bind_congr fun x => bind_congr fun S => bind_congr fun _ => ?_
  cases S.family <;> simp only [map_bind, map_pure, graft_setCtx h] <;> rfl

theorem setkeysWork_graft : setkeysWork c (s.graft (some c) table) = (·.graft (some c) table) <$> setkeysWork c s := by
  simp only [setkeysWork, liveSlot_graft h, map_bind, map_pure, graft_setCtx h]
  rfl

theorem finishWork_graft : finishWork c (s.graft (some c) table) = (·.graft (some c) table) <$> finishWork c s := by
  simp only [finishWork, slotAt_graft h, map_bind, apply_ite, map_pure, graft_setCtx h]

theorem macWork_graft : macWork c (s.graft (some c) table) = (·.graft (some c) table) <$> macWork c s := by
  simp only [macWork, liveSlot_graft h, checkSegments_graft, map_bind, apply_ite, map_pure]
  rfl

theorem acktagWork_graft : acktagWork c (s.graft (some c) table) = (·.graft (some c) table) <$> acktagWork c s := by
  have stored := fun addr b => graft_setCtx (s := s.store addr b) h
  simp only [acktagWork, liveSlot_graft h, map_bind, map_pure, graft_setRet, stored]
  rfl

end

/-! ### Every command -/

/-- A command's work looks at no slot but the one it names, and leaves the others. -/
theorem workOf_graft (h : SameSlot (slotOf i) table s.ctx) :
    workOf i (s.graft (slotOf i) table) = (·.graft (slotOf i) table) <$> workOf i s := by
  cases i with
  | encrypt c acc => exact transform_graft h .enc acc
  | decrypt c acc => exact decryptWork_graft h acc
  | init c => exact initWork_graft h
  | setkey c => exact setkeyWork_graft h
  | setkeys c => exact setkeysWork_graft h
  | finish c => exact finishWork_graft h
  | mac c => exact macWork_graft h
  | acktag c => exact acktagWork_graft h
  | lookup => simp only [workOf, lookupWork_eq]; rfl
  | getdesc n => simp only [workOf, getdescWork, map_bind, map_pure]; rfl
  | gettype n => simp only [workOf, gettypeWork, map_bind, map_pure]; rfl
  | nextiv n => simp only [workOf, nextivWork, map_bind, map_pure]; rfl

theorem exec_graft (h : SameSlot (slotOf i) table s.ctx) (ht : exec i s = .next t) :
    exec i (s.graft (slotOf i) table) = .next (t.graft (slotOf i) table) := by
  rw [exec_eq_runCommand, workOf_graft h]
  rcases exec_cases ht with ⟨hhalt, rfl⟩ | ⟨hhalt, code, info, hw, rfl⟩ | ⟨hhalt, hw⟩
  · exact runCommand_halted (s := t.graft (slotOf i) table) hhalt _
  · rw [hw]
    exact runCommand_trap (s := s.graft (slotOf i) table) hhalt code info
  · rw [hw]
    exact runCommand_ok (s := s.graft (slotOf i) table) hhalt

theorem Effect.ctx_other (h : Effect s i t) (hj : slotOf i ≠ some j) : t.ctx[j]? = s.ctx[j]? := by
  cases h with
  | init | setkey | setkeys | finish | acktag => exact List.getElem?_set_ne fun hc => hj (congrArg some hc)
  | _ => rfl

theorem exec_ctx_other (h : exec i s = .next t) (hj : slotOf i ≠ some j) : t.ctx[j]? = s.ctx[j]? := by
  by_contra hne
  exact hne ((effect_of_changed (fun u => u.ctx[j]?) h hne fun _ _ => rfl).ctx_other hj)

/-- Settles O29: on the other table the next state is this one's with the other slots exchanged (`exec_graft`). -/
theorem commandsReadNoOtherContext : Obligations.CommandsReadNoOtherContext := by
  intro i s t table hlen hslot h
  have hsame : SameSlot (slotOf i) table s.ctx := ⟨hlen, fun c hc => by
    obtain ⟨hi, rfl⟩ := slotOf_eq_some_iff.mp hc
    exact hslot hi⟩
  obtain ⟨-, -, -, hlen'⟩ := exec_sameConfig h
  refine ⟨graftTable (slotOf i) table t.ctx, hsame.graft_self ▸ exec_graft hsame h, fun hi => ?_, fun j hj => ?_⟩
  · rw [slotOf_eq_some_iff.mpr ⟨hi, rfl⟩, graftTable_named (hlen.trans hlen'.symm)]
  · have hother : slotOf i ≠ some j := fun hc => by
      obtain ⟨hi, hsel⟩ := slotOf_eq_some_iff.mp hc
      exact hj hi hsel.symm
    exact ⟨graftTable_other hother, exec_ctx_other h hother⟩

end Sys2Proof.Machine

/-! The halted engine and fault entry (spec/60_exceptions.md R157, R159 to R163): what a step does while halted, and
which steps halt. -/

namespace Sys2Proof.Machine

variable {i : Instr} {s t : State}

/-! ### The halted engine (R162, R163) -/

/-- Settles O22: `exec` is `runCommand` of the command's work, and `runCommand` never looks at the work while halted. -/
theorem haltedEngineRunsNoCommand : Obligations.HaltedEngineRunsNoCommand := fun i s hhalt =>
  (exec_eq_runCommand i s).trans (runCommand_halted hhalt (workOf i s))

/-- While halted, every step but reset leaves all but host memory and the host agent's own fields as they were. -/
theorem step_of_halted (hhalt : s.halt = true) (hreset : ∀ rest, s.host ≠ .reset :: rest) (h : step s = .next t) :
    ∃ rest mem value bytes, t = { s with host := rest, mem := mem, hostReg := value, hostMem := bytes } := by
  obtain ⟨-, ⟨-, rfl⟩ | ⟨off, v, rest, -, -, hstore⟩ | ⟨off, rest, -, -, rfl⟩ | ⟨addr, b, rest, -, -, rfl⟩ |
    ⟨addr, n, rest, -, -, rfl⟩ | ⟨rest, hh, -⟩⟩ := step_cases h
  · exact ⟨_, _, _, _, rfl⟩
  · rw [regStore_halted (s := { s with host := rest }) _ v hhalt] at hstore
    cases hstore
    exact ⟨_, _, _, _, rfl⟩
  · exact ⟨_, _, _, _, rfl⟩
  · exact ⟨_, _, _, _, rfl⟩
  · exact ⟨_, _, _, _, rfl⟩
  · exact absurd hh (hreset rest)

/-- Settles O9: `step_of_halted`; none of the fields named is host memory or the host agent's. -/
theorem onlyResetLeavesHalt : Obligations.OnlyResetLeavesHalt := by
  intro s t hhalt hreset h
  obtain ⟨rest, mem, value, bytes, rfl⟩ := step_of_halted hhalt hreset h
  exact ⟨hhalt, rfl, rfl, rfl, rfl, rfl, rfl, rfl, rfl, rfl⟩

/-! ### The steps that halt (R160, R161) -/

theorem Effect.halt_eq (h : Effect s i t) : t.halt = s.halt := by
  cases h <;> rfl

/-- A command that halts the engine has taken the fault entry, and done nothing of its work. -/
theorem exec_halts (hrun : s.halt = false) (h : exec i s = .next t) (hhalt : t.halt = true) :
    ∃ code info, code ∈ faultsOf i ∧ t = haltedWith s code info := by
  have hne : t.halt ≠ s.halt := by simp [hrun, hhalt]
  rcases exec_effect h with rfl | ⟨code, info, hcode, rfl⟩ | he
  · exact absurd rfl hne
  · exact ⟨code, info, hcode, rfl⟩
  · exact absurd he.halt_eq hne

/-- A register write that halts the engine is a write to CMD, of a command that faults or of an illegal word. -/
theorem regStore_halts {r : RegName} {v : Word} (hrun : s.halt = false) (h : regStore r v s = .next t)
    (hhalt : t.halt = true) :
    r = .cmd ∧ ∃ code info, code ≠ .none ∧ t = haltedWith { s with cmd := v.setWidth 32 } code info := by
  have hne : t.halt ≠ s.halt := by simp [hrun, hhalt]
  rcases regStore_cases h with rfl | ⟨-, ⟨i, -, rfl⟩ | ⟨k, -, rfl⟩ | ⟨hr, ⟨i, -, hexec⟩ | ⟨e, -, rfl⟩⟩⟩
  · exact absurd rfl hne
  · exact absurd rfl hne
  · exact absurd rfl hne
  · obtain ⟨code, info, hcode, ht⟩ := exec_halts (s := { s with cmd := v.setWidth 32 }) hrun hexec hhalt
    exact ⟨hr, code, info, ne_of_mem_of_not_mem hcode (none_notMem_faultsOf i), ht⟩
  · exact ⟨hr, .illegalCmd, 0, by decide, rfl⟩

/-- CMD stands at offset 0 alone (R26). -/
theorem eq_zero_of_regAt_eq_cmd {off : Nat} (h : regAt off = .cmd) : off = 0 := by
  by_contra h0
  simp only [regAt, if_neg h0] at h
  split_ifs at h

/-- Settles O21: `exec_halts` for a command, `regStore_halts` for a step; no other action of the host sets HALT. -/
theorem faultingCommandChangesOnlyFaultRegisters : Obligations.FaultingCommandChangesOnlyFaultRegisters := by
  refine ⟨fun i s t => exec_halts, fun s t hrun h hhalt => ?_⟩
  have hne : t.halt ≠ s.halt := by simp [hrun, hhalt]
  obtain ⟨-, ⟨-, rfl⟩ | ⟨off, v, rest, hh, -, hstore⟩ | ⟨off, rest, -, -, rfl⟩ | ⟨addr, b, rest, -, -, rfl⟩ |
    ⟨addr, n, rest, -, -, rfl⟩ | ⟨rest, -, rfl⟩⟩ := step_cases h
  · exact absurd rfl hne
  · obtain ⟨hr, code, info, hcode, ht⟩ := regStore_halts (s := { s with host := rest }) hrun hstore hhalt
    obtain rfl := eq_zero_of_regAt_eq_cmd hr
    exact ⟨v, rest, code, info, hh, hcode, ht⟩
  · exact absurd rfl hne
  · exact absurd rfl hne
  · exact absurd rfl hne
  · cases hhalt

end Sys2Proof.Machine

/-! Progress (spec/60_exceptions.md R165): no command meets a configuration it would refuse in a state with the
invariant, so every legal action of the host answers a next state. -/

namespace Sys2Proof.Machine

/-! ### Work that refuses nothing -/

/-- `w` ends in a result or a fault of the engine, never in a refusal. -/
def NeverRefuses {α : Type} (w : Except Stop α) : Prop := ∀ r, w ≠ .error (.refuse r)

section
variable {α β : Type}

@[simp] theorem neverRefuses_ok (a : α) : NeverRefuses (.ok a : Except Stop α) := nofun

@[simp] theorem neverRefuses_bind {x : Except Stop α} {f : α → Except Stop β} :
    NeverRefuses (x >>= f) ↔ NeverRefuses x ∧ ∀ a, x = .ok a → NeverRefuses (f a) := by
  cases x <;> simp [NeverRefuses]

@[simp] theorem neverRefuses_raiseIf {p : Prop} [Decidable p] (code : FaultCode) (info : Word) :
    NeverRefuses (raiseIf p code info) := by
  simp [NeverRefuses]

@[simp] theorem neverRefuses_orRaise (x : Option α) (code : FaultCode) (info : Word) :
    NeverRefuses (orRaise x code info) := by
  simp [NeverRefuses]

@[simp] theorem neverRefuses_orRefuse {x : Option α} : NeverRefuses (orRefuse x) ↔ ∃ v, x = some v := by
  simp [NeverRefuses, ← Option.ne_none_iff_exists']

@[simp] theorem neverRefuses_ite {p : Prop} [Decidable p] {w w' : Except Stop α} :
    NeverRefuses (if p then w else w') ↔ (p → NeverRefuses w) ∧ (¬ p → NeverRefuses w') := by
  by_cases hp : p <;> simp [hp]

@[simp] theorem neverRefuses_checkRange (s : State) (addr n : Nat) : NeverRefuses (checkRange s addr n) :=
  neverRefuses_raiseIf _ _

@[simp] theorem neverRefuses_checkSegments (s : State) (segs : List (Nat × Nat)) :
    NeverRefuses (checkSegments s segs) := by
  induction segs with
  | nil => exact neverRefuses_ok ()
  | cons p segs ih => simp [checkSegments, ih]

@[simp] theorem neverRefuses_slotAt (s : State) (c : Nat) : NeverRefuses (slotAt s c) := neverRefuses_orRaise _ _ _

@[simp] theorem neverRefuses_suiteAt (s : State) (n : Nat) : NeverRefuses (suiteAt s n) := neverRefuses_orRaise _ _ _

@[simp] theorem neverRefuses_liveSlot (s : State) (c : Nat) : NeverRefuses (liveSlot s c) := by
  simp [liveSlot]

@[simp] theorem neverRefuses_readKey (s : State) (addr len minLen : Nat) (which : Word) :
    NeverRefuses (readKey s addr len minLen which) := by
  simp [readKey]

theorem neverRefuses_suiteFor {s : State} {x : Ctx} {k : Cap} :
    NeverRefuses (suiteFor s x k) ↔ ∃ S, s.reg[x.suite]? = some S := by
  simp [suiteFor]

end

/-! ### What a live context names exists (spec/10_state.md R18; spec/44_registry.md R137) -/

section
variable {reg : List Suite} {x : Ctx} {S : Suite}

theorem exists_suite_of_live (h : ctxWf reg x = true) (hl : x.st.live = true) : ∃ S, reg[x.suite]? = some S := by
  cases hS : reg[x.suite]? with
  | none => simp [ctxWf, hl, hS] at h
  | some S => exact ⟨S, rfl⟩

theorem family_eq_sym_of_setkeys (h : S.wf reg = true) (hcap : S.caps.setkeys = true) : S.family = .sym := by
  cases hf : S.family with
  | sym => rfl
  | mac => simp [Suite.wf, hf, hcap] at h

theorem exists_getElem?_of_macSuite {m : Nat} (h : S.wf reg = true) (hf : S.family = .sym)
    (hm : S.macSuite = some m) : ∃ M, reg[m]? = some M := by
  cases hM : reg[m]? with
  | none => simp [Suite.wf, hf, hm, hM] at h
  | some M => exact ⟨M, rfl⟩

/-- A live context of a SYM suite has a Sub-Authenticator, and the registry its suite. -/
theorem exists_sub_of_sym (hreg : regWf reg = true) (h : ctxWf reg x = true) (hl : x.st.live = true)
    (hS : reg[x.suite]? = some S) (hf : S.family = .sym) :
    ∃ sub M, x.sub = some sub ∧ reg[sub.suite]? = some M := by
  cases hsub : x.sub with
  | none => simp [ctxWf_of_sym hl hS hf, symCtxWf, hsub] at h
  | some sub =>
    obtain ⟨M, hM⟩ := exists_getElem?_of_macSuite (suiteWf_of_regWf hreg hS) hf (macSuite_of_sub h hl hS hf hsub)
    exact ⟨sub, M, rfl, hM⟩

/-- A live context has the core that runs its MAC, and the registry that core's suite (R123). -/
theorem exists_macOwner (hreg : regWf reg = true) (h : ctxWf reg x = true) (hl : x.st.live = true)
    (hS : reg[x.suite]? = some S) : ∃ owner M, macOwner x S = some owner ∧ reg[owner.suite]? = some M := by
  cases hf : S.family with
  | sym =>
    obtain ⟨sub, M, hsub, hM⟩ := exists_sub_of_sym hreg h hl hS hf
    exact ⟨sub, M, macOwner_eq_some_iff.mpr (.inl ⟨hf, hsub⟩), hM⟩
  | mac => exact ⟨x.toCtxCore, S, macOwner_eq_some_iff.mpr (.inr ⟨hf, rfl⟩), hS⟩

end

/-! ### Every command completes from the invariant -/

section
variable {s : State} {c : Nat}

/-- The checks of the slot and of its suite refuse nothing, so it is enough that the rest refuses nothing on the live
context and the suite they find. -/
theorem State.Inv.neverRefuses_slot_suite (hi : s.Inv) {k : Cap} {f : Ctx → Suite → Except Stop State}
    (hf : ∀ x S, ctxWf s.reg x = true → x.st.live = true → s.reg[x.suite]? = some S → S.caps.has k = true →
      NeverRefuses (f x S)) :
    NeverRefuses (do let x ← liveSlot s c; let S ← suiteFor s x k; f x S) := by
  refine neverRefuses_bind.mpr ⟨neverRefuses_liveSlot s c, fun x hx => ?_⟩
  obtain ⟨hslot, hl⟩ := liveSlot_eq_ok.mp hx
  have hwf := hi.ctxWf_of_getElem? hslot
  refine neverRefuses_bind.mpr ⟨neverRefuses_suiteFor.mpr (exists_suite_of_live hwf hl), fun S hS => ?_⟩
  obtain ⟨hS, hcap⟩ := suiteFor_eq_ok.mp hS
  exact hf x S hwf hl hS hcap

theorem State.Inv.regWf (hi : s.Inv) : regWf s.reg = true := ((configWf_iff s).mp hi.config).1

theorem State.Inv.neverRefuses_transform (hi : s.Inv) (dir : Dir) (acc : Fin 16) :
    NeverRefuses (transform dir c acc s) :=
  hi.neverRefuses_slot_suite fun x S _ _ _ _ => by simp

/-- INIT refuses nothing in any state: the index it looks up is one of the registry's. -/
theorem neverRefuses_initWork (s : State) (c : Nat) : NeverRefuses (initWork c s) := by
  have hfound : ∀ n, findSuite s.reg s.a[0] = some n → ∃ S, s.reg[n]? = some S := fun n hn => by
    obtain ⟨hlt, -⟩ := List.findIdx?_eq_some_iff_getElem.mp hn
    exact ⟨_, List.getElem?_eq_getElem hlt⟩
  simpa [initWork] using fun _ _ _ n hn => hfound n hn

theorem State.Inv.neverRefuses_setkeyWork (hi : s.Inv) : NeverRefuses (setkeyWork c s) :=
  hi.neverRefuses_slot_suite fun x S _ _ _ _ => by
    cases S.family <;> simp

theorem State.Inv.neverRefuses_setkeysWork (hi : s.Inv) : NeverRefuses (setkeysWork c s) :=
  hi.neverRefuses_slot_suite fun x S hwf hl hS hcap => by
    have hf := family_eq_sym_of_setkeys (suiteWf_of_regWf hi.regWf hS) hcap
    obtain ⟨sub, M, hsub, hM⟩ := exists_sub_of_sym hi.regWf hwf hl hS hf
    simp [hsub, hM]

theorem State.Inv.neverRefuses_macWork (hi : s.Inv) : NeverRefuses (macWork c s) :=
  hi.neverRefuses_slot_suite fun x S hwf hl hS _ => by
    obtain ⟨owner, M, howner, hM⟩ := exists_macOwner hi.regWf hwf hl hS
    simp [howner, hM]

theorem State.Inv.neverRefuses_acktagWork (hi : s.Inv) : NeverRefuses (acktagWork c s) :=
  hi.neverRefuses_slot_suite fun x S _ _ _ _ => by simp

theorem State.Inv.neverRefuses_workOf (hi : s.Inv) (i : Instr) : NeverRefuses (workOf i s) := by
  cases i with
  | encrypt c acc => exact hi.neverRefuses_transform .enc acc
  | decrypt c acc => simpa [workOf, decryptWork] using hi.neverRefuses_transform .dec acc
  | init c => exact neverRefuses_initWork s c
  | setkey c => exact hi.neverRefuses_setkeyWork
  | setkeys c => exact hi.neverRefuses_setkeysWork
  | finish c => simp [workOf, finishWork]
  | mac c => exact hi.neverRefuses_macWork
  | acktag c => exact hi.neverRefuses_acktagWork
  | lookup => simp [workOf, lookupWork_eq]
  | getdesc n => simp [workOf, getdescWork]
  | gettype n => simp [workOf, gettypeWork]
  | nextiv n => simp [workOf, nextivWork]

theorem runCommand_completes {w : Except Stop State} (h : NeverRefuses w) : ∃ t, runCommand s w = .next t := by
  cases hhalt : s.halt with
  | true => exact ⟨s, runCommand_halted hhalt w⟩
  | false =>
    match w, h with
    | .ok t, _ => exact ⟨t, runCommand_ok hhalt⟩
    | .error (.trap code info), _ => exact ⟨_, runCommand_trap hhalt code info⟩
    | .error (.refuse r), h => exact absurd rfl (h r)

theorem State.Inv.exec_completes (hi : s.Inv) (i : Instr) : ∃ t, exec i s = .next t :=
  exec_eq_runCommand i s ▸ runCommand_completes (hi.neverRefuses_workOf i)

/-! ### Every legal action of the host completes -/

theorem State.Inv.regStore_completes (hi : s.Inv) (r : RegName) (v : Word) : ∃ t, regStore r v s = .next t := by
  cases hhalt : s.halt with
  | true => exact ⟨s, regStore_halted r v hhalt⟩
  | false =>
    cases r with
    | cmd =>
      cases hd : decode (v.setWidth 32) with
      | ok i =>
        have hcmd : State.Inv { s with cmd := v.setWidth 32 } := hi.congr rfl
        exact regStore_cmd hhalt hd ▸ hcmd.exec_completes i
      | error e => exact ⟨_, regStore_cmd_illegal hhalt hd⟩
    | a i => exact ⟨_, regStore_a i v hhalt⟩
    | csum k => exact ⟨_, regStore_csum k v hhalt⟩
    | _ => exact ⟨s, regStore_readOnly rfl v s⟩

/-- Settles O18: by the host's next action; `State.Inv.regStore_completes` for a write to a register and so to CMD. -/
theorem legalActionsAlwaysComplete : Obligations.LegalActionsAlwaysComplete := by
  intro s hi hwrite hread hstore hload
  cases hh : s.host with
  | nil => exact ⟨s, by simp [step, stepHost, hi.config, hh]⟩
  | cons act rest =>
    have hrest : State.Inv { s with host := rest } := hi.congr rfl
    cases act with
    | regWrite off width v =>
      obtain ⟨h8, rfl⟩ := hwrite off width v rest hh
      exact step_regWrite hi.config hh h8 ▸ hrest.regStore_completes (regAt off) v
    | regRead off width =>
      obtain ⟨h8, rfl⟩ := hread off width rest hh
      exact ⟨_, step_regRead hi.config hh h8⟩
    | memWrite addr b =>
      exact ⟨_, (step_of_host_cons hi.config hh).trans (hostStore_of (s := { s with host := rest })
        (hstore addr b rest hh))⟩
    | memRead addr n =>
      exact ⟨_, (step_of_host_cons hi.config hh).trans (hostLoad_of (s := { s with host := rest })
        (hload addr n rest hh))⟩
    | reset => exact ⟨_, step_reset hi.config hh⟩

end

end Sys2Proof.Machine
